-- ==== Sys2Proof/Word.lean ====
section
/-! DEFINITION. The words of a transaction (spec/30_encoding.md R46) and the carrier of a sample. -/

namespace Sys2Proof

/-- A 64-bit operand word `ARG0`, `ARG1`, `ARG2` or the response word `DATA` (R46). -/
abbrev Word := BitVec 64

/-- The 32-bit command word `CMD` (R46, R47). -/
abbrev CmdWord := BitVec 32

/-- A sample: the `w`-bit pattern of R14, held zero-extended in 64 bits so that one type serves both sample
formats (log entry 2). The sample is the low `w` bits; an invariant says that the bits above are zero. -/
abbrev Sample := BitVec 64

end Sys2Proof
end

