-- ==== Sys2Proof/Config.lean ====
section
/-! DEFINITION. The build parameters of spec/00_scope.md R2 to R10 as one record, the build that `State.reset`
stands for, and the values the spec leaves open as constants with no body. -/

namespace Sys2Proof

/-- R3: the sample format of a build. -/
inductive Sfmt where
  | binary32
  | binary64
  deriving DecidableEq, Repr

/-- R2: the kind of a unit slot. -/
inductive Kind where
  | ring
  | delay
  | biquad
  | svf
  deriving DecidableEq, Repr

/-- Five biquad coefficients, `a0` being 1 (R7, R9, R24). -/
structure BqCoeffs where
  b0 : Sample
  b1 : Sample
  b2 : Sample
  a1 : Sample
  a2 : Sample
  deriving DecidableEq, Repr, Inhabited

/-- The two state-variable filter coefficients, frequency and damping (R7, R9, R25). -/
structure SvfCoeffs where
  f : Sample
  damp : Sample
  deriving DecidableEq, Repr, Inhabited

/-- The build parameters of one unit slot: `KIND[u]` is the constructor, its arguments are `CAP[u]` (R5), `FS[u]`
(R6, a binary64 value) and the construction configuration `INIT_*[u]` (R7). -/
inductive UnitCfg where
  | ring (cap : Nat)
  | delay (cap : Nat) (initDelay : Sample)
  | biquad (fs : Word) (init : BqCoeffs)
  | svf (fs : Word) (init : SvfCoeffs) (initMode : Nat)
  deriving DecidableEq, Repr

/-- `KIND[u]` of a slot's parameters (R2). -/
def UnitCfg.kind : UnitCfg → Kind
  | .ring _ => .ring
  | .delay _ _ => .delay
  | .biquad _ _ => .biquad
  | .svf _ _ _ => .svf

/-- The configuration record of R3 to R10: `SFMT`, the unit slots (their number is `NUNITS`), `CHAIN` and `NPORTS`.
The design functions of R9 are the constants `Config.designBq` and `Config.designSvf`. -/
structure Build where
  sfmt : Sfmt
  units : List UnitCfg
  chain : List Nat
  nports : Nat
  deriving DecidableEq, Repr

namespace Config

/-- DESIGN CHOICE (log entry 1): the build `State.reset` stands for. One unit of each kind, the spec's defaults
`binary32` (R3) and two ports (R10), the capacity 8 of the source's delay scenario (T1), the rate, coefficients and
modes of the builds of P1, P3 and P4. Statements quantify over every state, hence over every build. -/
def defaultBuild : Build where
  sfmt := .binary32
  units := [ .delay 8 0,
             .biquad 0x40E7700000000000#64 ⟨0x3F800000#64, 0, 0, 0, 0⟩,
             .svf 0x40E7700000000000#64 ⟨0, 0⟩ 0,
             .ring 8 ]
  chain := [0, 1, 2]
  nports := 2

/-- DESIGN CHOICE (log entry 4): free values. Draw number `n` of a NaN made by arithmetic (R14, R16, U2): sign and
payload are taken from these bits, which nothing constrains. -/
opaque freeNaN : Nat → BitVec 64

/-- R9, U3: the open function `DESIGN_BQ(kind, fc, Q, fs)`, binary64 in and out, `none` for an unsupported kind
(log entry 7). -/
opaque designBq : BitVec 4 → Word → Word → Word → Option BqCoeffs

/-- R9, U3: the open function `DESIGN_SVF(fc, Q, fs)`, binary64 in and out (log entry 7). -/
opaque designSvf : Word → Word → Word → SvfCoeffs

/-- DEDUCED (log entry 6): sign and payload of coefficient number `idx` of a biquad design when `round_S` makes it a
NaN (R81), a function of the design's arguments alone (R77: the result depends only on them). -/
opaque designBqNaN : BitVec 4 → Word → Word → Word → Nat → BitVec 64

/-- DEDUCED (log entry 6): the same for the two coefficients of a state-variable filter design (R78, R81). -/
opaque designSvfNaN : Word → Word → Word → Nat → BitVec 64

/-- DESIGN CHOICE (log entry 8): free values of the arbiter (R37, U6). A port last served at arbitration count `t`
holds the ticket `t + arbiterDelay port t`; the arbiter takes the pending port with the least ticket. -/
opaque arbiterDelay : Nat → Nat → Nat

end Config

end Sys2Proof
end

