-- ==== Sys2Proof/Syntax.lean ====
section
/-! DEFINITION. The transaction and the thirteen commands of spec/30_encoding.md R53. -/

namespace Sys2Proof

/-- R46: one transaction, the command word and three operand words. -/
structure Command where
  cmd : CmdWord
  arg0 : Word
  arg1 : Word
  arg2 : Word
  deriving DecidableEq, Repr

/-- R53: the commands. `u` is the UNIT field, `sel` the SEL field of the three opcodes that use it (R52); an operand
is the whole 64-bit word, read as `S`, `N` or `D` (R50) by the meaning. Operand words an opcode does not use are not
part of the instruction (R46). -/
inductive Instr where
  /-- `0x00` NOP (R89) -/
  | nop
  /-- `0x01` TICK, `S(ARG0)` = input (R91) -/
  | tick (u : BitVec 8) (x : Word)
  /-- `0x02` CHAIN_TICK, `S(ARG0)` = input (R92) -/
  | chainTick (x : Word)
  /-- `0x03` LAST_OUT (R71) -/
  | lastOut (u : BitVec 8)
  /-- `0x10` RB_WRITE, `S(ARG0)` = sample (R62) -/
  | rbWrite (u : BitVec 8) (v : Word)
  /-- `0x11` RB_READ_AT, `N(ARG0)` = offset (R63) -/
  | rbReadAt (u : BitVec 8) (off : Word)
  /-- `0x18` SET_DELAY, `S(ARG0)` = length (R67) -/
  | setDelay (u : BitVec 8) (d : Word)
  /-- `0x20` STAGE_COEFF, SEL = coefficient index, `S(ARG0)` = value (R74) -/
  | stageCoeff (u : BitVec 8) (sel : BitVec 4) (v : Word)
  /-- `0x21` COMMIT (R75) -/
  | commit (u : BitVec 8)
  /-- `0x22` SET_PARAMS, SEL = design kind, `D(ARG0)` = fc, `D(ARG1)` = Q (R77, R78) -/
  | setParams (u : BitVec 8) (sel : BitVec 4) (fc q : Word)
  /-- `0x23` SET_MODE, SEL = mode (R83) -/
  | setMode (u : BitVec 8) (sel : BitVec 4)
  /-- `0x30` RESET (R93) -/
  | reset (u : BitVec 8)
  /-- `0x31` RESET_ALL (R94) -/
  | resetAll
  deriving DecidableEq, Repr

end Sys2Proof
end

