-- ==== Sys2Proof/WellFormed.lean ====
section
/-! DEFINITION. When a decoded command is one this build has: the UNIT, kind and SEL checks of spec/30_encoding.md
R49, R52 and R53. The reserved bits and the opcode are the decoder's checks. -/

namespace Sys2Proof

/-- R49: `u < NUNITS` and `KIND[u]` is one of `allowed`. -/
def unitHasKind (kinds : List Kind) (u : BitVec 8) (allowed : List Kind) : Bool :=
  match kinds[u.toNat]? with
  | some k => allowed.contains k
  | none => false

/-- R52: the legal SEL values of STAGE_COEFF by kind. -/
def stageSelLegal : Kind → BitVec 4 → Bool
  | .biquad, sel => sel.toNat ≤ 4
  | .svf, sel => sel.toNat ≤ 1
  | .ring, _ => false
  | .delay, _ => false

/-- R52: the legal SEL values of SET_PARAMS by kind. -/
def paramsSelLegal : Kind → BitVec 4 → Bool
  | .biquad, _ => true
  | .svf, sel => sel.toNat = 0
  | .ring, _ => false
  | .delay, _ => false

/-- R49, R52, R53: the command names a unit that exists, of a kind the opcode's row lists, with a SEL legal for the
opcode and the kind. `kinds` is the build's list `KIND[0 .. NUNITS-1]`. -/
def Instr.wellFormed (kinds : List Kind) : Instr → Bool
  | .nop => true
  | .tick u _ => unitHasKind kinds u [.delay, .biquad, .svf]
  | .chainTick _ => true
  | .lastOut u => unitHasKind kinds u [.delay]
  | .rbWrite u _ => unitHasKind kinds u [.ring, .delay]
  | .rbReadAt u _ => unitHasKind kinds u [.ring, .delay]
  | .setDelay u _ => unitHasKind kinds u [.delay]
  | .stageCoeff u sel _ => (kinds[u.toNat]?).any (stageSelLegal · sel)
  | .commit u => unitHasKind kinds u [.biquad, .svf]
  | .setParams u sel _ _ => (kinds[u.toNat]?).any (paramsSelLegal · sel)
  | .setMode u sel => unitHasKind kinds u [.svf] && sel.toNat ≤ 3
  | .reset u => unitHasKind kinds u [.ring, .delay, .biquad, .svf]
  | .resetAll => true

end Sys2Proof
end

