-- ==== Sys2Proof/Decode.lean ====
section
/-! DEFINITION. The decoder and the encoder of spec/30_encoding.md R46 to R56: the checks that need only the command
word. The checks that need the build (unit, kind, SEL by kind) are the meanings'. -/

namespace Sys2Proof

/-- R47: `CMD[7:0]`. -/
def opField (c : CmdWord) : BitVec 8 := c.extractLsb' 0 8

/-- R47: `CMD[15:8]`. -/
def unitField (c : CmdWord) : BitVec 8 := c.extractLsb' 8 8

/-- R47: `CMD[19:16]`. -/
def selField (c : CmdWord) : BitVec 4 := c.extractLsb' 16 4

/-- R47: `CMD[31:20]`. -/
def rsvdField (c : CmdWord) : BitVec 12 := c.extractLsb' 20 12

/-- Why a command word decodes to no instruction; each is IllegalCommand (R99). -/
inductive DecodeError where
  /-- R48: a reserved bit is set. -/
  | reservedBits
  /-- R54: the opcode is unassigned. -/
  | unassignedOpcode (op : BitVec 8)
  /-- R49: UNIT is not zero for an opcode that names no unit. -/
  | unitNotZero
  /-- R52: SEL is not zero for an opcode that uses no SEL. -/
  | selNotZero
  deriving DecidableEq, Repr

/-- R52: an opcode that uses no SEL. DEDUCED (log entry 16): checked before the unit and its kind. -/
def withoutSel (c : CmdWord) (i : Instr) : Except DecodeError Instr :=
  if selField c = 0 then .ok i else .error .selNotZero

/-- R49, R52: an opcode that names no unit and uses no SEL. -/
def withoutUnit (c : CmdWord) (i : Instr) : Except DecodeError Instr :=
  if unitField c = 0 then withoutSel c i else .error .unitNotZero

/-- R53: the opcode map, for a command word whose reserved bits are zero. -/
def decodeOp (c : Command) : Except DecodeError Instr :=
  let u := unitField c.cmd
  let sel := selField c.cmd
  match (opField c.cmd).toNat with
  | 0x00 => withoutUnit c.cmd .nop
  | 0x01 => withoutSel c.cmd (.tick u c.arg0)
  | 0x02 => withoutUnit c.cmd (.chainTick c.arg0)
  | 0x03 => withoutSel c.cmd (.lastOut u)
  | 0x10 => withoutSel c.cmd (.rbWrite u c.arg0)
  | 0x11 => withoutSel c.cmd (.rbReadAt u c.arg0)
  | 0x18 => withoutSel c.cmd (.setDelay u c.arg0)
  | 0x20 => .ok (.stageCoeff u sel c.arg0)
  | 0x21 => withoutSel c.cmd (.commit u)
  | 0x22 => .ok (.setParams u sel c.arg0 c.arg1)
  | 0x23 => .ok (.setMode u sel)
  | 0x30 => withoutSel c.cmd (.reset u)
  | 0x31 => withoutUnit c.cmd .resetAll
  | _ => .error (.unassignedOpcode (opField c.cmd))

/-- R56: reserved bits first, then the opcode map. Total on every transaction. -/
def decode (c : Command) : Except DecodeError Instr :=
  if rsvdField c.cmd = 0 then decodeOp c else .error .reservedBits

/-- Section 5 of 30_encoding.md: `(s << 16) | (u << 8) | OP` with the reserved bits zero. -/
def cmdWord (sel : BitVec 4) (u op : BitVec 8) : CmdWord := 0#12 ++ sel ++ u ++ op

/-- R53: the opcode of an instruction. -/
def Instr.opcode : Instr → BitVec 8
  | .nop => 0x00
  | .tick _ _ => 0x01
  | .chainTick _ => 0x02
  | .lastOut _ => 0x03
  | .rbWrite _ _ => 0x10
  | .rbReadAt _ _ => 0x11
  | .setDelay _ _ => 0x18
  | .stageCoeff _ _ _ => 0x20
  | .commit _ => 0x21
  | .setParams _ _ _ _ => 0x22
  | .setMode _ _ => 0x23
  | .reset _ => 0x30
  | .resetAll => 0x31

/-- The UNIT field of an instruction, 0 where it names no unit (R49). -/
def Instr.unit : Instr → BitVec 8
  | .nop | .chainTick _ | .resetAll => 0
  | .tick u _ | .lastOut u | .rbWrite u _ | .rbReadAt u _ | .setDelay u _ | .stageCoeff u _ _
  | .commit u | .setParams u _ _ _ | .setMode u _ | .reset u => u

/-- The SEL field of an instruction, 0 where it uses none (R52). -/
def Instr.sel : Instr → BitVec 4
  | .stageCoeff _ sel _ | .setParams _ sel _ _ | .setMode _ sel => sel
  | .nop | .chainTick _ | .resetAll | .tick _ _ | .lastOut _ | .rbWrite _ _ | .rbReadAt _ _
  | .setDelay _ _ | .commit _ | .reset _ => 0

/-- The operand words of an instruction, 0 where it uses none (R53). -/
def Instr.args : Instr → Word × Word
  | .tick _ x | .chainTick x | .rbWrite _ x | .rbReadAt _ x | .setDelay _ x | .stageCoeff _ _ x => (x, 0)
  | .setParams _ _ fc q => (fc, q)
  | .nop | .resetAll | .lastOut _ | .commit _ | .setMode _ _ | .reset _ => (0, 0)

/-- The transaction that stands for an instruction (R46, R47, R53); unused operand words are zero. -/
def encode (i : Instr) : Command where
  cmd := cmdWord i.sel i.unit i.opcode
  arg0 := i.args.1
  arg1 := i.args.2
  arg2 := 0

/-- DESIGN CHOICE (log entry 11): the transaction whose bits are `w`, numbered as the opcode table numbers them:
`CMD` is bits 31..0, `ARG0` bits 95..32, `ARG1` bits 159..96, `ARG2` bits 223..160; bits from `nbits` up are zero. -/
def commandOfBits (nbits w : Nat) : Command :=
  let v := w % 2 ^ nbits
  { cmd := BitVec.ofNat 32 v
    arg0 := BitVec.ofNat 64 (v / 2 ^ 32)
    arg1 := BitVec.ofNat 64 (v / 2 ^ 96)
    arg2 := BitVec.ofNat 64 (v / 2 ^ 160) }

/-- The instruction the decoder reads from the bits `w` of a table row of `nbits` bits. -/
def decodeTableWord (nbits w : Nat) : Option Instr :=
  match decode (commandOfBits nbits w) with
  | .ok i => some i
  | .error _ => none

end Sys2Proof
end

