-- ==== Sys2Proof/Machine/Fp.lean ====
section
/-! DEFINITION. Sample arithmetic (spec/00_scope.md R3, R14; IEEE 754-2019 as spec/93_implementation_defined.md G4
lists it, log entry 14). A finite magnitude is a whole number of units, the unit being the smallest subnormal
`2^-unitExp`; every operation is computed exactly on these whole numbers and rounded once. -/

namespace Sys2Proof

/-- R3: the width `w` of a sample in bits. -/
def Sfmt.width : Sfmt → Nat
  | .binary32 => 32
  | .binary64 => 64

/-- Bits of a significand, the leading one included. -/
def Sfmt.prec : Sfmt → Nat
  | .binary32 => 24
  | .binary64 => 53

/-- The smallest subnormal is `2^-unitExp`. -/
def Sfmt.unitExp : Sfmt → Nat
  | .binary32 => 149
  | .binary64 => 1074

/-- The exponent field of infinities and NaNs. -/
def Sfmt.maxExp : Sfmt → Nat
  | .binary32 => 255
  | .binary64 => 2047

/-- The magnitude bits (all but the sign) of an infinity; a larger magnitude is a NaN. -/
def Sfmt.infMag (f : Sfmt) : Nat := f.maxExp * 2 ^ (f.prec - 1)

namespace Machine

/-- The sample in the low `w` bits of a word, zero-extended: `S(ARGn)` of R31 and R50, and `zext_64` of R13. -/
def lowBits (f : Sfmt) (x : Word) : Sample := BitVec.ofNat 64 (x.toNat % 2 ^ f.width)

/-- The magnitude bits of a sample: all bits below the sign bit `w-1` (R31). -/
def magBits (f : Sfmt) (x : Sample) : Nat := x.toNat % 2 ^ (f.width - 1)

/-- The sign bit of a sample, bit `w-1` (R31). -/
def signBit (f : Sfmt) (x : Sample) : Bool := x.getLsbD (f.width - 1)

/-- R14: `isNaN(x)`. -/
def isNaN (f : Sfmt) (x : Sample) : Bool := f.infMag < magBits f x

/-- The sample is an infinity. -/
def isInf (f : Sfmt) (x : Sample) : Bool := magBits f x = f.infMag

/-- R14: `isFinite(x)`. -/
def isFinite (f : Sfmt) (x : Sample) : Bool := magBits f x < f.infMag

/-- The sample is `+0` or `-0`. -/
def isZero (f : Sfmt) (x : Sample) : Bool := magBits f x = 0

/-- The value of finite magnitude bits `m`, in units: subnormal when the exponent field is 0. -/
def magUnits (f : Sfmt) (m : Nat) : Nat :=
  if m / 2 ^ (f.prec - 1) = 0 then m
  else (2 ^ (f.prec - 1) + m % 2 ^ (f.prec - 1)) * 2 ^ (m / 2 ^ (f.prec - 1) - 1)

/-- The real value of a finite sample, in units. -/
def value (f : Sfmt) (x : Sample) : Int :=
  if signBit f x then -(magUnits f (magBits f x) : Int) else (magUnits f (magBits f x) : Int)

/-- `n / 2^k` rounded to the nearest whole number, ties to the even one. -/
def roundHalfEven (n k : Nat) : Nat :=
  if 2 * (n % 2 ^ k) < 2 ^ k then n / 2 ^ k
  else if 2 ^ k < 2 * (n % 2 ^ k) then n / 2 ^ k + 1
  else n / 2 ^ k + n / 2 ^ k % 2

/-- How many low bits of a magnitude of `n` whole units lie below the last significand bit. -/
def dropBits (f : Sfmt) (n : Nat) : Nat := Nat.log2 n + 1 - f.prec

/-- roundTiesToEven of `n / 2^s` units, as magnitude bits, with no bound on the exponent. With `k` bits dropped and `r`
the rounded significand, the bits are `k * 2^(prec-1) + r`: a carry out of `r` moves to the exponent field, and with
`k = 0` the same form gives the subnormal numbers. -/
def roundRaw (f : Sfmt) (n s : Nat) : Nat :=
  dropBits f (n / 2 ^ s) * 2 ^ (f.prec - 1) + roundHalfEven n (s + dropBits f (n / 2 ^ s))

/-- roundTiesToEven of `n / 2^s` units, as magnitude bits; too large a result is the infinity (R14). -/
def roundMag (f : Sfmt) (n s : Nat) : Nat := min (roundRaw f n s) f.infMag

/-- A sample from its sign and its magnitude bits. -/
def pack (f : Sfmt) (neg : Bool) (m : Nat) : Sample :=
  BitVec.ofNat 64 (m + if neg then 2 ^ (f.width - 1) else 0)

/-- The quiet NaN with the sign (bit 63) and payload (low bits) of `bits`: every quiet NaN is one of these (R14). -/
def quietNaN (f : Sfmt) (bits : BitVec 64) : Sample :=
  pack f (bits.getLsbD 63) (f.infMag + 2 ^ (f.prec - 2) + bits.toNat % 2 ^ (f.prec - 2))

/-- The NaN result of the arithmetic operation with draw number `n` (R14, U2, log entry 4). -/
def drawnNaN (f : Sfmt) (n : Nat) : Sample := quietNaN f (Config.freeNaN n)

/-- R14: `a ⊕ b`. An exact zero sum is `-0` only when both operands have the sign `-`. -/
def fpAdd (f : Sfmt) (n : Nat) (a b : Sample) : Sample :=
  if isNaN f a || isNaN f b then drawnNaN f n
  else if isInf f a then
    if isInf f b && (signBit f a != signBit f b) then drawnNaN f n else pack f (signBit f a) f.infMag
  else if isInf f b then pack f (signBit f b) f.infMag
  else
    pack f (if value f a + value f b = 0 then signBit f a && signBit f b else value f a + value f b < 0)
      (roundMag f (value f a + value f b).natAbs 0)

/-- The sample with its sign bit inverted. -/
def negate (f : Sfmt) (x : Sample) : Sample := pack f (!signBit f x) (magBits f x)

/-- R14: `a ⊖ b`, the IEEE subtraction: the sum with `b`'s sign inverted. -/
def fpSub (f : Sfmt) (n : Nat) (a b : Sample) : Sample := fpAdd f n a (negate f b)

/-- R14: `a ⊗ b`. The exact product of two magnitudes counts units of `2^(-2*unitExp)`. -/
def fpMul (f : Sfmt) (n : Nat) (a b : Sample) : Sample :=
  if isNaN f a || isNaN f b then drawnNaN f n
  else if isInf f a || isInf f b then
    if isZero f a || isZero f b then drawnNaN f n else pack f (signBit f a != signBit f b) f.infMag
  else
    pack f (signBit f a != signBit f b)
      (roundMag f (magUnits f (magBits f a) * magUnits f (magBits f b)) f.unitExp)

/-- R14, R81: `round_S(x)` of a binary64 value; the identity when SFMT is binary64. `nan` supplies the sign and payload
of a NaN result. -/
def roundS (f : Sfmt) (nan : BitVec 64) (x : Word) : Sample :=
  match f with
  | .binary64 => x
  | .binary32 =>
    if isNaN .binary64 x then quietNaN .binary32 nan
    else if isInf .binary64 x then pack .binary32 (signBit .binary64 x) (Sfmt.infMag .binary32)
    else pack .binary32 (signBit .binary64 x)
      (roundMag .binary32 (magUnits .binary64 (magBits .binary64 x)) (Sfmt.unitExp .binary64 - Sfmt.unitExp .binary32))

/-- The sample `1.0` (41_delay_line.md, introduction): the exponent field holds the bias. -/
def one (f : Sfmt) : Sample := pack f false (f.maxExp / 2 * 2 ^ (f.prec - 1))

/-- The real value 1, in units. -/
def unitsPerOne (f : Sfmt) : Nat := 2 ^ f.unitExp

/-- R65: `d` is a valid delay length for capacity `c`: not NaN, `d >= 0` (with `-0` counted as 0) and `d <= c-1`. -/
def delayValid (f : Sfmt) (c : Nat) (d : Sample) : Bool :=
  isFinite f d && (!signBit f d || isZero f d) &&
    decide (magUnits f (magBits f d) + unitsPerOne f ≤ c * unitsPerOne f)

/-- R66: the integer part `floor(d)` of a valid delay length. -/
def delayInt (f : Sfmt) (d : Sample) : BitVec 32 := BitVec.ofNat 32 (magUnits f (magBits f d) / unitsPerOne f)

/-- R66: the fractional part `d - floor(d)` of a valid delay length, `+0` when it is zero. -/
def delayFrac (f : Sfmt) (d : Sample) : Sample := pack f false (roundMag f (magUnits f (magBits f d) % unitsPerOne f) 0)

/-- A binary64 value is finite and `> 0`. -/
def positive64 (x : Word) : Bool := isFinite .binary64 x && !signBit .binary64 x && !isZero .binary64 x

/-- R6: a sample rate is finite and `> 0`. -/
def rateValid (fs : Word) : Bool := positive64 fs

/-- R76: `fc` and `Q` finite, `0 < fc`, `fc < fs / 2` on real values, `0 < Q`. -/
def paramsValid (fs fc q : Word) : Bool :=
  positive64 fc && positive64 q && isFinite .binary64 fs && decide (2 * value .binary64 fc < value .binary64 fs)

end Machine

end Sys2Proof
end

