-- ==== Sys2Proof/Machine/Units.lean ====
section
/-! DEFINITION. The registers of the four unit kinds (spec/10_state.md R21 to R25), each slot with its build parameters,
their power-on values (R30, R109) and the validity of a build (spec/00_scope.md R11). -/

namespace Sys2Proof

namespace Machine

/-- The slots of a ring buffer in canonical form (R21, R28, R32; log entry 3): slot index and sample, indices strictly
rising, no entry holding `+0`, which is what an unlisted slot reads as (R30). -/
abbrev Cells := List (Nat × Sample)

/-- R21: a ring buffer; `cap` is the build parameter `CAP[u]`, `buf` the slots `BUF[0..C-1]`, `cur` the register `CUR`. -/
structure RingBuf where
  cap : Nat
  buf : Cells
  cur : BitVec 32
  deriving DecidableEq, Repr

/-- R22: a DELAY unit owns one ring buffer; `initDelay` is the build parameter `INIT_DELAY[u]`. -/
structure DelayUnit where
  rb : RingBuf
  initDelay : Sample
  dlyInt : BitVec 32
  dlyFrac : Sample
  lastOut : Sample
  deriving DecidableEq, Repr

/-- R24: a BIQUAD unit; `active` is `B0, B1, B2, A1, A2`, `shadow` is `SB0, SB1, SB2, SA1, SA2`; `fs` and `init` are the
build parameters `FS[u]` and `INIT_BQ[u]`. -/
structure BiquadUnit where
  fs : Word
  init : BqCoeffs
  active : BqCoeffs
  shadow : BqCoeffs
  x1 : Sample
  x2 : Sample
  y1 : Sample
  y2 : Sample
  deriving DecidableEq, Repr

/-- R25: an SVF unit; `active` is `F, DAMP`, `shadow` is `SF, SDAMP`; `fs`, `init` and `initMode` are the build
parameters `FS[u]`, `INIT_SVF[u]` and `INIT_MODE[u]`. -/
structure SvfUnit where
  fs : Word
  init : SvfCoeffs
  initMode : Nat
  active : SvfCoeffs
  shadow : SvfCoeffs
  mode : BitVec 2
  low : Sample
  band : Sample
  deriving DecidableEq, Repr

/-- R2, R20: one unit slot, its kind and the registers that kind has. -/
inductive Slot where
  | ring (r : RingBuf)
  | delay (d : DelayUnit)
  | biquad (b : BiquadUnit)
  | svf (v : SvfUnit)
  deriving DecidableEq, Repr

/-- The build parameters a slot carries (R2, R5 to R7). -/
def Slot.cfg : Slot → UnitCfg
  | .ring r => .ring r.cap
  | .delay d => .delay d.rb.cap d.initDelay
  | .biquad b => .biquad b.fs b.init
  | .svf v => .svf v.fs v.init v.initMode

/-- `KIND[u]` (R2). -/
def Slot.kind (s : Slot) : Kind := s.cfg.kind

/-- R21, R30: an empty ring buffer of capacity `c`. -/
def RingBuf.powerOn (c : Nat) : RingBuf := { cap := c, buf := [], cur := 0 }

/-- R30, R109: a slot at power-on. -/
def powerOnSlot (f : Sfmt) : UnitCfg → Slot
  | .ring c => .ring (RingBuf.powerOn c)
  | .delay c d =>
    .delay { rb := RingBuf.powerOn c, initDelay := d, dlyInt := delayInt f d, dlyFrac := delayFrac f d, lastOut := 0 }
  | .biquad fs init =>
    .biquad { fs := fs, init := init, active := init, shadow := init, x1 := 0, x2 := 0, y1 := 0, y2 := 0 }
  | .svf fs init m =>
    .svf { fs := fs, init := init, initMode := m, active := init, shadow := init, mode := BitVec.ofNat 2 m,
           low := 0, band := 0 }

/-- The field holds a sample of the format: no bit at or above `w` is set (log entry 2). -/
def fits (f : Sfmt) (x : Sample) : Bool := x.toNat < 2 ^ f.width

/-- All five coefficients are samples of the format. -/
def bqFits (f : Sfmt) (c : BqCoeffs) : Bool :=
  fits f c.b0 && fits f c.b1 && fits f c.b2 && fits f c.a1 && fits f c.a2

/-- Both coefficients are samples of the format. -/
def svfFits (f : Sfmt) (c : SvfCoeffs) : Bool := fits f c.f && fits f c.damp

/-- R5: `1 <= CAP[u] <= 2^32`. -/
def capValid (c : Nat) : Bool := 1 ≤ c && c ≤ 2 ^ 32

/-- R5 to R7, R11: the parameters of one slot are in range. -/
def unitCfgValid (f : Sfmt) : UnitCfg → Bool
  | .ring c => capValid c
  | .delay c d => capValid c && fits f d && delayValid f c d
  | .biquad fs init => rateValid fs && bqFits f init
  | .svf fs init m => rateValid fs && svfFits f init && m ≤ 3

/-- R8: a slot of this kind may stand in `CHAIN`. -/
def tickable : Kind → Bool
  | .ring => false
  | .delay => true
  | .biquad => true
  | .svf => true

/-- R8, R11: `CHAIN` names tickable units that exist, none twice. -/
def chainValid (kinds : List Kind) (chain : List Nat) : Bool :=
  chain.all (fun c => (kinds[c]?).any tickable) && decide chain.Nodup

/-- R11: the build's parameters keep R3 to R10. -/
def buildValid (b : Build) : Bool :=
  1 ≤ b.units.length && b.units.length ≤ 256 && b.units.all (unitCfgValid b.sfmt) &&
    chainValid (b.units.map UnitCfg.kind) b.chain && 1 ≤ b.nports

end Machine

end Sys2Proof
end

