-- ==== Sys2Proof/Machine/State.lean ====
section
/-! DEFINITION. The state of the block (spec/10_state.md; spec/20_memory.md R37 for the ports), the reasons a step can
stop, and the state at the end of power-on reset (spec/70_reset_and_hazards.md R109). -/

namespace Sys2Proof

namespace Machine

/-- R51: the status of a response; its 2-bit code is `Status.code` in Flags.lean. -/
inductive Status where
  | ok
  | invalidParameter
  | outOfRange
  | illegalCommand
  deriving DecidableEq, Repr

/-- R46: the two response words. -/
structure Response where
  status : Status
  data : Word
  deriving DecidableEq, Repr

/-- R37: a command port. `queue` holds the commands its agent has issued and the arbiter has not taken, oldest first.
`since` is the model's own: the arbitration count at which the port was last served (log entry 8). -/
structure Port where
  queue : List Command
  since : Nat
  deriving DecidableEq, Repr

/-- R119: one entry of what a run does. -/
structure Completed where
  port : Nat
  cmd : Command
  resp : Response
  deriving DecidableEq, Repr

/-- Why the machine stops with a fault. -/
inductive Fault where
  /-- Raised by a slot access (`memRead`, `memWrite`) or a tap (`readAt`) at or above the capacity, an address the spec
  says does not exist (R32, R59). Safe: the spec gives no such access, and no state that meets R23 makes one
  (log entry 13). -/
  | slotBeyondCapacity
  deriving DecidableEq, Repr

/-- Why the machine has no meaning for what it is asked to run. -/
inductive Refusal where
  /-- An instruction the model gives no meaning to; no arm of `exec` answers this any more. Safe. -/
  | notModelled (mnemonic : String)
  /-- Raised by `step`, and by a chain stage that is no tickable unit: a build whose parameters break R3 to R10 has no
  run (R11, U7). Safe (log entry 12). -/
  | invalidBuild
  deriving DecidableEq, Repr

/-- The block: build parameters, unit slots, ports, and the model's own counters and record. -/
structure State where
  /-- R3: SFMT, a build parameter -/
  sfmt : Sfmt
  /-- R8: CHAIN, a build parameter -/
  chain : List Nat
  /-- R2, R20: the unit slots; their number is NUNITS (R4) -/
  units : List Slot
  /-- R10, R37: the command ports; their number is NPORTS -/
  ports : List Port
  /-- the response words of the command in progress, none between commands (R17, R46, R109) -/
  resp : Option Response
  /-- the model's own: NaN draws used so far (log entry 4) -/
  draws : Nat
  /-- the model's own: commands the arbiter has taken so far (log entry 8) -/
  taken : Nat
  /-- R119: what the run has done, oldest first (log entry 10) -/
  trace : List Completed
  deriving DecidableEq, Repr

/-- The configuration record the state carries (R3 to R10). -/
def State.build (s : State) : Build where
  sfmt := s.sfmt
  units := s.units.map Slot.cfg
  chain := s.chain
  nports := s.ports.length

/-- R109: the block of build `b` at the end of power-on reset. -/
def State.powerOn (b : Build) : State where
  sfmt := b.sfmt
  chain := b.chain
  units := b.units.map (powerOnSlot b.sfmt)
  ports := List.replicate b.nports { queue := [], since := 0 }
  resp := none
  draws := 0
  taken := 0
  trace := []

/-- R109: the block right after power-on reset, for the build `Config.defaultBuild` (log entry 1). -/
def State.reset : State := State.powerOn Config.defaultBuild

end Machine

end Sys2Proof
end

