-- ==== Sys2Proof/Machine/Ops.lean ====
section
/-! DEFINITION. The named operations over slots, units, responses and ports: memory access (spec/20_memory.md R32),
the ring buffer's helpers (spec/40_ring_buffer.md R59 to R61), `respond` and `raise` (spec/00_scope.md R15) and the
arbiter (spec/20_memory.md R37). -/

namespace Sys2Proof

namespace Machine

/-- The result of an operation that may stop. -/
abbrev Res (α : Type) := Host.Outcome α Fault Refusal

/-- Go on with the value of an operation, or stop as it stopped. -/
def andThen {α β : Type} (o : Res α) (k : α → Res β) : Res β :=
  match o with
  | .next a => k a
  | .fault e => .fault e
  | .refused r => .refused r

/-- What slot `i` reads as: its entry, or `+0` where none is listed (R30; log entry 3). -/
def cellsRead (i : Nat) : Cells → Sample
  | [] => 0#64
  | (j, v) :: rest => if i = j then v else cellsRead i rest

/-- Replace slot `i` by `v`, keeping the canonical form. -/
def cellsWrite (i : Nat) (v : Sample) : Cells → Cells
  | [] => if v = 0#64 then [] else [(i, v)]
  | (j, w) :: rest =>
    if i = j then (if v = 0#64 then rest else (i, v) :: rest)
    else if i < j then (if v = 0#64 then (j, w) :: rest else (i, v) :: (j, w) :: rest)
    else (j, w) :: cellsWrite i v rest

/-- The canonical form: indices strictly rising from `lo`, below `cap`, and no entry that reads as an unlisted one. -/
def cellsWf (cap : Nat) : Nat → Cells → Bool
  | _, [] => true
  | lo, (i, v) :: rest => lo ≤ i && i < cap && v != 0#64 && cellsWf cap (i + 1) rest

/-- The block's memory (R28: the ring buffers of all units) is in canonical form. -/
def Memory.wf (s : State) : Bool :=
  s.units.all fun sl =>
    match sl with
    | .ring r => cellsWf r.cap 0 r.buf
    | .delay d => cellsWf d.rb.cap 0 d.rb.buf
    | .biquad _ => true
    | .svf _ => true

/-- `MemRead(u, i, 1)` (R15, R32). -/
def memRead (r : RingBuf) (i : Nat) : Res Sample :=
  if i < r.cap then .next (cellsRead i r.buf) else .fault .slotBeyondCapacity

/-- `MemWrite(u, i, 1, v)` (R15, R32). -/
def memWrite (r : RingBuf) (i : Nat) (v : Sample) : Res RingBuf :=
  if i < r.cap then .next { r with buf := cellsWrite i v r.buf } else .fault .slotBeyondCapacity

/-- R60: `slot(u, off) = (CUR - 1 - off) mod C`, on whole numbers (R13, log entry 5). -/
def slotOf (r : RingBuf) (off : Nat) : Nat := (((r.cur.toNat : Int) - 1 - (off : Int)) % (r.cap : Int)).toNat

/-- R59, R60: `ReadAt(u, off)`, defined only below the capacity. -/
def readAt (r : RingBuf) (off : Nat) : Res Sample :=
  if off < r.cap then memRead r (slotOf r off) else .fault .slotBeyondCapacity

/-- R61: `WriteAdv(u, v)`, a store at the cursor, which then advances by one modulo the capacity. -/
def writeAdv (r : RingBuf) (v : Sample) : Res RingBuf :=
  andThen (memWrite r r.cur.toNat v) fun r' =>
    .next { r' with cur := BitVec.ofNat 32 ((r.cur.toNat + 1) % r.cap) }

/-- R93: every slot `+0` and `CUR = 0` (log entry 15: all slots at once). -/
def RingBuf.clear (r : RingBuf) : RingBuf := { r with buf := [], cur := 0 }

/-- The ring buffer of a RING or DELAY unit (R32). -/
def Slot.ringBuf : Slot → Option RingBuf
  | .ring r => some r
  | .delay d => some d.rb
  | .biquad _ => none
  | .svf _ => none

/-- The slot with its ring buffer replaced, the other registers kept. -/
def Slot.withRingBuf (r : RingBuf) : Slot → Slot
  | .ring _ => .ring r
  | .delay d => .delay { d with rb := r }
  | .biquad b => .biquad b
  | .svf v => .svf v

/-- Replace unit `u`. -/
def State.setUnit (s : State) (u : BitVec 8) (sl : Slot) : State := { s with units := s.units.set u.toNat sl }

/-- R15: `respond()`, status OK and `DATA = 0`. -/
def State.respond (s : State) : State := { s with resp := some { status := .ok, data := 0 } }

/-- R15, R31: `respond(v)`, status OK and `DATA = zext_64(v)`. -/
def State.respondSample (s : State) (v : Sample) : State :=
  { s with resp := some { status := .ok, data := lowBits s.sfmt v } }

/-- R15, R98, R99: `raise E`, the one shared form of taking an error: the status, `DATA = 0`, and nothing else changes. -/
def State.raise (s : State) (e : Status) : State := { s with resp := some { status := e, data := 0 } }

/-- R37: an agent issues a command at port `p`; it waits behind the port's earlier ones. An input, not a step. -/
def State.issue (s : State) (p : Nat) (c : Command) : State :=
  { s with ports := s.ports.modify p fun q => { q with queue := q.queue ++ [c] } }

/-- Put a command first in port `p`'s queue (for `withFetchWord`). -/
def State.issueFirst (s : State) (p : Nat) (c : Command) : State :=
  { s with ports := s.ports.modify p fun q => { q with queue := c :: q.queue } }

/-- DESIGN CHOICE (log entry 8): the arbitration count by which port number `i` ranks. -/
def ticket (i : Nat) (p : Port) : Nat := p.since + Config.arbiterDelay i p.since

/-- The pending port with the least ticket, the lower number on a tie, among ports numbered from `i` on, with that
ticket. Where one port alone is pending no ticket is compared. -/
def pickPort (i : Nat) : List Port → Option (Nat × Nat)
  | [] => none
  | p :: ps =>
    if p.queue.isEmpty then pickPort (i + 1) ps
    else
      match pickPort (i + 1) ps with
      | none => some (i, ticket i p)
      | some (j, tj) => if ticket i p ≤ tj then some (i, ticket i p) else some (j, tj)

/-- R37: the port whose command the arbiter takes next, none when the block is quiescent (R119). -/
def State.nextPort (s : State) : Option Nat := (pickPort 0 s.ports).map Prod.fst

/-- The oldest pending command of port `p`. -/
def State.pendingAt (s : State) (p : Nat) : Option Command := (s.ports[p]?).bind fun q => q.queue.head?

/-- R37: the arbiter takes port `p`'s oldest command. -/
def State.take (s : State) (p : Nat) : State :=
  { s with
    ports := s.ports.modify p fun q => { queue := q.queue.tail, since := s.taken + 1 }
    taken := s.taken + 1 }

/-- R37, R97: the response of command `c` goes to port `p`, which issued it; no response is outstanding any more. -/
def State.deliver (s : State) (p : Nat) (c : Command) : State :=
  match s.resp with
  | some r => { s with resp := none, trace := s.trace ++ [{ port := p, cmd := c, resp := r }] }
  | none => s

end Machine

end Sys2Proof
end

