-- ==== Sys2Proof/Machine/Operands.lean ====
section
/-! DEFINITION. The operand forms of spec/30_encoding.md R50: `S(ARGn)`, `N(ARGn)` and `D(ARGn)`. -/

namespace Sys2Proof

namespace Machine

/-- R31, R50: `S(ARGn)`, the low `w` bits of the word, bit for bit; the bits above are ignored. -/
def argSample (s : State) (x : Word) : Sample := lowBits s.sfmt x

/-- R50: `N(ARGn)`, the whole word as an unsigned number. -/
def argNat (x : Word) : Nat := x.toNat

/-- R50: `D(ARGn)`, the whole word as a binary64 value, whatever SFMT is. -/
def argDouble (x : Word) : Word := x

end Machine

end Sys2Proof
end

