-- ==== Sys2Proof/Machine/DelayLine.lean ====
section
/-! DEFINITION. The delay line (spec/41_delay_line.md): the tick of a DELAY unit, SET_DELAY and LAST_OUT. -/

namespace Sys2Proof

namespace Machine

/-- R69: `Interp(a, b, f) = ((1 ⊖ f) ⊗ a) ⊕ (f ⊗ b)`; the four operations have draw numbers `n` to `n+3`. -/
def interp (f : Sfmt) (n : Nat) (a b frac : Sample) : Sample :=
  fpAdd f (n + 3) (fpMul f (n + 1) (fpSub f n (one f) frac) a) (fpMul f (n + 2) frac b)

/-- R68, R70: the output of a DELAY tick, read after the write: a bit copy of tap `DLY_INT` when `DLY_FRAC` is zero,
else the interpolation of taps `DLY_INT` and `DLY_INT + 1`. -/
def delayOutput (f : Sfmt) (n : Nat) (r : RingBuf) (k : Nat) (frac : Sample) : Res Sample :=
  andThen (readAt r k) fun a =>
    if isZero f frac then .next a
    else andThen (readAt r (k + 1)) fun b => .next (interp f n a b frac)

/-- R68: `DelayTick(u, x)`, write then read. -/
def delayTick (f : Sfmt) (n : Nat) (d : DelayUnit) (x : Sample) : Res (DelayUnit × Sample) :=
  andThen (writeAdv d.rb x) fun r =>
    andThen (delayOutput f n r d.dlyInt.toNat d.dlyFrac) fun y =>
      .next ({ d with rb := r, lastOut := y }, y)

/-- R67: SET_DELAY, InvalidParameter outside R65, else both parts of the length. -/
def execSetDelay (u : BitVec 8) (d : Word) (s : State) : Res State :=
  match s.units[u.toNat]? with
  | some (.delay dl) =>
    if delayValid s.sfmt dl.rb.cap (argSample s d) then
      .next (s.setUnit u (.delay { dl with dlyInt := delayInt s.sfmt (argSample s d),
                                           dlyFrac := delayFrac s.sfmt (argSample s d) })).respond
    else .next (s.raise .invalidParameter)
  | some (.ring _) => .next (s.raise .illegalCommand)
  | some (.biquad _) => .next (s.raise .illegalCommand)
  | some (.svf _) => .next (s.raise .illegalCommand)
  | none => .next (s.raise .illegalCommand)

/-- R71: LAST_OUT, the register and no change of state. -/
def execLastOut (u : BitVec 8) (s : State) : Res State :=
  match s.units[u.toNat]? with
  | some (.delay dl) => .next (s.respondSample dl.lastOut)
  | some (.ring _) => .next (s.raise .illegalCommand)
  | some (.biquad _) => .next (s.raise .illegalCommand)
  | some (.svf _) => .next (s.raise .illegalCommand)
  | none => .next (s.raise .illegalCommand)

end Machine

end Sys2Proof
end

