-- ==== Sys2Proof/Machine/Filters.lean ====
section
/-! DEFINITION. The filters (spec/42_filters.md): coefficient loading, design parameters, mode, and the ticks of BIQUAD
and SVF units. -/

namespace Sys2Proof

namespace Machine

/-- R52, R74: the biquad shadow bank with coefficient `sel` replaced, none for an illegal SEL. -/
def stageBq (c : BqCoeffs) (sel : BitVec 4) (v : Sample) : Option BqCoeffs :=
  match sel.toNat with
  | 0 => some { c with b0 := v }
  | 1 => some { c with b1 := v }
  | 2 => some { c with b2 := v }
  | 3 => some { c with a1 := v }
  | 4 => some { c with a2 := v }
  | _ => none

/-- R52, R74: the state-variable shadow pair with coefficient `sel` replaced, none for an illegal SEL. -/
def stageSvf (c : SvfCoeffs) (sel : BitVec 4) (v : Sample) : Option SvfCoeffs :=
  match sel.toNat with
  | 0 => some { c with f := v }
  | 1 => some { c with damp := v }
  | _ => none

/-- R74: STAGE_COEFF, one coefficient of the shadow bank. -/
def execStageCoeff (u : BitVec 8) (sel : BitVec 4) (v : Word) (s : State) : Res State :=
  match s.units[u.toNat]? with
  | some (.biquad b) =>
    match stageBq b.shadow sel (argSample s v) with
    | some c => .next (s.setUnit u (.biquad { b with shadow := c })).respond
    | none => .next (s.raise .illegalCommand)
  | some (.svf w) =>
    match stageSvf w.shadow sel (argSample s v) with
    | some c => .next (s.setUnit u (.svf { w with shadow := c })).respond
    | none => .next (s.raise .illegalCommand)
  | some (.ring _) => .next (s.raise .illegalCommand)
  | some (.delay _) => .next (s.raise .illegalCommand)
  | none => .next (s.raise .illegalCommand)

/-- R75: COMMIT, the whole shadow bank into the active bank. -/
def execCommit (u : BitVec 8) (s : State) : Res State :=
  match s.units[u.toNat]? with
  | some (.biquad b) => .next (s.setUnit u (.biquad { b with active := b.shadow })).respond
  | some (.svf v) => .next (s.setUnit u (.svf { v with active := v.shadow })).respond
  | some (.ring _) => .next (s.raise .illegalCommand)
  | some (.delay _) => .next (s.raise .illegalCommand)
  | none => .next (s.raise .illegalCommand)

/-- R77, R81: the coefficients of a biquad design rounded to the sample format, each once. -/
def roundBq (f : Sfmt) (kind : BitVec 4) (fc q fs : Word) (r : BqCoeffs) : BqCoeffs where
  b0 := roundS f (Config.designBqNaN kind fc q fs 0) r.b0
  b1 := roundS f (Config.designBqNaN kind fc q fs 1) r.b1
  b2 := roundS f (Config.designBqNaN kind fc q fs 2) r.b2
  a1 := roundS f (Config.designBqNaN kind fc q fs 3) r.a1
  a2 := roundS f (Config.designBqNaN kind fc q fs 4) r.a2

/-- R78, R81: the coefficients of a state-variable filter design rounded to the sample format. -/
def roundSvf (f : Sfmt) (fc q fs : Word) (r : SvfCoeffs) : SvfCoeffs where
  f := roundS f (Config.designSvfNaN fc q fs 0) r.f
  damp := roundS f (Config.designSvfNaN fc q fs 1) r.damp

/-- R77, R79: SET_PARAMS on a BIQUAD unit: the domain check, the design, and both banks at once. -/
def setParamsBiquad (u : BitVec 8) (kind : BitVec 4) (fc q : Word) (b : BiquadUnit) (s : State) : State :=
  if paramsValid b.fs fc q then
    match Config.designBq kind fc q b.fs with
    | some r =>
      (s.setUnit u (.biquad { b with active := roundBq s.sfmt kind fc q b.fs r,
                                     shadow := roundBq s.sfmt kind fc q b.fs r })).respond
    | none => s.raise .invalidParameter
  else s.raise .invalidParameter

/-- R78, R79: SET_PARAMS on an SVF unit. -/
def setParamsSvf (u : BitVec 8) (fc q : Word) (v : SvfUnit) (s : State) : State :=
  if paramsValid v.fs fc q then
    (s.setUnit u (.svf { v with active := roundSvf s.sfmt fc q v.fs (Config.designSvf fc q v.fs),
                                shadow := roundSvf s.sfmt fc q v.fs (Config.designSvf fc q v.fs) })).respond
  else s.raise .invalidParameter

/-- R77, R78: SET_PARAMS; on an SVF unit SEL must be 0 (R52). -/
def execSetParams (u : BitVec 8) (sel : BitVec 4) (fc q : Word) (s : State) : Res State :=
  match s.units[u.toNat]? with
  | some (.biquad b) => .next (setParamsBiquad u sel (argDouble fc) (argDouble q) b s)
  | some (.svf v) =>
    if sel = 0 then .next (setParamsSvf u (argDouble fc) (argDouble q) v s) else .next (s.raise .illegalCommand)
  | some (.ring _) => .next (s.raise .illegalCommand)
  | some (.delay _) => .next (s.raise .illegalCommand)
  | none => .next (s.raise .illegalCommand)

/-- R83: SET_MODE, IllegalCommand for a SEL above 3. -/
def execSetMode (u : BitVec 8) (sel : BitVec 4) (s : State) : Res State :=
  match s.units[u.toNat]? with
  | some (.svf v) =>
    if sel.toNat ≤ 3 then .next (s.setUnit u (.svf { v with mode := BitVec.ofNat 2 sel.toNat })).respond
    else .next (s.raise .illegalCommand)
  | some (.ring _) => .next (s.raise .illegalCommand)
  | some (.delay _) => .next (s.raise .illegalCommand)
  | some (.biquad _) => .next (s.raise .illegalCommand)
  | none => .next (s.raise .illegalCommand)

/-- R85: the biquad difference equation, left to right, each operation rounded once; the nine operations have draw
numbers `n` to `n+8`. -/
def bqEval (f : Sfmt) (n : Nat) (b : BiquadUnit) (x : Sample) : Sample :=
  let t0 := fpMul f n b.active.b0 x
  let t1 := fpAdd f (n + 2) t0 (fpMul f (n + 1) b.active.b1 b.x1)
  let t2 := fpAdd f (n + 4) t1 (fpMul f (n + 3) b.active.b2 b.x2)
  let t3 := fpSub f (n + 6) t2 (fpMul f (n + 5) b.active.a1 b.y1)
  fpSub f (n + 8) t3 (fpMul f (n + 7) b.active.a2 b.y2)

/-- R84: `BiquadTick(u, x)`, the output from the state before the tick, then the shift of the state registers. -/
def biquadTick (f : Sfmt) (n : Nat) (b : BiquadUnit) (x : Sample) : BiquadUnit × Sample :=
  ({ b with x2 := b.x1, x1 := x, y2 := b.y1, y1 := bqEval f n b x }, bqEval f n b x)

/-- R86: the four signals of one Chamberlin step; the eight operations have draw numbers `n` to `n+7`. -/
structure SvfSignals where
  low : Sample
  high : Sample
  band : Sample
  notch : Sample
  deriving DecidableEq, Repr

/-- R86: `low`, then `high`, then `band` from the new `high` and the old `BAND`, then `notch`. -/
def svfEval (f : Sfmt) (n : Nat) (v : SvfUnit) (x : Sample) : SvfSignals :=
  let low := fpAdd f (n + 1) v.low (fpMul f n v.active.f v.band)
  let high := fpSub f (n + 4) (fpSub f (n + 2) x low) (fpMul f (n + 3) v.active.damp v.band)
  let band := fpAdd f (n + 6) (fpMul f (n + 5) v.active.f high) v.band
  { low := low, high := high, band := band, notch := fpAdd f (n + 7) high low }

/-- R87: `Select(MODE, low, high, band, notch)`. -/
def svfSelect (mode : BitVec 2) (g : SvfSignals) : Sample :=
  match mode.toNat with
  | 0 => g.low
  | 1 => g.high
  | 2 => g.band
  | _ => g.notch

/-- R86: `SvfTick(u, x)`. -/
def svfTick (f : Sfmt) (n : Nat) (v : SvfUnit) (x : Sample) : SvfUnit × Sample :=
  ({ v with low := (svfEval f n v x).low, band := (svfEval f n v x).band }, svfSelect v.mode (svfEval f n v x))

end Machine

end Sys2Proof
end

