-- ==== Sys2Proof/Machine/RingBuffer.lean ====
section
/-! DEFINITION. RB_WRITE and RB_READ_AT (spec/40_ring_buffer.md R62, R63). -/

namespace Sys2Proof

namespace Machine

/-- R62: RB_WRITE, `WriteAdv` on the unit's ring buffer. IllegalCommand where the unit does not exist or has none
(R49, R56). -/
def execRbWrite (u : BitVec 8) (v : Word) (s : State) : Res State :=
  match s.units[u.toNat]? with
  | some sl =>
    match sl.ringBuf with
    | some r => andThen (writeAdv r (argSample s v)) fun r' => .next (s.setUnit u (sl.withRingBuf r')).respond
    | none => .next (s.raise .illegalCommand)
  | none => .next (s.raise .illegalCommand)

/-- R63: RB_READ_AT, OutOfRange from the capacity on, else the sample that many writes back. -/
def execRbReadAt (u : BitVec 8) (off : Word) (s : State) : Res State :=
  match s.units[u.toNat]? with
  | some sl =>
    match sl.ringBuf with
    | some r =>
      if r.cap ≤ argNat off then .next (s.raise .outOfRange)
      else andThen (readAt r (argNat off)) fun v => .next (s.respondSample v)
    | none => .next (s.raise .illegalCommand)
  | none => .next (s.raise .illegalCommand)

end Machine

end Sys2Proof
end

