-- ==== Sys2Proof/Machine/Pipeline.lean ====
section
/-! DEFINITION. The tick contract, the chain and reset (spec/43_pipeline.md): NOP, TICK, CHAIN_TICK, RESET, RESET_ALL. -/

namespace Sys2Proof

namespace Machine

/-- R89: NOP. -/
def execNop (s : State) : Res State := .next s.respond

/-- R91: `UnitTick(u, x)` on the slot. A RING unit has no tick; only the chain of an invalid build asks for one (R11). -/
def slotTick (f : Sfmt) (n : Nat) (sl : Slot) (x : Sample) : Res (Slot × Sample) :=
  match sl with
  | .ring _ => .refused .invalidBuild
  | .delay d => andThen (delayTick f n d x) fun r => .next (.delay r.1, r.2)
  | .biquad b => .next (.biquad (biquadTick f n b x).1, (biquadTick f n b x).2)
  | .svf v => .next (.svf (svfTick f n v x).1, (svfTick f n v x).2)

/-- How many draw numbers one tick of the slot sets aside, one for each arithmetic operation of R69, R85 or R86
(log entry 4). -/
def tickDraws : Slot → Nat
  | .ring _ => 0
  | .delay _ => 4
  | .biquad _ => 9
  | .svf _ => 8

/-- R91: `UnitTick(u, x)` on unit `u` of the block. -/
def State.tickUnit (s : State) (u : Nat) (x : Sample) : Res (State × Sample) :=
  match s.units[u]? with
  | some sl =>
    andThen (slotTick s.sfmt s.draws sl x) fun r =>
      .next ({ s with units := s.units.set u r.1, draws := s.draws + tickDraws sl }, r.2)
  | none => .refused .invalidBuild

/-- R91: TICK; IllegalCommand on a RING unit or a unit that does not exist (R49, R53). -/
def execTick (u : BitVec 8) (x : Word) (s : State) : Res State :=
  match (s.units[u.toNat]?).map Slot.kind with
  | some .ring => .next (s.raise .illegalCommand)
  | some .delay | some .biquad | some .svf =>
    andThen (s.tickUnit u.toNat (argSample s x)) fun r => .next (r.1.respondSample r.2)
  | none => .next (s.raise .illegalCommand)

/-- R92: the loop over the chain; the output of one stage is the input of the next, bit for bit. -/
def chainTicks : List Nat → State → Sample → Res (State × Sample)
  | [], s, v => .next (s, v)
  | c :: cs, s, v => andThen (s.tickUnit c v) fun r => chainTicks cs r.1 r.2

/-- R92: CHAIN_TICK. -/
def execChainTick (x : Word) (s : State) : Res State :=
  andThen (chainTicks s.chain s (argSample s x)) fun r => .next (r.1.respondSample r.2)

/-- R93: `ResetUnit(u)`: the running state to zero, the configuration kept. -/
def resetSlot : Slot → Slot
  | .ring r => .ring r.clear
  | .delay d => .delay { d with rb := d.rb.clear, lastOut := 0 }
  | .biquad b => .biquad { b with x1 := 0, x2 := 0, y1 := 0, y2 := 0 }
  | .svf v => .svf { v with low := 0, band := 0 }

/-- R93: RESET. -/
def execReset (u : BitVec 8) (s : State) : Res State :=
  match s.units[u.toNat]? with
  | some sl => .next (s.setUnit u (resetSlot sl)).respond
  | none => .next (s.raise .illegalCommand)

/-- R94: RESET_ALL, every unit in one step. -/
def execResetAll (s : State) : Res State := .next { s with units := s.units.map resetSlot }.respond

end Machine

end Sys2Proof
end

