-- ==== Sys2Proof/Machine/Dispatch.lean ====
section
/-! DEFINITION. One arm for each command of spec/30_encoding.md R53. -/

namespace Sys2Proof.Machine

def exec (i : Instr) (s : State) : Host.Outcome State Fault Refusal :=
  match i with
  | .nop => Sys2Proof.Machine.execNop s
  | .tick u x => Sys2Proof.Machine.execTick u x s
  | .chainTick x => Sys2Proof.Machine.execChainTick x s
  | .lastOut u => Sys2Proof.Machine.execLastOut u s
  | .rbWrite u v => Sys2Proof.Machine.execRbWrite u v s
  | .rbReadAt u off => Sys2Proof.Machine.execRbReadAt u off s
  | .setDelay u d => Sys2Proof.Machine.execSetDelay u d s
  | .stageCoeff u sel v => Sys2Proof.Machine.execStageCoeff u sel v s
  | .commit u => Sys2Proof.Machine.execCommit u s
  | .setParams u sel fc q => Sys2Proof.Machine.execSetParams u sel fc q s
  | .setMode u sel => Sys2Proof.Machine.execSetMode u sel s
  | .reset u => Sys2Proof.Machine.execReset u s
  | .resetAll => Sys2Proof.Machine.execResetAll s

end Sys2Proof.Machine
end

