-- ==== Sys2Proof/Machine/Engine.lean ====
section
/-! DEFINITION. The command engine (spec/30_encoding.md R56; spec/20_memory.md R34, R37): a command word is checked and
run, the arbiter serves a port, and a command is placed for the next step. -/

namespace Sys2Proof

namespace Machine

/-- R56: the checks on the command word, then the command's own rule. A word that decodes to nothing is IllegalCommand
and changes no state (R48, R49, R52, R54). -/
def runCommand (c : Command) (s : State) : Res State :=
  match decode c with
  | .ok i => exec i s
  | .error _ => .next (s.raise .illegalCommand)

/-- R37: take port `p`'s oldest command, run it to completion, deliver its response. -/
def serve (p : Nat) (c : Command) (s : State) : Res State :=
  andThen (runCommand c (s.take p)) fun t => .next (t.deliver p c)

/-- One turn of the engine. A build that breaks R3 to R10 has no run (R11, log entry 12). With no command pending the
block is idle and idleness loses no state (R108, R119, log entry 9). -/
def engineTurn (s : State) : Res State :=
  if buildValid s.build then
    match s.nextPort with
    | none => .next s
    | some p =>
      match s.pendingAt p with
      | none => .next s
      | some c => serve p c s
  else .refused .invalidBuild

/-- The transaction `c` first in the queue of the port the arbiter takes next, port 0 where none is pending, so that the
next turn runs it (log entry 9). -/
def State.placeNext (s : State) (c : Command) : State := s.issueFirst (s.nextPort.getD 0) c

end Machine

end Sys2Proof
end

