-- ==== Sys2Proof/Machine/Step.lean ====
section
/-! DEFINITION. One step of the block (spec/00_scope.md R12) and the placing of a command word for it. -/

namespace Sys2Proof

namespace Machine

/-- R12, R34: one step runs one command, taken by the arbiter, as one indivisible step. -/
def step (s : State) : Host.Outcome State Fault Refusal := engineTurn s

/-- The state whose next step runs the transaction with these bits (log entry 9). -/
def State.withFetchWord (s : State) (nbits w : Nat) : State := s.placeNext (commandOfBits nbits w)

end Machine

end Sys2Proof
end

