-- ==== Sys2Proof/Machine/Asm.lean ====
section
/-! DEFINITION. The notation of spec/30_encoding.md R57 and R58: an instruction and a response written as a line of the
assembler, and the pseudo-commands as the commands they expand to
(log entry 18). -/

namespace Sys2Proof

namespace Machine

/-- R57: the lower-case mnemonic. -/
def asmName : Instr → String
  | .nop => "nop"
  | .tick _ _ => "tick"
  | .chainTick _ => "chain_tick"
  | .lastOut _ => "last_out"
  | .rbWrite _ _ => "rb_write"
  | .rbReadAt _ _ => "rb_read_at"
  | .setDelay _ _ => "set_delay"
  | .stageCoeff _ _ _ => "stage"
  | .commit _ => "commit"
  | .setParams _ _ _ _ => "set_params"
  | .setMode _ _ => "set_mode"
  | .reset _ => "reset"
  | .resetAll => "reset_all"

/-- R57: the name of a SEL value, by the kind of the unit, where it has one. -/
def asmSel (k : Kind) : Instr → Option String
  | .stageCoeff _ sel _ =>
    match k with
    | .biquad => ["b0", "b1", "b2", "a1", "a2"][sel.toNat]?
    | .svf => ["f", "damp"][sel.toNat]?
    | .ring | .delay => none
  | .setParams _ sel _ _ =>
    match k with
    | .biquad => some ("k" ++ toString sel.toNat)
    | .svf | .ring | .delay => none
  | .setMode _ sel => ["lp", "hp", "bp", "notch"][sel.toNat]?
  | .nop | .tick _ _ | .chainTick _ | .lastOut _ | .rbWrite _ _ | .rbReadAt _ _ | .setDelay _ _ | .commit _
  | .reset _ | .resetAll => none

/-- `digits` hexadecimal digits of `v`, the last ones. -/
def hexText : Nat → Nat → String
  | 0, _ => ""
  | digits + 1, v => hexText digits (v / 16) ++ toString (Char.ofNat (if v % 16 < 10 then 48 + v % 16 else 55 + v % 16))

/-- R57: a sample as a bit pattern, `0x` and `w/4` hex digits. -/
def asmSample (f : Sfmt) (x : Word) : String := "0x" ++ hexText (f.width / 4) x.toNat

/-- The decimal digits of `num / 2^k` below the point, as many as it has, at least one and at most `fuel`. -/
def fractionText (k : Nat) : Nat → Nat → String
  | 0, _ => ""
  | fuel + 1, num =>
    toString (num * 10 / 2 ^ k) ++ (if num * 10 % 2 ^ k = 0 then "" else fractionText k fuel (num * 10 % 2 ^ k))

/-- R57: a design parameter as a decimal literal, the exact value of a finite binary64 word. The words that are no
literal are written as in T20. -/
def asmDouble (x : Word) : String :=
  if isNaN .binary64 x then "NaN"
  else (if signBit .binary64 x then "-" else if isInf .binary64 x then "+" else "") ++
    (if isInf .binary64 x then "inf"
     else toString (magUnits .binary64 (magBits .binary64 x) / 2 ^ Sfmt.unitExp .binary64) ++ "." ++
       fractionText (Sfmt.unitExp .binary64) (Sfmt.unitExp .binary64)
         (magUnits .binary64 (magBits .binary64 x) % 2 ^ Sfmt.unitExp .binary64))

/-- R57: the operands of an instruction. -/
def asmOperands (f : Sfmt) : Instr → List String
  | .tick _ x | .chainTick x | .rbWrite _ x | .setDelay _ x | .stageCoeff _ _ x => [asmSample f x]
  | .rbReadAt _ off => [toString off.toNat]
  | .setParams _ _ fc q => [asmDouble fc, asmDouble q]
  | .nop | .lastOut _ | .commit _ | .setMode _ _ | .reset _ | .resetAll => []

/-- R57: `u<N>[.<sel>]`, nothing for an opcode that names no unit; a SEL without a name is a decimal number and is
omitted when 0. -/
def asmUnit (kinds : List Kind) (i : Instr) : List String :=
  match i with
  | .nop | .chainTick _ | .resetAll => []
  | .tick u _ | .lastOut u | .rbWrite u _ | .rbReadAt u _ | .setDelay u _ | .stageCoeff u _ _ | .commit u
  | .setParams u _ _ _ | .setMode u _ | .reset u =>
    ["u" ++ toString u.toNat ++
      match (kinds[u.toNat]?).bind (asmSel · i) with
      | some name => "." ++ name
      | none => if i.sel.toNat = 0 then "" else "." ++ toString i.sel.toNat]

/-- R57: the line of an instruction, `mnemonic [u<N>[.<sel>]][, operand]*`. -/
def asmLine (f : Sfmt) (kinds : List Kind) (i : Instr) : String :=
  match asmUnit kinds i ++ asmOperands f i with
  | [] => asmName i
  | ops => asmName i ++ " " ++ String.intercalate ", " ops

/-- R57, R99: the response recorded after a line. -/
def asmResponse (f : Sfmt) (r : Response) : String :=
  "; -> " ++
    (match r.status with
      | .ok => "OK"
      | .invalidParameter => "InvalidParameter"
      | .outOfRange => "OutOfRange"
      | .illegalCommand => "IllegalCommand") ++ ", " ++ asmSample f r.data

/-- R58: `set_coeffs u<N>, b0, b1, b2, a1, a2`. -/
def setCoeffs (u : BitVec 8) (b0 b1 b2 a1 a2 : Word) : List Instr :=
  [.stageCoeff u 0 b0, .stageCoeff u 1 b1, .stageCoeff u 2 b2, .stageCoeff u 3 a1, .stageCoeff u 4 a2, .commit u]

/-- R58: `set_svf u<N>, f, damp`. -/
def setSvf (u : BitVec 8) (f damp : Word) : List Instr := [.stageCoeff u 0 f, .stageCoeff u 1 damp, .commit u]

/-- R58: `read_newest u<N>`. -/
def readNewest (u : BitVec 8) : List Instr := [.rbReadAt u 0]

/-- R58: `read_oldest u<N>`, with `cap` the capacity of the unit. -/
def readOldest (u : BitVec 8) (cap : Nat) : List Instr := [.rbReadAt u (BitVec.ofNat 64 (cap - 1))]

end Machine

end Sys2Proof
end

