-- ==== Sys2Proof/Machine/Flags.lean ====
section
/-! DEFINITION. The block has no flags, condition codes or sticky bits (spec/10_state.md R19). The one condition a
command produces is the 2-bit STATUS of its response (spec/30_encoding.md R51). -/

namespace Sys2Proof

namespace Machine

/-- R51: `0` OK, `1` InvalidParameter, `2` OutOfRange, `3` IllegalCommand. -/
def Status.code : Status → BitVec 2
  | .ok => 0
  | .invalidParameter => 1
  | .outOfRange => 2
  | .illegalCommand => 3

/-- R46, R51: the STATUS word of a response. -/
def Response.statusWord (r : Response) : BitVec 2 := r.status.code

end Machine

end Sys2Proof
end

