-- ==== Sys2Proof/Safety.lean ====
section
/-! DEFINITION. What counts as a sound state and a safe run: the registers hold legal values (the "legal values" columns
of spec/10_state.md R21, R22, R24, R25, and R23), the build is valid (spec/00_scope.md R11), no response is outstanding
between steps (R109), and the arbiter's counts are those of its past. -/

namespace Sys2Proof

namespace Machine

/-- R21, R32: a ring buffer holds samples of the format at slots below its capacity, and `0 <= CUR <= C-1`. -/
def ringOk (f : Sfmt) (r : RingBuf) : Bool :=
  capValid r.cap && cellsWf r.cap 0 r.buf && r.buf.all (fun c => fits f c.2) && r.cur.toNat < r.cap

/-- R22, R23: `DLY_FRAC` is finite, `0 <= value < 1`, never `-0`. -/
def fracOk (f : Sfmt) (x : Sample) : Bool :=
  fits f x && isFinite f x && !signBit f x && magUnits f (magBits f x) < unitsPerOne f

/-- R22, R23: a DELAY unit; `DLY_INT + (1 if DLY_FRAC != 0 else 0) <= C-1`. -/
def delayOk (f : Sfmt) (d : DelayUnit) : Bool :=
  ringOk f d.rb && fracOk f d.dlyFrac && d.dlyInt.toNat + (if isZero f d.dlyFrac then 0 else 1) < d.rb.cap &&
    fits f d.lastOut

/-- R24: a BIQUAD unit holds samples of the format. -/
def biquadOk (f : Sfmt) (b : BiquadUnit) : Bool :=
  bqFits f b.active && bqFits f b.shadow && fits f b.x1 && fits f b.x2 && fits f b.y1 && fits f b.y2

/-- R25: an SVF unit holds samples of the format. -/
def svfOk (f : Sfmt) (v : SvfUnit) : Bool :=
  svfFits f v.active && svfFits f v.shadow && fits f v.low && fits f v.band

/-- The registers of a slot hold legal values. -/
def slotOk (f : Sfmt) : Slot → Bool
  | .ring r => ringOk f r
  | .delay d => delayOk f d
  | .biquad b => biquadOk f b
  | .svf v => svfOk f v

/-- What holds before, during and after every command of a valid build. -/
abbrev State.Ok (s : State) : Prop :=
  buildValid s.build = true ∧ s.units.all (slotOk s.sfmt) = true ∧
    s.ports.all (fun p => decide (p.since ≤ s.taken)) = true

/-- The invariant between steps: `Ok`, and no response is outstanding. -/
abbrev State.Inv (s : State) : Prop := s.Ok ∧ s.resp = none

/-- A safe outcome: the machine goes on. -/
abbrev Goes (o : Res State) : Prop := ∃ t, o = .next t

/-- The kinds of the build's units, `KIND[0 .. NUNITS-1]`. -/
def State.kinds (s : State) : List Kind := s.units.map Slot.kind

/-- All of the block but unit `u`, the response and the draw counter is the same in `s` and `t`; unit `u` may differ. -/
structure SameBut (u : Nat) (s t : State) : Prop where
  sfmt : t.sfmt = s.sfmt
  chain : t.chain = s.chain
  ports : t.ports = s.ports
  taken : t.taken = s.taken
  trace : t.trace = s.trace
  count : t.units.length = s.units.length
  others : ∀ j, j ≠ u → t.units[j]? = s.units[j]?

/-- R37, R38: the commands of port `p` in the order its agent issued them: those that ran, then those that wait. -/
def State.issued (s : State) (p : Nat) : List Command :=
  ((s.trace.filter (fun e => e.port = p)).map Completed.cmd) ++ ((s.ports[p]?).map Port.queue).getD []

/-- R52: the coefficients of a biquad bank in the order of the SEL indices. -/
def bqList (c : BqCoeffs) : List Sample := [c.b0, c.b1, c.b2, c.a1, c.a2]

/-- R52: the coefficients of a state-variable bank in the order of the SEL indices. -/
def svfList (c : SvfCoeffs) : List Sample := [c.f, c.damp]

/-- R27: the slot holds the settings (delay, coefficient banks, mode) its unit has at power-on. -/
def settingsFresh (f : Sfmt) : Slot → Prop
  | .ring _ => True
  | .delay d => d.dlyInt = delayInt f d.initDelay ∧ d.dlyFrac = delayFrac f d.initDelay
  | .biquad b => b.active = b.init ∧ b.shadow = b.init
  | .svf v => v.active = v.init ∧ v.shadow = v.init ∧ v.mode = BitVec.ofNat 2 v.initMode

/-- R27, R90: two slots of one unit have the same build parameters and the same settings. -/
def sameSettings : Slot → Slot → Prop
  | .ring r, .ring r' => r'.cap = r.cap
  | .delay d, .delay d' =>
    d'.rb.cap = d.rb.cap ∧ d'.initDelay = d.initDelay ∧ d'.dlyInt = d.dlyInt ∧ d'.dlyFrac = d.dlyFrac
  | .biquad b, .biquad b' => b'.fs = b.fs ∧ b'.init = b.init ∧ b'.active = b.active ∧ b'.shadow = b.shadow
  | .svf v, .svf v' =>
    v'.fs = v.fs ∧ v'.init = v.init ∧ v'.initMode = v.initMode ∧ v'.active = v.active ∧ v'.shadow = v.shadow ∧
      v'.mode = v.mode
  | _, _ => False

/-- R82: two slots of one unit have the same filter state registers; a RING or DELAY unit has none. -/
def sameRegisters : Slot → Slot → Prop
  | .ring _, .ring _ => True
  | .delay _, .delay _ => True
  | .biquad b, .biquad b' => b'.x1 = b.x1 ∧ b'.x2 = b.x2 ∧ b'.y1 = b.y1 ∧ b'.y2 = b.y2
  | .svf v, .svf v' => v'.low = v.low ∧ v'.band = v.band
  | _, _ => False

/-- R39, R74: two slots of one unit that may differ in the shadow bank only. -/
def sameButShadow : Slot → Slot → Prop
  | .biquad b, .biquad b' => b' = { b with shadow := b'.shadow }
  | .svf v, .svf v' => v' = { v with shadow := v'.shadow }
  | sl, sl' => sl' = sl

/-- R37: agents issue commands, each at a port, in the order of the list. -/
def State.issueAll (s : State) : List (Nat × Command) → State
  | [] => s
  | (p, c) :: rest => (s.issue p c).issueAll rest

/-- `n` rounds of agents issuing commands, `inputs k` in round `k`, and one step after each round's commands. -/
def rounds (inputs : Nat → List (Nat × Command)) : Nat → State → Res State
  | 0, s => .next s
  | n + 1, s => andThen (rounds inputs n s) fun t => step (t.issueAll (inputs n))

/-- Ticks of unit `u` one after the other, as TICK commands with no other command between them: the DATA words and the
state at the end. -/
def tickRun (u : BitVec 8) : List Word → State → Res (List Word × State)
  | [], s => .next ([], s)
  | x :: xs, s =>
    andThen (exec (.tick u x) s) fun t =>
      andThen (tickRun u xs t) fun r => .next (((t.resp.map Response.data).getD 0) :: r.1, r.2)

/-- R95: `tick c0, x; tick c1, y0; ...`, each TICK given the DATA of the one before it. -/
def tickEach : List Nat → Word → State → Res State
  | [], _, s => .next s
  | c :: cs, x, s =>
    andThen (exec (.tick (BitVec.ofNat 8 c) x) s) fun t => tickEach cs ((t.resp.map Response.data).getD 0) t

/-- R64: `WriteAdv` of each sample in turn. -/
def writeAll : List Sample → RingBuf → Res RingBuf
  | [], r => .next r
  | v :: vs, r => andThen (writeAdv r v) (writeAll vs)

end Machine

end Sys2Proof
end

