-- ==== Sys2Proof/Certificates/Slice0/Obligations.lean ====
section
/-! DEFINITION. The statements for the provers. Each docstring names the rule of spec/ it formalises. -/

open Sys2Proof Sys2Proof.Machine

/-! ### Encoding (30_encoding.md) -/

/-- R46, R47, R53: the transaction of every instruction decodes to that instruction, every field and operand at every
value. -/
def Obligations.DecodeOfEncode : Prop := ∀ i : Instr, decode (encode i) = .ok i

/-- R47, R53: an instruction's encoding has the command word it was decoded from: the decoder drops no bit of `CMD`. -/
def Obligations.EncodeOfDecodeKeepsCommandWord : Prop :=
  ∀ (c : Command) (i : Instr), decode c = .ok i → (encode i).cmd = c.cmd

/-- R46, R53, U9: operand words an opcode does not use have no effect on decoding. -/
def Obligations.UnusedOperandWordsAreIgnored : Prop :=
  ∀ (c : Command) (a0 a1 a2 : Word),
    (c.cmd.toNat % 256 ∈ [0x01, 0x02, 0x10, 0x11, 0x18, 0x20, 0x22] → a0 = c.arg0) →
    (c.cmd.toNat % 256 = 0x22 → a1 = c.arg1) →
    decode { cmd := c.cmd, arg0 := a0, arg1 := a1, arg2 := a2 } = decode c

/-- T10, R53: words written out from the spec decode to the commands they stand for. -/
def Obligations.ListedWordsDecode : Prop :=
  decode ⟨0x00000000, 7, 7, 7⟩ = .ok .nop ∧
  decode ⟨0x00000301, 0x3F000000, 0, 0⟩ = .ok (.tick 3 0x3F000000) ∧
  decode ⟨0x00000002, 0x3F800000, 0, 0⟩ = .ok (.chainTick 0x3F800000) ∧
  decode ⟨0x00000003, 0, 0, 0⟩ = .ok (.lastOut 0) ∧
  decode ⟨0x00000010, 0x40000000, 0, 0⟩ = .ok (.rbWrite 0 0x40000000) ∧
  decode ⟨0x00000011, 3, 0, 0⟩ = .ok (.rbReadAt 0 3) ∧
  decode ⟨0x00000018, 0x40800000, 0, 0⟩ = .ok (.setDelay 0 0x40800000) ∧
  decode ⟨0x00030120, 0xBF000000, 0, 0⟩ = .ok (.stageCoeff 1 3 0xBF000000) ∧
  decode ⟨0x00000121, 0, 0, 0⟩ = .ok (.commit 1) ∧
  decode ⟨0x00000222, 0x408F400000000000, 0x3FE6666666666666, 0⟩ =
    .ok (.setParams 2 0 0x408F400000000000 0x3FE6666666666666) ∧
  decode ⟨0x00030223, 0, 0, 0⟩ = .ok (.setMode 2 3) ∧
  decode ⟨0x00000130, 0, 0, 0⟩ = .ok (.reset 1) ∧
  decode ⟨0x00000031, 0, 0, 0⟩ = .ok .resetAll

/-- R48: a command with `CMD[31:20] != 0` is IllegalCommand and changes no state. -/
def Obligations.ReservedBitsAreIllegal : Prop :=
  ∀ (c : Command) (s : State), c.cmd.toNat / 2 ^ 20 ≠ 0 →
    runCommand c s = .next { s with resp := some { status := .illegalCommand, data := 0 } }

/-- R54: an unassigned opcode is IllegalCommand and changes no state. -/
def Obligations.UnassignedOpcodesAreIllegal : Prop :=
  ∀ (c : Command) (s : State),
    c.cmd.toNat % 256 ∉ [0x00, 0x01, 0x02, 0x03, 0x10, 0x11, 0x18, 0x20, 0x21, 0x22, 0x23, 0x30, 0x31] →
    runCommand c s = .next { s with resp := some { status := .illegalCommand, data := 0 } }

/-- R49, R52: UNIT must be 0 for the three opcodes that name no unit, and SEL must be 0 for every opcode but the three
that use it; otherwise IllegalCommand and no state change. -/
def Obligations.NonzeroUnusedFieldsAreIllegal : Prop :=
  ∀ (c : Command) (s : State),
    (c.cmd.toNat % 256 ∈ [0x00, 0x02, 0x31] ∧ c.cmd.toNat / 256 % 256 ≠ 0) ∨
      (c.cmd.toNat % 256 ∉ [0x20, 0x22, 0x23] ∧ c.cmd.toNat / 65536 % 16 ≠ 0) →
    runCommand c s = .next { s with resp := some { status := .illegalCommand, data := 0 } }

/-- R49, R52, R56: a command that names a missing unit, a unit of a kind its opcode lacks, or an illegal SEL is
IllegalCommand and changes no state. -/
def Obligations.IllFormedCommandsAreIllegal : Prop :=
  ∀ (i : Instr) (s : State), i.wellFormed s.kinds = false →
    exec i s = .next { s with resp := some { status := .illegalCommand, data := 0 } }

/-- R49, R52, R56, R90, R99, R106: in a sound state every well-formed command completes with a response, and not as
IllegalCommand. -/
def Obligations.WellFormedCommandsComplete : Prop :=
  ∀ (i : Instr) (s : State), s.Ok → i.wellFormed s.kinds = true →
    ∃ t r, exec i s = .next t ∧ t.resp = some r ∧ r.status ≠ .illegalCommand

/-! ### The step, the ports and the build (00_scope.md, 20_memory.md, 70_reset_and_hazards.md) -/

/-- R12, R37, R56: when the command the arbiter takes decodes to an instruction, the step is that instruction's `exec` in
the state without the command, followed by the delivery of the response. -/
def Obligations.StepRunsDecodedInstruction : Prop :=
  ∀ (s : State) (p : Nat) (c : Command) (i : Instr),
    buildValid s.build = true → s.nextPort = some p → s.pendingAt p = some c → decode c = .ok i →
    step s = andThen (exec i (s.take p)) fun t => .next (t.deliver p c)

/-- R37, R48, R49, R54, R97: a command that decodes to no instruction answers IllegalCommand to its port, and every unit
keeps its registers. -/
def Obligations.StepAnswersUndecodableCommand : Prop :=
  ∀ (s : State) (p : Nat) (c : Command) (e : DecodeError),
    buildValid s.build = true → s.nextPort = some p → s.pendingAt p = some c → decode c = .error e →
    ∃ t, step s = .next t ∧ t.units = s.units ∧ t.draws = s.draws ∧ t.ports = (s.take p).ports ∧
      t.trace = s.trace ++ [{ port := p, cmd := c, resp := { status := .illegalCommand, data := 0 } }]

/-- R108, R119: with no command pending the block is idle, and idleness loses no state. That an idle block takes a step
that changes nothing is the model's choice (log entry 9). -/
def Obligations.QuiescentBlockIdles : Prop :=
  ∀ s : State, buildValid s.build = true → (∀ q ∈ s.ports, q.queue = []) → step s = .next s

/-- R37: whenever a command is pending, the step takes the oldest command of some port that has one, and runs it; the other
ports keep theirs. That the port's `since` becomes the arbitration count is the model's own bookkeeping (log entry 8,
DESIGN CHOICE) and no rule of the spec. -/
def Obligations.PendingBlockServesAPort : Prop :=
  ∀ s : State, buildValid s.build = true → (∃ q ∈ s.ports, q.queue ≠ []) →
    ∃ p q c rest, s.ports[p]? = some q ∧ q.queue = c :: rest ∧ step s = serve p c s ∧
      (s.take p).ports[p]? = some { queue := rest, since := s.taken + 1 } ∧
      (∀ j, j ≠ p → (s.take p).ports[j]? = s.ports[j]?)

/-- R11: a build with `NUNITS` outside `1..256`, a capacity outside `1..2^32`, a sample rate not finite or not `> 0`, an
initial delay outside the SET_DELAY domain, an initial mode above 3, a chain that names a RING unit, a missing unit or one unit
twice, or no port (R10), has no run. -/
def Obligations.InvalidBuildHasNoRun : Prop :=
  ∀ s : State,
    (s.units.length = 0 ∨ 256 < s.units.length ∨
      (∃ sl ∈ s.units, match sl with
        | .ring r => r.cap = 0 ∨ 2 ^ 32 < r.cap
        | .delay d => d.rb.cap = 0 ∨ 2 ^ 32 < d.rb.cap ∨ isFinite s.sfmt d.initDelay = false ∨
            value s.sfmt d.initDelay < 0 ∨ ((d.rb.cap : Int) - 1) * unitsPerOne s.sfmt < value s.sfmt d.initDelay
        | .biquad b => isFinite .binary64 b.fs = false ∨ value .binary64 b.fs ≤ 0
        | .svf v => isFinite .binary64 v.fs = false ∨ value .binary64 v.fs ≤ 0 ∨ 3 < v.initMode) ∨
      (∃ c ∈ s.chain, s.units.length ≤ c ∨ ∃ r, s.units[c]? = some (.ring r)) ∨
      ¬ s.chain.Nodup ∨ s.ports.length = 0) →
    step s = .refused .invalidBuild

/-- R23, R30, R109: the state after reset meets the invariant. The build it stands for is the model's choice (log entry
1); PowerOnMeetsInvariant says it of every valid build. -/
def Obligations.ResetMeetsInvariant : Prop := State.reset.Inv

/-- R23, R30, R109: the block of every valid build meets the invariant at the end of power-on reset, and carries that
build. -/
def Obligations.PowerOnMeetsInvariant : Prop :=
  ∀ b : Build, buildValid b = true → (State.powerOn b).Inv ∧ (State.powerOn b).build = b

/-- R30, R109: the registers at power-on: buffers empty (every slot `+0`), cursors and state registers zero, both banks
the construction coefficients, the mode the construction mode, the delay the construction delay split exactly, no command
pending and no response outstanding. -/
def Obligations.PowerOnRegisters : Prop :=
  ∀ b : Build, buildValid b = true →
    (State.powerOn b).resp = none ∧ (∀ q ∈ (State.powerOn b).ports, q.queue = []) ∧
    (State.powerOn b).units.length = b.units.length ∧
    ∀ (u : Nat) (cfg : UnitCfg), b.units[u]? = some cfg →
      match cfg with
      | .ring c => ∃ r, (State.powerOn b).units[u]? = some (.ring r) ∧ r.cap = c ∧ r.cur = 0 ∧
          ∀ i, cellsRead i r.buf = 0
      | .delay c d => ∃ x, (State.powerOn b).units[u]? = some (.delay x) ∧ x.rb.cap = c ∧ x.rb.cur = 0 ∧
          x.lastOut = 0 ∧ (∀ i, cellsRead i x.rb.buf = 0) ∧
          (x.dlyInt.toNat : Int) * unitsPerOne b.sfmt + value b.sfmt x.dlyFrac = value b.sfmt d ∧
          isFinite b.sfmt x.dlyFrac = true ∧ signBit b.sfmt x.dlyFrac = false ∧
          value b.sfmt x.dlyFrac < unitsPerOne b.sfmt
      | .biquad fs init => ∃ x, (State.powerOn b).units[u]? = some (.biquad x) ∧ x.fs = fs ∧ x.active = init ∧
          x.shadow = init ∧ x.x1 = 0 ∧ x.x2 = 0 ∧ x.y1 = 0 ∧ x.y2 = 0
      | .svf fs init m => ∃ x, (State.powerOn b).units[u]? = some (.svf x) ∧ x.fs = fs ∧ x.active = init ∧
          x.shadow = init ∧ x.mode.toNat = m ∧ x.low = 0 ∧ x.band = 0

/-- R21 to R25: every step keeps the invariant: a valid build, every register at a legal value, ring buffers in canonical
form, no response outstanding, and the arbiter's counts (the model's own, log entry 8) those of its past. -/
def Obligations.StepKeepsInvariant : Prop := ∀ s t : State, s.Inv → step s = .next t → t.Inv

/-- R90, R99, R119: from a sound state the block never stops; no slot access leaves a buffer. -/
def Obligations.SoundStatesNeverStop : Prop := ∀ s : State, s.Inv → Goes (step s)

/-- R37, R38: a step keeps, for every port, the sequence of its commands: those that ran, in the order they ran, then
those that wait. So the executed commands contain each port's commands in that port's issue order. -/
def Obligations.StepKeepsIssueOrder : Prop :=
  ∀ (s t : State) (p : Nat), step s = .next t → t.issued p = s.issued p

/-- R37: weak fairness. Whatever commands the agents go on issuing at whatever ports, a pending command is taken after
some number of rounds. It rests on the model's choice of tickets (log entry 8), which admits every weakly fair schedule
and no other, and on no value of the tickets. -/
def Obligations.PendingCommandIsTakenEventually : Prop :=
  ∀ (s : State) (p : Nat) (q : Port) (c : Command) (rest : List Command) (inputs : Nat → List (Nat × Command)),
    s.Inv → s.ports[p]? = some q → q.queue = c :: rest →
    ∃ n t r, rounds inputs n s = .next t ∧
      ({ port := p, cmd := c, resp := r } : Completed) ∈ t.trace.drop s.trace.length

/-- R3 to R10: no step changes a build parameter; the spec says of them that the block never changes them at run time. -/
def Obligations.StepKeepsBuild : Prop := ∀ s t : State, step s = .next t → t.build = s.build

/-- R98: a command whose status is not OK changes no state at all, its DATA is 0, and a retry fails the same way. -/
def Obligations.FailedCommandChangesNothing : Prop :=
  ∀ (c : Command) (s t : State) (r : Response),
    runCommand c s = .next t → t.resp = some r → r.status ≠ .ok →
    t = { s with resp := some r } ∧ r.data = 0 ∧ runCommand c t = .next t

/-- R31, R51: the DATA of a response has no bit set at or above the sample width: `DATA[63:w]` is zero. -/
def Obligations.ResponseDataFitsTheFormat : Prop :=
  ∀ (c : Command) (s t : State) (r : Response),
    runCommand c s = .next t → t.resp = some r → r.data.toNat < 2 ^ s.sfmt.width

/-- R31, R50: the bits of a sample operand above `w-1` have no effect. -/
def Obligations.UpperOperandBitsAreIgnored : Prop :=
  ∀ (s : State) (u : BitVec 8) (sel : BitVec 4) (x y : Word),
    x.toNat % 2 ^ s.sfmt.width = y.toNat % 2 ^ s.sfmt.width →
    exec (.tick u x) s = exec (.tick u y) s ∧ exec (.chainTick x) s = exec (.chainTick y) s ∧
      exec (.rbWrite u x) s = exec (.rbWrite u y) s ∧ exec (.setDelay u x) s = exec (.setDelay u y) s ∧
      exec (.stageCoeff u sel x) s = exec (.stageCoeff u sel y) s

/-- R20: a command that names one unit writes nothing of the block but that unit's registers (and the response). -/
def Obligations.OneUnitCommandsTouchOneUnit : Prop :=
  ∀ (i : Instr) (s t : State), i ≠ .resetAll → (∀ x, i ≠ .chainTick x) →
    exec i s = .next t → SameBut i.unit.toNat s t

/-- R20: a command that names one unit reads nothing of the block but that unit's registers: two blocks with the same
sample format, the same unit and the same draw counter answer alike and leave the unit alike. -/
def Obligations.OneUnitCommandsReadOneUnit : Prop :=
  ∀ (i : Instr) (s s' t : State), i ≠ .resetAll → (∀ x, i ≠ .chainTick x) →
    s'.sfmt = s.sfmt → s'.draws = s.draws → s'.units[i.unit.toNat]? = s.units[i.unit.toNat]? →
    exec i s = .next t →
    ∃ t', exec i s' = .next t' ∧ t'.resp = t.resp ∧ t'.draws = t.draws ∧
      t'.units[i.unit.toNat]? = t.units[i.unit.toNat]?

/-! ### Ring buffer (40_ring_buffer.md) -/

/-- R61, R62: RB_WRITE stores the sample at the cursor, bit for bit, and advances the cursor modulo the capacity. Every
other slot, every other register of the unit (on a DELAY unit `LAST_OUT`, `DLY_INT`, `DLY_FRAC`) and the rest of the block
are unchanged. -/
def Obligations.RbWriteStoresAndAdvances : Prop :=
  ∀ (s : State) (u : BitVec 8) (v : Word) (sl : Slot) (r : RingBuf),
    s.units[u.toNat]? = some sl → sl.ringBuf = some r →
    r.cap ≤ 2 ^ 32 → cellsWf r.cap 0 r.buf = true → r.cur.toNat < r.cap →
    ∃ t r', exec (.rbWrite u v) s = .next t ∧ t.resp = some { status := .ok, data := 0 } ∧
      t.units[u.toNat]? = some (sl.withRingBuf r') ∧ r'.cap = r.cap ∧
      r'.cur.toNat = (r.cur.toNat + 1) % r.cap ∧
      cellsRead r.cur.toNat r'.buf = BitVec.ofNat 64 (v.toNat % 2 ^ s.sfmt.width) ∧
      (∀ j, j ≠ r.cur.toNat → cellsRead j r'.buf = cellsRead j r.buf) ∧
      SameBut u.toNat s t ∧ t.draws = s.draws

/-- R60, R63: RB_READ_AT answers OutOfRange from the capacity on, else the bits of slot `(CUR - 1 - off) mod C`; it writes
nothing. -/
def Obligations.RbReadAtAnswersTheSlot : Prop :=
  ∀ (s : State) (u : BitVec 8) (off : Word) (sl : Slot) (r : RingBuf),
    s.units[u.toNat]? = some sl → sl.ringBuf = some r →
    exec (.rbReadAt u off) s = .next { s with resp := some (
      if r.cap ≤ off.toNat then { status := .outOfRange, data := 0 }
      else { status := .ok
             data := BitVec.ofNat 64
               ((cellsRead ((r.cur.toNat + (r.cap - 1 - off.toNat)) % r.cap) r.buf).toNat % 2 ^ s.sfmt.width) }) }

/-- R64 items 1 and 2: after a write, offset 0 is the sample written, and offset `j` is what offset `j-1` was. -/
def Obligations.WriteShiftsOffsetsByOne : Prop :=
  ∀ (r : RingBuf) (v : Sample), r.cap ≤ 2 ^ 32 → cellsWf r.cap 0 r.buf = true → r.cur.toNat < r.cap →
    ∃ r', writeAdv r v = .next r' ∧ readAt r' 0 = .next v ∧
      ∀ j, 1 ≤ j → j < r.cap → readAt r' j = readAt r (j - 1)

/-- R64 items 3 to 5: after `n` writes the cursor is `(c0 + n) mod C`, and each of the last `C` samples written is found
at its distance from the newest, whatever the buffer held before. -/
def Obligations.LastWritesAreReadBack : Prop :=
  ∀ (vs : List Sample) (r : RingBuf), r.cap ≤ 2 ^ 32 → cellsWf r.cap 0 r.buf = true → r.cur.toNat < r.cap →
    ∃ r', writeAll vs r = .next r' ∧ r'.cap = r.cap ∧ r'.cur.toNat = (r.cur.toNat + vs.length) % r.cap ∧
      ∀ j v, j < r.cap → j < vs.length → vs[vs.length - 1 - j]? = some v → readAt r' j = .next v

/-! ### Delay line (41_delay_line.md) -/

/-- R65, R66, R67: SET_DELAY accepts a finite length `d` with `0 <= d <= C-1` (so `-0`, not NaN, not an infinity) and
stores `k = floor(d)` and the exact `frac = d - k`, `+0` when it is zero; any other length is InvalidParameter and changes
nothing. The buffer, the cursor and `LAST_OUT` are not touched. -/
def Obligations.SetDelaySplitsTheLength : Prop :=
  ∀ (s : State) (u : BitVec 8) (x : Word) (dl : DelayUnit),
    s.units[u.toNat]? = some (.delay dl) → 1 ≤ dl.rb.cap → dl.rb.cap ≤ 2 ^ 32 →
    if isFinite s.sfmt (lowBits s.sfmt x) = true ∧ 0 ≤ value s.sfmt (lowBits s.sfmt x) ∧
        value s.sfmt (lowBits s.sfmt x) ≤ ((dl.rb.cap : Int) - 1) * unitsPerOne s.sfmt then
      ∃ t k frac, exec (.setDelay u x) s = .next t ∧ t.resp = some { status := .ok, data := 0 } ∧
        t.units[u.toNat]? = some (.delay { dl with dlyInt := k, dlyFrac := frac }) ∧
        (k.toNat : Int) * unitsPerOne s.sfmt + value s.sfmt frac = value s.sfmt (lowBits s.sfmt x) ∧
        isFinite s.sfmt frac = true ∧ signBit s.sfmt frac = false ∧ value s.sfmt frac < unitsPerOne s.sfmt ∧
        k.toNat + (if value s.sfmt frac = 0 then 0 else 1) ≤ dl.rb.cap - 1 ∧
        SameBut u.toNat s t ∧ t.draws = s.draws
    else exec (.setDelay u x) s = .next { s with resp := some { status := .invalidParameter, data := 0 } }

/-- R68, R70: a TICK on a DELAY unit with `DLY_FRAC = 0` writes its input, then answers the bits of tap `DLY_INT`, which
is the input itself when `DLY_INT = 0` and else a slot written earlier; `LAST_OUT` holds that tap. -/
def Obligations.IntegerDelayTickCopiesTheTap : Prop :=
  ∀ (s : State) (u : BitVec 8) (x : Word) (d : DelayUnit),
    s.units[u.toNat]? = some (.delay d) → d.rb.cap ≤ 2 ^ 32 → cellsWf d.rb.cap 0 d.rb.buf = true →
    d.rb.cur.toNat < d.rb.cap → isZero s.sfmt d.dlyFrac = true → d.dlyInt.toNat < d.rb.cap →
    ∃ t r y, exec (.tick u x) s = .next t ∧
      y = (if d.dlyInt.toNat = 0 then lowBits s.sfmt x
           else cellsRead ((d.rb.cur.toNat + (d.rb.cap - d.dlyInt.toNat)) % d.rb.cap) d.rb.buf) ∧
      t.resp = some { status := .ok, data := lowBits s.sfmt y } ∧
      t.units[u.toNat]? = some (.delay { d with rb := r, lastOut := y }) ∧
      writeAdv d.rb (lowBits s.sfmt x) = .next r ∧ SameBut u.toNat s t

/-- R68, R69: a TICK on a DELAY unit with `DLY_FRAC != 0` writes its input, then answers
`((1 ⊖ f) ⊗ a) ⊕ (f ⊗ b)` with `a` and `b` the taps `DLY_INT` and `DLY_INT + 1`; `LAST_OUT` holds that value. The draw
numbers are the model's (log entry 4). -/
def Obligations.FractionalDelayTickInterpolates : Prop :=
  ∀ (s : State) (u : BitVec 8) (x : Word) (d : DelayUnit),
    s.units[u.toNat]? = some (.delay d) → d.rb.cap ≤ 2 ^ 32 → cellsWf d.rb.cap 0 d.rb.buf = true →
    d.rb.cur.toNat < d.rb.cap → isZero s.sfmt d.dlyFrac = false → d.dlyInt.toNat + 1 < d.rb.cap →
    ∃ t r a y, exec (.tick u x) s = .next t ∧
      a = (if d.dlyInt.toNat = 0 then lowBits s.sfmt x
           else cellsRead ((d.rb.cur.toNat + (d.rb.cap - d.dlyInt.toNat)) % d.rb.cap) d.rb.buf) ∧
      y = fpAdd s.sfmt (s.draws + 3)
            (fpMul s.sfmt (s.draws + 1) (fpSub s.sfmt s.draws (one s.sfmt) d.dlyFrac) a)
            (fpMul s.sfmt (s.draws + 2) d.dlyFrac
              (cellsRead ((d.rb.cur.toNat + (d.rb.cap - (d.dlyInt.toNat + 1))) % d.rb.cap) d.rb.buf)) ∧
      t.resp = some { status := .ok, data := lowBits s.sfmt y } ∧
      t.units[u.toNat]? = some (.delay { d with rb := r, lastOut := y }) ∧
      writeAdv d.rb (lowBits s.sfmt x) = .next r ∧ SameBut u.toNat s t

/-- R71: LAST_OUT answers the register and writes nothing. -/
def Obligations.LastOutAnswersTheRegister : Prop :=
  ∀ (s : State) (u : BitVec 8) (d : DelayUnit), s.units[u.toNat]? = some (.delay d) →
    exec (.lastOut u) s =
      .next { s with resp := some { status := .ok, data := BitVec.ofNat 64 (d.lastOut.toNat % 2 ^ s.sfmt.width) } }

/-- R73 items 1 and 2: with an integer delay and an all-zero buffer, any stream of inputs comes out delayed by `DLY_INT`
ticks bit for bit, zeros before. The impulse property is the stream `1.0, 0, 0, ...`. -/
def Obligations.IntegerDelayReplaysItsInput : Prop :=
  ∀ (s : State) (u : BitVec 8) (d : DelayUnit) (xs : List Word),
    s.units[u.toNat]? = some (.delay d) → 1 ≤ d.rb.cap → d.rb.cap ≤ 2 ^ 32 → d.rb.buf = [] →
    d.rb.cur.toNat < d.rb.cap → isZero s.sfmt d.dlyFrac = true → d.dlyInt.toNat < d.rb.cap →
    ∃ ys t, tickRun u xs s = .next (ys, t) ∧ ys.length = xs.length ∧
      ∀ n x, xs[n]? = some x →
        (n < d.dlyInt.toNat → ys[n]? = some 0) ∧ ys[n + d.dlyInt.toNat]? =
          (if n + d.dlyInt.toNat < xs.length then some (lowBits s.sfmt x) else none)

/-! ### Filters (42_filters.md) -/

/-- R74: STAGE_COEFF with a legal SEL writes that coefficient of the shadow bank, bit for bit, and nothing else. -/
def Obligations.StageCoeffWritesTheShadowBank : Prop :=
  ∀ (s : State) (u : BitVec 8) (sel : BitVec 4) (x : Word),
    (∀ b, s.units[u.toNat]? = some (.biquad b) → sel.toNat ≤ 4 →
      ∃ t c, exec (.stageCoeff u sel x) s = .next t ∧ t.resp = some { status := .ok, data := 0 } ∧
        t.units[u.toNat]? = some (.biquad { b with shadow := c }) ∧
        bqList c = (bqList b.shadow).set sel.toNat (lowBits s.sfmt x) ∧ SameBut u.toNat s t ∧ t.draws = s.draws) ∧
    (∀ v, s.units[u.toNat]? = some (.svf v) → sel.toNat ≤ 1 →
      ∃ t c, exec (.stageCoeff u sel x) s = .next t ∧ t.resp = some { status := .ok, data := 0 } ∧
        t.units[u.toNat]? = some (.svf { v with shadow := c }) ∧
        svfList c = (svfList v.shadow).set sel.toNat (lowBits s.sfmt x) ∧ SameBut u.toNat s t ∧ t.draws = s.draws)

/-- R75: COMMIT copies the whole shadow bank into the active bank; the shadow bank, the state registers and MODE are
unchanged; it always succeeds. -/
def Obligations.CommitCopiesTheShadowBank : Prop :=
  ∀ (s : State) (u : BitVec 8),
    (∀ b, s.units[u.toNat]? = some (.biquad b) →
      ∃ t, exec (.commit u) s = .next t ∧ t.resp = some { status := .ok, data := 0 } ∧
        t.units[u.toNat]? = some (.biquad { b with active := b.shadow }) ∧ SameBut u.toNat s t ∧ t.draws = s.draws) ∧
    (∀ v, s.units[u.toNat]? = some (.svf v) →
      ∃ t, exec (.commit u) s = .next t ∧ t.resp = some { status := .ok, data := 0 } ∧
        t.units[u.toNat]? = some (.svf { v with active := v.shadow }) ∧ SameBut u.toNat s t ∧ t.draws = s.draws)

/-- R76, R77, R79, R81: SET_PARAMS on a BIQUAD unit. Outside the domain of R76 (real values), or where the design function
has no such kind, InvalidParameter and nothing changes; else both banks hold the design's coefficients, each rounded once,
and the state registers are unchanged. The design function is open (R9); the sign and payload of a NaN coefficient are the
model's free values (log entry 6). -/
def Obligations.SetParamsInstallsTheBiquadDesign : Prop :=
  ∀ (s : State) (u : BitVec 8) (kind : BitVec 4) (fc q : Word) (b : BiquadUnit),
    s.units[u.toNat]? = some (.biquad b) → isFinite .binary64 b.fs = true →
    if isFinite .binary64 fc = true ∧ isFinite .binary64 q = true ∧ 0 < value .binary64 fc ∧
        2 * value .binary64 fc < value .binary64 b.fs ∧ 0 < value .binary64 q then
      match Config.designBq kind fc q b.fs with
      | none => exec (.setParams u kind fc q) s =
          .next { s with resp := some { status := .invalidParameter, data := 0 } }
      | some r => ∃ t c, exec (.setParams u kind fc q) s = .next t ∧
          t.resp = some { status := .ok, data := 0 } ∧
          t.units[u.toNat]? = some (.biquad { b with active := c, shadow := c }) ∧
          c = { b0 := roundS s.sfmt (Config.designBqNaN kind fc q b.fs 0) r.b0
                b1 := roundS s.sfmt (Config.designBqNaN kind fc q b.fs 1) r.b1
                b2 := roundS s.sfmt (Config.designBqNaN kind fc q b.fs 2) r.b2
                a1 := roundS s.sfmt (Config.designBqNaN kind fc q b.fs 3) r.a1
                a2 := roundS s.sfmt (Config.designBqNaN kind fc q b.fs 4) r.a2 } ∧
          SameBut u.toNat s t ∧ t.draws = s.draws
    else exec (.setParams u kind fc q) s = .next { s with resp := some { status := .invalidParameter, data := 0 } }

/-- R76, R78, R79, R81: SET_PARAMS on an SVF unit. Outside the domain of R76 (real values) InvalidParameter and nothing
changes; else both banks hold the design's two coefficients, each rounded once, and MODE, LOW and BAND are unchanged. The
design function is open (R9); the sign and payload of a NaN coefficient are the model's free values (log entry 6). -/
def Obligations.SetParamsInstallsTheSvfDesign : Prop :=
  ∀ (s : State) (u : BitVec 8) (fc q : Word) (v : SvfUnit),
    s.units[u.toNat]? = some (.svf v) → isFinite .binary64 v.fs = true →
    if isFinite .binary64 fc = true ∧ isFinite .binary64 q = true ∧ 0 < value .binary64 fc ∧
        2 * value .binary64 fc < value .binary64 v.fs ∧ 0 < value .binary64 q then
      ∃ t c, exec (.setParams u 0 fc q) s = .next t ∧ t.resp = some { status := .ok, data := 0 } ∧
        t.units[u.toNat]? = some (.svf { v with active := c, shadow := c }) ∧
        c = { f := roundS s.sfmt (Config.designSvfNaN fc q v.fs 0) (Config.designSvf fc q v.fs).f
              damp := roundS s.sfmt (Config.designSvfNaN fc q v.fs 1) (Config.designSvf fc q v.fs).damp } ∧
        SameBut u.toNat s t ∧ t.draws = s.draws
    else exec (.setParams u 0 fc q) s = .next { s with resp := some { status := .invalidParameter, data := 0 } }

/-- R77, R78, T6 (idempotence): issuing the same SET_PARAMS a second time leaves the state the first one left. For a
coefficient that `round_S` makes a NaN this rests on the model's reading of R81's drawn payload as a function of the
design's arguments (log entry 6, DEDUCED, unsafe for this comparison). -/
def Obligations.SetParamsTwiceIsOnce : Prop :=
  ∀ (s t : State) (u : BitVec 8) (sel : BitVec 4) (fc q : Word),
    exec (.setParams u sel fc q) s = .next t → exec (.setParams u sel fc q) t = .next t

/-- R83: SET_MODE writes MODE and nothing else; a SEL above 3 is IllegalCommand and changes nothing. -/
def Obligations.SetModeWritesMode : Prop :=
  ∀ (s : State) (u : BitVec 8) (sel : BitVec 4) (v : SvfUnit),
    s.units[u.toNat]? = some (.svf v) →
    if sel.toNat ≤ 3 then
      ∃ t m, exec (.setMode u sel) s = .next t ∧ t.resp = some { status := .ok, data := 0 } ∧
        t.units[u.toNat]? = some (.svf { v with mode := m }) ∧ m.toNat = sel.toNat ∧
        SameBut u.toNat s t ∧ t.draws = s.draws
    else exec (.setMode u sel) s = .next { s with resp := some { status := .illegalCommand, data := 0 } }

/-- R82: no command but TICK, CHAIN_TICK, RESET and RESET_ALL changes a filter's state registers, on any unit. -/
def Obligations.OnlyTicksAndResetsWriteStateRegisters : Prop :=
  ∀ (i : Instr) (s t : State) (j : Nat) (sl sl' : Slot),
    (∀ u x, i ≠ .tick u x) → (∀ x, i ≠ .chainTick x) → (∀ u, i ≠ .reset u) → i ≠ .resetAll →
    exec i s = .next t → s.units[j]? = some sl → t.units[j]? = some sl' → sameRegisters sl sl'

/-- R84, R85: a TICK on a BIQUAD unit answers the difference equation evaluated left to right in the sample format, and
shifts the state registers. The draw numbers are the model's (log entry 4). -/
def Obligations.BiquadTickEvaluatesTheEquation : Prop :=
  ∀ (s : State) (u : BitVec 8) (x : Word) (b : BiquadUnit), s.units[u.toNat]? = some (.biquad b) →
    ∃ t t0 t1 t2 t3 y, exec (.tick u x) s = .next t ∧
      t0 = fpMul s.sfmt s.draws b.active.b0 (lowBits s.sfmt x) ∧
      t1 = fpAdd s.sfmt (s.draws + 2) t0 (fpMul s.sfmt (s.draws + 1) b.active.b1 b.x1) ∧
      t2 = fpAdd s.sfmt (s.draws + 4) t1 (fpMul s.sfmt (s.draws + 3) b.active.b2 b.x2) ∧
      t3 = fpSub s.sfmt (s.draws + 6) t2 (fpMul s.sfmt (s.draws + 5) b.active.a1 b.y1) ∧
      y = fpSub s.sfmt (s.draws + 8) t3 (fpMul s.sfmt (s.draws + 7) b.active.a2 b.y2) ∧
      t.resp = some { status := .ok, data := lowBits s.sfmt y } ∧
      t.units[u.toNat]? =
        some (.biquad { b with x2 := b.x1, x1 := lowBits s.sfmt x, y2 := b.y1, y1 := y }) ∧
      SameBut u.toNat s t

/-- R86, R87: a TICK on an SVF unit performs one Chamberlin step in the order given and answers the output MODE
selects. The draw numbers are the model's (log entry 4). -/
def Obligations.SvfTickPerformsTheStep : Prop :=
  ∀ (s : State) (u : BitVec 8) (x : Word) (v : SvfUnit), s.units[u.toNat]? = some (.svf v) →
    ∃ t low high band notch y, exec (.tick u x) s = .next t ∧
      low = fpAdd s.sfmt (s.draws + 1) v.low (fpMul s.sfmt s.draws v.active.f v.band) ∧
      high = fpSub s.sfmt (s.draws + 4) (fpSub s.sfmt (s.draws + 2) (lowBits s.sfmt x) low)
        (fpMul s.sfmt (s.draws + 3) v.active.damp v.band) ∧
      band = fpAdd s.sfmt (s.draws + 6) (fpMul s.sfmt (s.draws + 5) v.active.f high) v.band ∧
      notch = fpAdd s.sfmt (s.draws + 7) high low ∧
      (v.mode = 0 → y = low) ∧ (v.mode = 1 → y = high) ∧ (v.mode = 2 → y = band) ∧ (v.mode = 3 → y = notch) ∧
      t.resp = some { status := .ok, data := lowBits s.sfmt y } ∧
      t.units[u.toNat]? = some (.svf { v with low := low, band := band }) ∧ SameBut u.toNat s t

/-- R87: the state update of an SVF tick does not depend on MODE. -/
def Obligations.SvfStateIgnoresMode : Prop :=
  ∀ (s s' t : State) (u : BitVec 8) (x : Word) (v : SvfUnit) (m : BitVec 2),
    s'.sfmt = s.sfmt → s'.draws = s.draws → s.units[u.toNat]? = some (.svf v) →
    s'.units[u.toNat]? = some (.svf { v with mode := m }) → exec (.tick u x) s = .next t →
    ∃ t' w, exec (.tick u x) s' = .next t' ∧ t.units[u.toNat]? = some (.svf w) ∧
      t'.units[u.toNat]? = some (.svf { w with mode := m })

/-- R39, R74, R114: no TICK or CHAIN_TICK reads a shadow bank. Two blocks that differ in shadow banks only answer alike,
and afterwards still differ in shadow banks only. -/
def Obligations.TicksIgnoreShadowBanks : Prop :=
  ∀ (i : Instr) (s s' t : State),
    (∃ u x, i = .tick u x) ∨ (∃ x, i = .chainTick x) →
    s' = { s with units := s'.units } → List.Forall₂ sameButShadow s.units s'.units → exec i s = .next t →
    ∃ t', exec i s' = .next t' ∧ t' = { t with units := t'.units } ∧ List.Forall₂ sameButShadow t.units t'.units

/-! ### Tick contract, chain and reset (43_pipeline.md) -/

/-- R89: NOP answers OK, 0 and writes no state; with UNIT, SEL or a reserved bit set it is IllegalCommand. -/
def Obligations.NopDoesNothing : Prop :=
  (∀ s : State, exec .nop s = .next { s with resp := some { status := .ok, data := 0 } }) ∧
  ∀ (c : Command) (s : State), c.cmd.toNat % 256 = 0 →
    runCommand c s = .next { s with
      resp := some { status := (if c.cmd = 0 then .ok else .illegalCommand), data := 0 } }

/-- R90: in a sound state a TICK of a unit that has a tick answers OK whatever its input, and keeps the unit's
configuration. -/
def Obligations.TickIsInfallible : Prop :=
  ∀ (s : State) (u : BitVec 8) (x : Word) (sl : Slot),
    s.Ok → s.units[u.toNat]? = some sl → sl.kind ≠ .ring →
    ∃ t y sl', exec (.tick u x) s = .next t ∧ t.resp = some { status := .ok, data := y } ∧
      t.units[u.toNat]? = some sl' ∧ sameSettings sl sl' ∧ SameBut u.toNat s t

/-- R90, R92: in a sound state CHAIN_TICK answers OK whatever its input; units outside the chain are untouched and every
unit keeps its configuration. -/
def Obligations.ChainTickIsInfallible : Prop :=
  ∀ (s : State) (x : Word), s.Ok →
    ∃ t y, exec (.chainTick x) s = .next t ∧ t.resp = some { status := .ok, data := y } ∧
      t.sfmt = s.sfmt ∧ t.chain = s.chain ∧ t.ports = s.ports ∧ t.taken = s.taken ∧ t.trace = s.trace ∧
      List.Forall₂ sameSettings s.units t.units ∧ ∀ j, j ∉ s.chain → t.units[j]? = s.units[j]?

/-- R92, R95: with a non-empty chain, CHAIN_TICK leaves the same state and gives the same response as the chain's TICKs
issued one by one, each on the DATA of the one before; with an empty chain it answers its input and changes nothing. -/
def Obligations.ChainTickIsItsTicksInTurn : Prop :=
  ∀ (s : State) (x : Word), s.Ok →
    if s.chain = [] then
      exec (.chainTick x) s = .next { s with resp := some { status := .ok, data := lowBits s.sfmt x } }
    else exec (.chainTick x) s = tickEach s.chain x s

/-- R93: RESET clears the running state of the unit (every buffer slot `+0`, `CUR = 0`, `LAST_OUT = +0`, the filter state
registers `+0`) and keeps its configuration; it touches no other unit; a second RESET changes nothing more. -/
def Obligations.ResetClearsTheUnit : Prop :=
  ∀ (s : State) (u : BitVec 8) (sl : Slot), s.units[u.toNat]? = some sl →
    ∃ t sl', exec (.reset u) s = .next t ∧ t.resp = some { status := .ok, data := 0 } ∧
      t.units[u.toNat]? = some sl' ∧ sameSettings sl sl' ∧
      (∀ r, sl'.ringBuf = some r → r.cur = 0 ∧ ∀ i, cellsRead i r.buf = 0) ∧
      (match sl' with
        | .ring _ => True
        | .delay d => d.lastOut = 0
        | .biquad b => b.x1 = 0 ∧ b.x2 = 0 ∧ b.y1 = 0 ∧ b.y2 = 0
        | .svf v => v.low = 0 ∧ v.band = 0) ∧
      SameBut u.toNat s t ∧ t.draws = s.draws ∧ exec (.reset u) t = .next t

/-- R94: RESET_ALL does to every unit what RESET does to it, in one step, and touches nothing else. -/
def Obligations.ResetAllResetsEveryUnit : Prop :=
  ∀ s : State, ∃ t, exec .resetAll s = .next t ∧ t.resp = some { status := .ok, data := 0 } ∧
    t = { s with units := t.units, resp := t.resp } ∧ t.units.length = s.units.length ∧
    ∀ u : BitVec 8, u.toNat < s.units.length →
      ∃ t1, exec (.reset u) s = .next t1 ∧ t.units[u.toNat]? = t1.units[u.toNat]?

/-- R93, R111: a unit that has not been reconfigured since power-on is, after RESET, in the state of the same unit just
after power-on. -/
def Obligations.ResetEqualsPowerOn : Prop :=
  ∀ (s : State) (u : BitVec 8) (sl : Slot), s.units[u.toNat]? = some sl → settingsFresh s.sfmt sl →
    ∃ t, exec (.reset u) s = .next t ∧ t.units[u.toNat]? = some (powerOnSlot s.sfmt sl.cfg)

/-! ### Sample arithmetic (00_scope.md R14) -/

/-- R14: the sum, and the difference, of two finite samples, when finite, is a nearest sample to the exact sum or
difference; where another sample is equally near, the last significand bit of the result is 0. An exact zero sum is `-0`
only for two operands of sign `-`, an exact zero difference only for `-0 ⊖ +0`. -/
def Obligations.SumIsRoundedToNearestEven : Prop :=
  ∀ (f : Sfmt) (n : Nat) (a b c : Sample), isFinite f a = true → isFinite f b = true → isFinite f c = true →
    (isFinite f (fpAdd f n a b) = true →
      (value f (fpAdd f n a b) - (value f a + value f b)).natAbs ≤ (value f c - (value f a + value f b)).natAbs ∧
      ((value f (fpAdd f n a b) - (value f a + value f b)).natAbs = (value f c - (value f a + value f b)).natAbs →
        value f c ≠ value f (fpAdd f n a b) → magBits f (fpAdd f n a b) % 2 = 0) ∧
      (value f a + value f b = 0 → signBit f (fpAdd f n a b) = (signBit f a && signBit f b))) ∧
    (isFinite f (fpSub f n a b) = true →
      (value f (fpSub f n a b) - (value f a - value f b)).natAbs ≤ (value f c - (value f a - value f b)).natAbs ∧
      ((value f (fpSub f n a b) - (value f a - value f b)).natAbs = (value f c - (value f a - value f b)).natAbs →
        value f c ≠ value f (fpSub f n a b) → magBits f (fpSub f n a b) % 2 = 0) ∧
      (value f a - value f b = 0 → signBit f (fpSub f n a b) = (signBit f a && !signBit f b)))

/-- R14: the product of two finite samples, when finite, is a nearest sample to the exact product, ties to even, with the
product of the signs. Values count units of `2^-unitExp`, so the exact product counts units of its square. -/
def Obligations.ProductIsRoundedToNearestEven : Prop :=
  ∀ (f : Sfmt) (n : Nat) (a b c : Sample), isFinite f a = true → isFinite f b = true → isFinite f c = true →
    isFinite f (fpMul f n a b) = true →
    (value f (fpMul f n a b) * 2 ^ f.unitExp - value f a * value f b).natAbs ≤
      (value f c * 2 ^ f.unitExp - value f a * value f b).natAbs ∧
    ((value f (fpMul f n a b) * 2 ^ f.unitExp - value f a * value f b).natAbs =
        (value f c * 2 ^ f.unitExp - value f a * value f b).natAbs →
      value f c ≠ value f (fpMul f n a b) → magBits f (fpMul f n a b) % 2 = 0) ∧
    signBit f (fpMul f n a b) = (signBit f a != signBit f b)

/-- R14, R81: `round_S` to binary64 is the identity. To binary32 it gives a NaN exactly for a NaN, and that NaN is quiet;
else it keeps the sign, of a zero too. An infinity stays one. A finite value gives an infinity exactly from the largest
finite binary32 value plus half a unit in its last place on, and below that a nearest binary32 sample, ties to even. -/
def Obligations.RoundSIsNearestEven : Prop :=
  (∀ (nan : BitVec 64) (x : Word), roundS .binary64 nan x = x) ∧
  ∀ (nan : BitVec 64) (x : Word),
    (isNaN .binary32 (roundS .binary32 nan x) = true ↔ isNaN .binary64 x = true) ∧
    (isNaN .binary64 x = true →
      Sfmt.infMag .binary32 + 2 ^ (Sfmt.prec .binary32 - 2) ≤ magBits .binary32 (roundS .binary32 nan x)) ∧
    (isNaN .binary64 x = false → signBit .binary32 (roundS .binary32 nan x) = signBit .binary64 x) ∧
    (isInf .binary64 x = true → isInf .binary32 (roundS .binary32 nan x) = true) ∧
    (isFinite .binary64 x = true →
      (isInf .binary32 (roundS .binary32 nan x) = true ↔
        (2 ^ 25 - 1) * 2 ^ 252 * 2 ^ 925 ≤ (value .binary64 x).natAbs) ∧
      ∀ c : Sample, isFinite .binary32 c = true → isFinite .binary32 (roundS .binary32 nan x) = true →
        (value .binary32 (roundS .binary32 nan x) * 2 ^ 925 - value .binary64 x).natAbs ≤
          (value .binary32 c * 2 ^ 925 - value .binary64 x).natAbs ∧
        ((value .binary32 (roundS .binary32 nan x) * 2 ^ 925 - value .binary64 x).natAbs =
            (value .binary32 c * 2 ^ 925 - value .binary64 x).natAbs →
          value .binary32 c ≠ value .binary32 (roundS .binary32 nan x) →
          magBits .binary32 (roundS .binary32 nan x) % 2 = 0))

/-- R14: a sum, a difference or a product of finite samples overflows to an infinity exactly when the magnitude of the
exact result is at or above the largest finite value plus half a unit in its last place. The infinity has the sign of the
exact sum or difference, and of the product the product of the signs. With an infinite operand (R69: an infinite tap gives
an infinite result) the result is the infinity of that operand's sign, inverted for a subtrahend, or of the product of the
signs, unless the operation is one that gives a NaN. -/
def Obligations.OverflowGivesInfinity : Prop :=
  (∀ (f : Sfmt) (n : Nat) (a b : Sample), isFinite f a = true → isFinite f b = true →
    (isInf f (fpAdd f n a b) = true ↔
      (2 ^ (f.prec + 1) - 1) * 2 ^ (f.maxExp - 3) ≤ (value f a + value f b).natAbs) ∧
    (isInf f (fpAdd f n a b) = true → signBit f (fpAdd f n a b) = decide (value f a + value f b < 0)) ∧
    (isInf f (fpSub f n a b) = true ↔
      (2 ^ (f.prec + 1) - 1) * 2 ^ (f.maxExp - 3) ≤ (value f a - value f b).natAbs) ∧
    (isInf f (fpSub f n a b) = true → signBit f (fpSub f n a b) = decide (value f a - value f b < 0)) ∧
    (isInf f (fpMul f n a b) = true ↔
      (2 ^ (f.prec + 1) - 1) * 2 ^ (f.maxExp - 3) * 2 ^ f.unitExp ≤ (value f a * value f b).natAbs) ∧
    (isInf f (fpMul f n a b) = true → signBit f (fpMul f n a b) = (signBit f a != signBit f b))) ∧
  ∀ (f : Sfmt) (n : Nat) (a b : Sample), isNaN f a = false → isNaN f b = false →
    (isInf f a = true → (isInf f b = true → signBit f b = signBit f a) →
      isInf f (fpAdd f n a b) = true ∧ signBit f (fpAdd f n a b) = signBit f a) ∧
    (isInf f b = true → (isInf f a = true → signBit f a = signBit f b) →
      isInf f (fpAdd f n a b) = true ∧ signBit f (fpAdd f n a b) = signBit f b) ∧
    (isInf f a = true → (isInf f b = true → signBit f b ≠ signBit f a) →
      isInf f (fpSub f n a b) = true ∧ signBit f (fpSub f n a b) = signBit f a) ∧
    (isInf f b = true → (isInf f a = true → signBit f a ≠ signBit f b) →
      isInf f (fpSub f n a b) = true ∧ signBit f (fpSub f n a b) = !signBit f b) ∧
    ((isInf f a = true ∧ isZero f b = false) ∨ (isInf f b = true ∧ isZero f a = false) →
      isInf f (fpMul f n a b) = true ∧ signBit f (fpMul f n a b) = (signBit f a != signBit f b))

/-- R14, U2: a sum, a difference or a product is a NaN exactly for a NaN operand, for infinities of opposite sign in a sum,
for infinities of the same sign in a difference, and for zero times infinity; every such NaN is quiet. It holds for every
value of the draws. -/
def Obligations.NaNResultsAreQuiet : Prop :=
  ∀ (f : Sfmt) (n : Nat) (a b : Sample),
    (isNaN f (fpAdd f n a b) = true ↔
      isNaN f a = true ∨ isNaN f b = true ∨
        (isInf f a = true ∧ isInf f b = true ∧ signBit f a ≠ signBit f b)) ∧
    (isNaN f (fpSub f n a b) = true ↔
      isNaN f a = true ∨ isNaN f b = true ∨
        (isInf f a = true ∧ isInf f b = true ∧ signBit f a = signBit f b)) ∧
    (isNaN f (fpMul f n a b) = true ↔
      isNaN f a = true ∨ isNaN f b = true ∨
        (isInf f a = true ∧ isZero f b = true) ∨ (isZero f a = true ∧ isInf f b = true)) ∧
    (isNaN f (fpAdd f n a b) = true → f.infMag + 2 ^ (f.prec - 2) ≤ magBits f (fpAdd f n a b)) ∧
    (isNaN f (fpSub f n a b) = true → f.infMag + 2 ^ (f.prec - 2) ≤ magBits f (fpSub f n a b)) ∧
    (isNaN f (fpMul f n a b) = true → f.infMag + 2 ^ (f.prec - 2) ≤ magBits f (fpMul f n a b))

/-! ### Notation (30_encoding.md R58) -/

/-- R58, R75, R74: the pseudo-command `set_coeffs` on a BIQUAD unit installs the five coefficients in the active bank. -/
def Obligations.SetCoeffsInstallsAllFive : Prop :=
  ∀ (s : State) (u : BitVec 8) (b : BiquadUnit) (b0 b1 b2 a1 a2 : Word),
    s.units[u.toNat]? = some (.biquad b) →
    ∃ t c, (setCoeffs u b0 b1 b2 a1 a2).foldl (fun o i => andThen o (exec i)) (.next s) = .next t ∧
      t.units[u.toNat]? = some (.biquad { b with active := c, shadow := c }) ∧
      bqList c = [lowBits s.sfmt b0, lowBits s.sfmt b1, lowBits s.sfmt b2, lowBits s.sfmt a1, lowBits s.sfmt a2] ∧
      SameBut u.toNat s t
end

