-- ==== Sys2Proof/Laws/Encoding.lean ====
section
/-! SUPPORT. The fields of an assembled command word (R47). -/

namespace Sys2Proof

/-- Section 5 of 30_encoding.md: the full word is `(s << 16) | (u << 8) | OP`. -/
theorem cmdWord_toNat (sel : BitVec 4) (u op : BitVec 8) :
    (cmdWord sel u op).toNat = sel.toNat * 65536 + u.toNat * 256 + op.toNat := by
  have h1 := sel.isLt
  have h2 := u.isLt
  have h3 := op.isLt
  simp only [cmdWord, BitVec.toNat_append, BitVec.toNat_ofNat, Nat.shiftLeft_eq]
  rw [← Nat.shiftLeft_eq, ← Nat.shiftLeft_eq, ← Nat.shiftLeft_eq,
    ← Nat.shiftLeft_add_eq_or_of_lt (by omega), ← Nat.shiftLeft_add_eq_or_of_lt (by omega),
    ← Nat.shiftLeft_add_eq_or_of_lt (by omega)]
  simp only [Nat.shiftLeft_eq]
  omega

theorem opField_toNat (c : CmdWord) : (opField c).toNat = c.toNat % 256 := by
  simp [opField, BitVec.extractLsb'_toNat]

theorem unitField_toNat (c : CmdWord) : (unitField c).toNat = c.toNat / 256 % 256 := by
  simp [unitField, BitVec.extractLsb'_toNat, Nat.shiftRight_eq_div_pow]

theorem selField_toNat (c : CmdWord) : (selField c).toNat = c.toNat / 65536 % 16 := by
  simp [selField, BitVec.extractLsb'_toNat, Nat.shiftRight_eq_div_pow]

theorem rsvdField_toNat (c : CmdWord) : (rsvdField c).toNat = c.toNat / 1048576 := by
  have := c.isLt
  simp only [rsvdField, BitVec.extractLsb'_toNat, Nat.shiftRight_eq_div_pow]
  omega

@[simp] theorem opField_cmdWord (sel : BitVec 4) (u op : BitVec 8) : opField (cmdWord sel u op) = op := by
  apply BitVec.eq_of_toNat_eq
  rw [opField_toNat, cmdWord_toNat]
  omega

@[simp] theorem unitField_cmdWord (sel : BitVec 4) (u op : BitVec 8) : unitField (cmdWord sel u op) = u := by
  apply BitVec.eq_of_toNat_eq
  rw [unitField_toNat, cmdWord_toNat]
  omega

@[simp] theorem selField_cmdWord (sel : BitVec 4) (u op : BitVec 8) : selField (cmdWord sel u op) = sel := by
  apply BitVec.eq_of_toNat_eq
  rw [selField_toNat, cmdWord_toNat]
  omega

@[simp] theorem rsvdField_cmdWord (sel : BitVec 4) (u op : BitVec 8) : rsvdField (cmdWord sel u op) = 0 := by
  apply BitVec.eq_of_toNat_eq
  rw [rsvdField_toNat, cmdWord_toNat]
  have h1 := sel.isLt
  have h2 := u.isLt
  have h3 := op.isLt
  show _ = 0
  omega

/-- A command word is its four fields (R47). -/
theorem cmd_fields (c : CmdWord) (h : rsvdField c = 0) : cmdWord (selField c) (unitField c) (opField c) = c := by
  apply BitVec.eq_of_toNat_eq
  have h0 : (rsvdField c).toNat = 0 := by rw [h]; rfl
  rw [rsvdField_toNat] at h0
  rw [cmdWord_toNat, selField_toNat, unitField_toNat, opField_toNat]
  omega

end Sys2Proof
end

