-- ==== Sys2Proof/Laws/Fp.lean ====
section
/-! SUPPORT. The sample format: signs and magnitudes of packed samples, the values of magnitude bits, and what rounding
gives (R3, R14). -/

namespace Sys2Proof.Machine

theorem infMag_lt (f : Sfmt) : f.infMag + 2 ^ (f.prec - 2) + 2 ^ (f.prec - 2) ≤ 2 ^ (f.width - 1) := by
  cases f <;> decide

theorem infMag_pos (f : Sfmt) : 0 < f.infMag := by cases f <;> decide

theorem width_split (f : Sfmt) : 2 ^ f.width = 2 ^ (f.width - 1) + 2 ^ (f.width - 1) := by
  cases f <;> decide

theorem width_le (f : Sfmt) : 2 ^ f.width ≤ 2 ^ 64 := by cases f <;> decide

/-- The bits of a packed sample. -/
theorem pack_toNat {f : Sfmt} {b : Bool} {m : Nat} (h : m < 2 ^ (f.width - 1)) :
    (pack f b m).toNat = m + if b then 2 ^ (f.width - 1) else 0 := by
  have h1 := width_split f
  have h2 := width_le f
  rw [pack, BitVec.toNat_ofNat, Nat.mod_eq_of_lt]
  cases b <;> simp only [if_true, if_false, Bool.false_eq_true] <;> omega

theorem magBits_pack {f : Sfmt} {b : Bool} {m : Nat} (h : m < 2 ^ (f.width - 1)) : magBits f (pack f b m) = m := by
  rw [magBits, pack_toNat h]
  cases b
  · simpa using Nat.mod_eq_of_lt h
  · simpa using Nat.mod_eq_of_lt h

theorem signBit_pack {f : Sfmt} {b : Bool} {m : Nat} (h : m < 2 ^ (f.width - 1)) : signBit f (pack f b m) = b := by
  rw [signBit, BitVec.getLsbD, pack_toNat h]
  cases b
  · simpa using Nat.testBit_lt_two_pow h
  · simp only [if_true, Nat.add_comm m, Nat.testBit_two_pow_add_eq, Nat.testBit_lt_two_pow h, Bool.not_false]

theorem fits_pack {f : Sfmt} {b : Bool} {m : Nat} (h : m < 2 ^ (f.width - 1)) : fits f (pack f b m) = true := by
  have h1 := width_split f
  rw [fits, decide_eq_true_eq, pack_toNat h]
  cases b <;> simp only [if_true, if_false, Bool.false_eq_true] <;> omega

theorem fits_lowBits (f : Sfmt) (x : Word) : fits f (lowBits f x) = true := by
  have h := width_le f
  have hp : 0 < 2 ^ f.width := Nat.two_pow_pos _
  have := Nat.mod_lt x.toNat hp
  rw [fits, decide_eq_true_eq, lowBits, BitVec.toNat_ofNat, Nat.mod_eq_of_lt (by omega)]
  exact this

/-- Taking the low `w` bits of a sample of the format changes nothing. -/
theorem lowBits_of_fits {f : Sfmt} {x : Sample} (h : fits f x = true) : lowBits f x = x := by
  rw [fits, decide_eq_true_eq] at h
  rw [lowBits, Nat.mod_eq_of_lt h]
  exact BitVec.ofNat_toNat _ _ |>.trans (by simp)

theorem lowBits_toNat (f : Sfmt) (x : Word) : (lowBits f x).toNat = x.toNat % 2 ^ f.width := by
  have h := width_le f
  have := Nat.mod_lt x.toNat (Nat.two_pow_pos f.width)
  rw [lowBits, BitVec.toNat_ofNat, Nat.mod_eq_of_lt (by omega)]

/-- Every NaN draw is a quiet NaN. -/
theorem magBits_quietNaN (f : Sfmt) (bits : BitVec 64) :
    f.infMag + 2 ^ (f.prec - 2) ≤ magBits f (quietNaN f bits) := by
  have h := infMag_lt f
  have hm := Nat.mod_lt bits.toNat (Nat.two_pow_pos (f.prec - 2))
  rw [quietNaN, magBits_pack (by omega)]
  omega

theorem isNaN_quietNaN (f : Sfmt) (bits : BitVec 64) : isNaN f (quietNaN f bits) = true := by
  have h := magBits_quietNaN f bits
  have hp := Nat.two_pow_pos (f.prec - 2)
  rw [isNaN, decide_eq_true_eq]
  omega

theorem fits_quietNaN (f : Sfmt) (bits : BitVec 64) : fits f (quietNaN f bits) = true := by
  have h := infMag_lt f
  have hm := Nat.mod_lt bits.toNat (Nat.two_pow_pos (f.prec - 2))
  exact fits_pack (by omega)

theorem roundMag_le (f : Sfmt) (n s : Nat) : roundMag f n s ≤ f.infMag := Nat.min_le_right _ _

theorem roundMag_lt (f : Sfmt) (n s : Nat) : roundMag f n s < 2 ^ (f.width - 1) := by
  have h1 := roundMag_le f n s
  have h2 := infMag_lt f
  have hp := Nat.two_pow_pos (f.prec - 2)
  omega

theorem infMag_lt' (f : Sfmt) : f.infMag < 2 ^ (f.width - 1) := by
  have h2 := infMag_lt f
  have hp := Nat.two_pow_pos (f.prec - 2)
  omega

/-- The result of `⊕` is a sample of the format. -/
theorem fits_fpAdd (f : Sfmt) (n : Nat) (a b : Sample) : fits f (fpAdd f n a b) = true := by
  unfold fpAdd drawnNaN
  split
  · exact fits_quietNaN _ _
  · split
    · split
      · exact fits_quietNaN _ _
      · exact fits_pack (infMag_lt' f)
    · split
      · exact fits_pack (infMag_lt' f)
      · exact fits_pack (roundMag_lt f _ _)

theorem fits_fpSub (f : Sfmt) (n : Nat) (a b : Sample) : fits f (fpSub f n a b) = true := fits_fpAdd _ _ _ _

/-- The result of `⊗` is a sample of the format. -/
theorem fits_fpMul (f : Sfmt) (n : Nat) (a b : Sample) : fits f (fpMul f n a b) = true := by
  unfold fpMul drawnNaN
  split
  · exact fits_quietNaN _ _
  · split
    · split
      · exact fits_quietNaN _ _
      · exact fits_pack (infMag_lt' f)
    · exact fits_pack (roundMag_lt f _ _)

/-- The result of `round_S` is a sample of the format. -/
theorem fits_roundS (f : Sfmt) (nan : BitVec 64) (x : Word) : fits f (roundS f nan x) = true := by
  cases f with
  | binary64 => exact decide_eq_true x.isLt
  | binary32 =>
    unfold roundS
    simp only
    split
    · exact fits_quietNaN _ _
    · split
      · exact fits_pack (infMag_lt' _)
      · exact fits_pack (roundMag_lt _ _ _)

/-! ### Values -/

/-- The value of magnitude bits written as `k * 2^(prec-1) + r`: `r` units of `2^k`. -/
theorem magUnits_form (f : Sfmt) {k r : Nat} (hr : r ≤ 2 * 2 ^ (f.prec - 1)) (hk : k = 0 ∨ 2 ^ (f.prec - 1) ≤ r) :
    magUnits f (k * 2 ^ (f.prec - 1) + r) = r * 2 ^ k := by
  generalize hP : 2 ^ (f.prec - 1) = P at *
  have hP0 : 0 < P := hP ▸ Nat.two_pow_pos _
  unfold magUnits
  rw [hP]
  rcases Nat.lt_or_ge r P with h | h
  · have hk0 : k = 0 := by omega
    subst hk0
    simp [Nat.div_eq_of_lt h]
  · rcases Nat.lt_or_ge r (2 * P) with h2 | h2
    · have hd : (k * P + r) / P = k + 1 := by
        rw [Nat.mul_comm, Nat.mul_add_div hP0, Nat.div_eq_of_lt_le (k := 1) (by omega) (by omega)]
      have hm : (k * P + r) % P = r - P := by
        rw [Nat.mul_comm, Nat.mul_add_mod, Nat.mod_eq_sub_mod h, Nat.mod_eq_of_lt (by omega)]
      rw [hd, hm, if_neg (by omega), Nat.add_sub_cancel, Nat.add_sub_cancel' h]
    · have hr2 : r = 2 * P := by omega
      subst hr2
      have hd : (k * P + 2 * P) / P = k + 2 := by
        rw [← Nat.add_mul, Nat.mul_div_cancel _ hP0]
      have hm : (k * P + 2 * P) % P = 0 := by
        rw [← Nat.add_mul, Nat.mul_mod_left]
      rw [hd, hm, if_neg (by omega), Nat.add_zero, show k + 2 - 1 = k + 1 from by omega, Nat.pow_succ]
      ring

/-- Every magnitude has the form of `magUnits_form`. -/
theorem mag_form (f : Sfmt) (m : Nat) :
    ∃ k r, m = k * 2 ^ (f.prec - 1) + r ∧ r < 2 * 2 ^ (f.prec - 1) ∧ (k = 0 ∨ 2 ^ (f.prec - 1) ≤ r) ∧
      magUnits f m = r * 2 ^ k := by
  generalize hP : 2 ^ (f.prec - 1) = P
  have hP0 : 0 < P := hP ▸ Nat.two_pow_pos _
  have hdm := Nat.div_add_mod m P
  have hlt := Nat.mod_lt m hP0
  rcases Nat.eq_zero_or_pos (m / P) with h0 | hpos
  · refine ⟨0, m, by omega, ?_, Or.inl rfl, ?_⟩
    · rw [h0] at hdm; omega
    · rw [magUnits, hP, if_pos h0]; simp
  · refine ⟨m / P - 1, P + m % P, ?_, by omega, Or.inr (by omega), ?_⟩
    · have : (m / P - 1) * P + P = P * (m / P) := by
        rw [← Nat.succ_mul, Nat.succ_eq_add_one, Nat.sub_add_cancel hpos, Nat.mul_comm]
      omega
    · rw [magUnits, hP, if_neg (by omega)]

/-- A value at or above `2^(prec-1)` units of `2^k` is a whole number of units of `2^k`. -/
theorem magUnits_dvd (f : Sfmt) {k m : Nat} (h : 2 ^ (f.prec - 1) * 2 ^ k ≤ magUnits f m) : 2 ^ k ∣ magUnits f m := by
  obtain ⟨k', r, -, hr, -, hu⟩ := mag_form f m
  rw [hu] at h ⊢
  rcases Nat.lt_or_ge k' k with hlt | hge
  · exfalso
    obtain ⟨d, rfl⟩ : ∃ d, k = k' + 1 + d := ⟨k - (k' + 1), by omega⟩
    have h1 : r * 2 ^ k' < 2 * 2 ^ (f.prec - 1) * 2 ^ k' := Nat.mul_lt_mul_of_pos_right hr (Nat.two_pow_pos _)
    have h2 : 2 * 2 ^ (f.prec - 1) * 2 ^ k' ≤ 2 ^ (f.prec - 1) * 2 ^ (k' + 1 + d) := by
      rw [Nat.pow_add, Nat.pow_succ]
      calc 2 * 2 ^ (f.prec - 1) * 2 ^ k' = 2 ^ (f.prec - 1) * (2 ^ k' * 2 * 1) := by ring
        _ ≤ _ := Nat.mul_le_mul_left _ (Nat.mul_le_mul_left _ (Nat.two_pow_pos d))
    omega
  · exact Dvd.dvd.mul_left (pow_dvd_pow 2 hge) r

/-- A larger magnitude has a larger value. -/
theorem magUnits_strictMono (f : Sfmt) {m m' : Nat} (h : m < m') : magUnits f m < magUnits f m' := by
  generalize hP : 2 ^ (f.prec - 1) = P
  have hP0 : 0 < P := hP ▸ Nat.two_pow_pos _
  have hd := Nat.div_le_div_right (c := P) (Nat.le_of_lt h)
  have h1 := Nat.div_add_mod m P
  have h2 := Nat.div_add_mod m' P
  have hm := Nat.mod_lt m hP0
  rw [magUnits, magUnits, hP]
  by_cases he : m / P = m' / P
  · rw [← he] at h2 ⊢
    split
    · omega
    · exact Nat.mul_lt_mul_of_pos_right (by omega) (Nat.two_pow_pos _)
  · have hlt : m / P < m' / P := Nat.lt_of_le_of_ne hd he
    rw [if_neg (c := m' / P = 0) (Nat.ne_zero_of_lt hlt)]
    have hbig : P * 2 ^ (m' / P - 1) ≤ (P + m' % P) * 2 ^ (m' / P - 1) := Nat.mul_le_mul_right _ (by omega)
    split
    · have hz : m / P = 0 := by assumption
      rw [hz] at h1
      have hp : 0 < 2 ^ (m' / P - 1) := Nat.two_pow_pos _
      have : P * 1 ≤ P * 2 ^ (m' / P - 1) := Nat.mul_le_mul_left _ hp
      omega
    · have hpos : 0 < m / P := Nat.pos_of_ne_zero (by assumption)
      obtain ⟨d, hdd⟩ : ∃ d, m' / P - 1 = (m / P - 1) + 1 + d := ⟨m' / P - 1 - (m / P - 1) - 1, by omega⟩
      have a1 : (P + m % P) * 2 ^ (m / P - 1) < 2 * P * 2 ^ (m / P - 1) :=
        Nat.mul_lt_mul_of_pos_right (by omega) (Nat.two_pow_pos _)
      have a2 : 2 * P * 2 ^ (m / P - 1) ≤ P * 2 ^ (m' / P - 1) := by
        rw [hdd, Nat.pow_add, Nat.pow_succ]
        calc 2 * P * 2 ^ (m / P - 1) = P * (2 ^ (m / P - 1) * 2 * 1) := by ring
          _ ≤ _ := Nat.mul_le_mul_left _ (Nat.mul_le_mul_left _ (Nat.two_pow_pos d))
      omega

/-! ### Rounding -/

/-- Rounding to a whole number gives one of the two neighbours, the nearer one, the even one on a tie. -/
theorem roundHalfEven_cases (n k : Nat) :
    (roundHalfEven n k = n / 2 ^ k ∧ 2 * (n % 2 ^ k) < 2 ^ k) ∨
    (roundHalfEven n k = n / 2 ^ k + 1 ∧ 2 ^ k < 2 * (n % 2 ^ k)) ∨
    (2 * (n % 2 ^ k) = 2 ^ k ∧ roundHalfEven n k % 2 = 0 ∧
      (roundHalfEven n k = n / 2 ^ k ∨ roundHalfEven n k = n / 2 ^ k + 1)) := by
  unfold roundHalfEven
  split
  · left; exact ⟨rfl, by assumption⟩
  · split
    · right; left; exact ⟨rfl, by assumption⟩
    · right; right
      refine ⟨by omega, by omega, ?_⟩
      rcases Nat.mod_two_eq_zero_or_one (n / 2 ^ k) with h | h <;> rw [h] <;> simp

/-- The significand before rounding: below `2^prec`, and at least `2^(prec-1)` when bits are dropped. -/
theorem dropBits_quot (f : Sfmt) (n s : Nat) :
    n / 2 ^ (s + dropBits f (n / 2 ^ s)) < 2 * 2 ^ (f.prec - 1) ∧
    (dropBits f (n / 2 ^ s) = 0 ∨ 2 ^ (f.prec - 1) ≤ n / 2 ^ (s + dropBits f (n / 2 ^ s))) := by
  generalize hq : n / 2 ^ s = q
  have hdiv : ∀ k, n / 2 ^ (s + k) = q / 2 ^ k := fun k => by rw [Nat.pow_add, ← Nat.div_div_eq_div_mul, hq]
  rw [hdiv]
  have hprec : 0 < f.prec := by cases f <;> decide
  have htwo : 2 * 2 ^ (f.prec - 1) = 2 ^ f.prec := by
    rw [Nat.mul_comm, ← Nat.pow_succ]; congr 1; omega
  rw [htwo]
  unfold dropBits
  rcases Nat.eq_zero_or_pos q with h0 | hpos
  · subst h0
    simp only [Nat.log2_zero, Nat.zero_div]
    exact ⟨Nat.two_pow_pos _, Or.inl (by omega)⟩
  · have hlt : q < 2 ^ (Nat.log2 q + 1) := Nat.lt_log2_self
    have hle : 2 ^ Nat.log2 q ≤ q := Nat.log2_self_le (by omega)
    rcases Nat.lt_or_ge (Nat.log2 q + 1) (f.prec + 1) with h | h
    · have hk : Nat.log2 q + 1 - f.prec = 0 := by omega
      rw [hk]
      refine ⟨?_, Or.inl rfl⟩
      rw [Nat.pow_zero, Nat.div_one]
      exact Nat.lt_of_lt_of_le hlt (Nat.pow_le_pow_right (by decide) (by omega))
    · generalize hk : Nat.log2 q + 1 - f.prec = k
      refine ⟨?_, Or.inr ?_⟩
      · rw [Nat.div_lt_iff_lt_mul (Nat.two_pow_pos _), ← Nat.pow_add]
        rwa [show f.prec + k = Nat.log2 q + 1 by omega]
      · rw [Nat.le_div_iff_mul_le (Nat.two_pow_pos _), ← Nat.pow_add]
        rwa [show f.prec - 1 + k = Nat.log2 q by omega]

/-- The rounded significand is at most `2^prec`, and at least `2^(prec-1)` when bits are dropped. -/
theorem round_bounds (f : Sfmt) (n s : Nat) :
    roundHalfEven n (s + dropBits f (n / 2 ^ s)) ≤ 2 * 2 ^ (f.prec - 1) ∧
    (dropBits f (n / 2 ^ s) = 0 ∨ 2 ^ (f.prec - 1) ≤ roundHalfEven n (s + dropBits f (n / 2 ^ s))) := by
  obtain ⟨h1, h2⟩ := dropBits_quot f n s
  rcases roundHalfEven_cases n (s + dropBits f (n / 2 ^ s)) with ⟨h, -⟩ | ⟨h, -⟩ | ⟨-, -, h | h⟩ <;> rw [h] <;> omega

/-- The value rounding gives, with no bound on the exponent. -/
theorem magUnits_roundRaw (f : Sfmt) (n s : Nat) :
    magUnits f (roundRaw f n s) =
      roundHalfEven n (s + dropBits f (n / 2 ^ s)) * 2 ^ dropBits f (n / 2 ^ s) :=
  magUnits_form f (round_bounds f n s).1 (round_bounds f n s).2

theorem roundMag_of_lt {f : Sfmt} {n s : Nat} (h : roundMag f n s < f.infMag) : roundMag f n s = roundRaw f n s := by
  unfold roundMag at h ⊢
  omega

theorem roundMag_of_raw {f : Sfmt} {n s : Nat} (h : roundRaw f n s < f.infMag) : roundMag f n s = roundRaw f n s := by
  unfold roundMag
  omega

theorem two_pow_prec_even (f : Sfmt) (k : Nat) : k * 2 ^ (f.prec - 1) % 2 = 0 := by
  rw [Nat.mul_mod, show 2 ^ (f.prec - 1) % 2 = 0 by cases f <;> decide]
  simp

/-- Of the values representable at this precision, rounding gives a nearest one, and on a tie with another one the one
whose last bit is 0 (R14). -/
theorem roundRaw_nearest (f : Sfmt) (n s m : Nat) :
    (((magUnits f (roundRaw f n s) * 2 ^ s : Nat) : Int) - n).natAbs ≤
      (((magUnits f m * 2 ^ s : Nat) : Int) - n).natAbs ∧
    ((((magUnits f (roundRaw f n s) * 2 ^ s : Nat) : Int) - n).natAbs =
        (((magUnits f m * 2 ^ s : Nat) : Int) - n).natAbs →
      magUnits f m ≠ magUnits f (roundRaw f n s) → roundRaw f n s % 2 = 0) := by
  rw [magUnits_roundRaw]
  have heven : roundRaw f n s % 2 = roundHalfEven n (s + dropBits f (n / 2 ^ s)) % 2 := by
    have := two_pow_prec_even f (dropBits f (n / 2 ^ s))
    unfold roundRaw
    omega
  rw [heven]
  have hq := (dropBits_quot f n s).2
  have hc := roundHalfEven_cases n (s + dropBits f (n / 2 ^ s))
  generalize dropBits f (n / 2 ^ s) = k at *
  generalize roundHalfEven n (s + k) = r at *
  generalize hqq : n / 2 ^ (s + k) = q at *
  have hn := Nat.div_add_mod n (2 ^ (s + k))
  have hlt := Nat.mod_lt n (Nat.two_pow_pos (s + k))
  rw [hqq] at hn
  generalize hrem : n % 2 ^ (s + k) = rem at *
  have hD : ∀ x, x * 2 ^ k * 2 ^ s = 2 ^ (s + k) * x := fun x => by rw [Nat.pow_add]; ring
  have hV : magUnits f m ≤ q * 2 ^ k ∨ (q + 1) * 2 ^ k ≤ magUnits f m := by
    rcases Nat.lt_or_ge (q * 2 ^ k) (magUnits f m) with h | h
    · right
      have hdv : 2 ^ k ∣ magUnits f m := by
        rcases hq with hk | hk
        · rw [hk]; exact one_dvd _
        · exact magUnits_dvd f (Nat.le_of_lt (Nat.lt_of_le_of_lt (Nat.mul_le_mul_right _ hk) h))
      obtain ⟨d, hd⟩ := hdv
      rw [hd, Nat.mul_comm (2 ^ k)] at h ⊢
      exact Nat.mul_le_mul_right _ (Nat.lt_of_mul_lt_mul_right h)
    · left; exact h
  have hV' : magUnits f m * 2 ^ s ≤ 2 ^ (s + k) * q ∨ 2 ^ (s + k) * (q + 1) ≤ magUnits f m * 2 ^ s := by
    rcases hV with h | h
    · left; rw [← hD]; exact Nat.mul_le_mul_right _ h
    · right; rw [← hD]; exact Nat.mul_le_mul_right _ h
  have hne : magUnits f m ≠ r * 2 ^ k → magUnits f m * 2 ^ s ≠ 2 ^ (s + k) * r := by
    intro h he
    rw [← hD] at he
    exact h (Nat.eq_of_mul_eq_mul_right (Nat.two_pow_pos s) he)
  rw [hD]
  rw [Nat.mul_succ] at hV'
  generalize magUnits f m * 2 ^ s = V at *
  generalize hDD : 2 ^ (s + k) = D at *
  refine ⟨?_, fun heq hneq => ?_⟩
  · rcases hc with ⟨rfl, h⟩ | ⟨rfl, h⟩ | ⟨h, -, rfl | rfl⟩ <;> (try rw [Nat.mul_succ]) <;> omega
  · have hneq' := hne hneq
    rcases hc with ⟨rfl, h⟩ | ⟨rfl, h⟩ | ⟨h, h2, -⟩
    · exfalso; omega
    · exfalso; rw [Nat.mul_succ] at heq hneq'; omega
    · exact h2

/-- A value of at most `prec` significant bits is representable. -/
theorem representable (f : Sfmt) {r : Nat} (hr : r < 2 * 2 ^ (f.prec - 1)) (k : Nat) :
    ∃ m, magUnits f m = r * 2 ^ k := by
  induction k generalizing r with
  | zero => exact ⟨0 * 2 ^ (f.prec - 1) + r, magUnits_form f (Nat.le_of_lt hr) (Or.inl rfl)⟩
  | succ k ih =>
    rcases Nat.lt_or_ge r (2 ^ (f.prec - 1)) with h | h
    · obtain ⟨m, hm⟩ := ih (r := 2 * r) (by omega)
      exact ⟨m, by rw [hm, Nat.pow_succ]; ring⟩
    · exact ⟨(k + 1) * 2 ^ (f.prec - 1) + r, magUnits_form f (Nat.le_of_lt hr) (Or.inr h)⟩

theorem magUnits_injective {f : Sfmt} {m m' : Nat} (h : magUnits f m = magUnits f m') : m = m' := by
  rcases Nat.lt_trichotomy m m' with hlt | heq | hgt
  · exact absurd h (Nat.ne_of_lt (magUnits_strictMono f hlt))
  · exact heq
  · exact absurd h.symm (Nat.ne_of_lt (magUnits_strictMono f hgt))

theorem magUnits_lt_iff {f : Sfmt} {m m' : Nat} : magUnits f m < magUnits f m' ↔ m < m' := by
  refine ⟨fun h => ?_, magUnits_strictMono f⟩
  rcases Nat.lt_trichotomy m m' with hlt | heq | hgt
  · exact hlt
  · subst heq; omega
  · have := magUnits_strictMono f hgt; omega

@[simp] theorem magUnits_zero (f : Sfmt) : magUnits f 0 = 0 := by simp [magUnits]

/-- A representable value is rounded to itself. -/
theorem roundRaw_exact (f : Sfmt) (m : Nat) : roundRaw f (magUnits f m) 0 = m := by
  have h := (roundRaw_nearest f (magUnits f m) 0 m).1
  simp only [Nat.pow_zero, Nat.mul_one, Int.sub_self, Int.natAbs_zero] at h
  exact magUnits_injective (f := f) (by omega)

theorem magUnits_infMag (f : Sfmt) : magUnits f f.infMag = 2 ^ (f.prec - 1) * 2 ^ (f.maxExp - 1) := by
  have h := magUnits_form f (k := f.maxExp - 1) (r := 2 ^ (f.prec - 1)) (by omega) (Or.inr (Nat.le_refl _))
  rw [← h, Sfmt.infMag]
  congr 1
  rw [← Nat.succ_mul]
  congr 1
  cases f <;> rfl

/-- Rounding overflows exactly from half a unit in the last place above the largest finite value on (R14). -/
theorem infMag_le_roundRaw (f : Sfmt) (n s : Nat) :
    f.infMag ≤ roundRaw f n s ↔ (2 ^ (f.prec + 1) - 1) * 2 ^ (f.maxExp - 3) * 2 ^ s ≤ n := by
  have hP : 2 ^ (f.prec + 1) = 4 * 2 ^ (f.prec - 1) := by cases f <;> decide
  have hM : 2 ^ (f.maxExp - 1) = 4 * 2 ^ (f.maxExp - 3) := by
    rw [show f.maxExp - 1 = f.maxExp - 3 + 2 by cases f <;> rfl, Nat.pow_add]; ring
  have hM2 : 2 ^ (f.maxExp - 2) = 2 * 2 ^ (f.maxExp - 3) := by
    rw [show f.maxExp - 2 = f.maxExp - 3 + 1 by cases f <;> rfl, Nat.pow_add]; ring
  have hinf := magUnits_infMag f
  have hmax : magUnits f (f.infMag - 1) = (2 * 2 ^ (f.prec - 1) - 1) * 2 ^ (f.maxExp - 2) := by
    rw [← magUnits_form f (k := f.maxExp - 2) (r := 2 * 2 ^ (f.prec - 1) - 1) (by omega)
      (Or.inr (by cases f <;> decide))]
    congr 1
    have : f.infMag = (f.maxExp - 2) * 2 ^ (f.prec - 1) + 2 * 2 ^ (f.prec - 1) := by
      rw [← Nat.add_mul, Sfmt.infMag]
      congr 1
      cases f <;> rfl
    have := Nat.two_pow_pos (f.prec - 1)
    omega
  have hodd : (f.infMag - 1) % 2 = 1 := by cases f <;> decide
  have hpos := infMag_pos f
  have n1 := roundRaw_nearest f n s (f.infMag - 1)
  have n2 := roundRaw_nearest f n s f.infMag
  rw [hinf, hM] at n2
  rw [hmax, hM2] at n1
  rw [hP]
  have hiff : f.infMag ≤ roundRaw f n s ↔ magUnits f f.infMag ≤ magUnits f (roundRaw f n s) := by
    rw [← Nat.not_lt, ← Nat.not_lt, magUnits_lt_iff]
  have hiff2 : magUnits f (roundRaw f n s) ≤ magUnits f (f.infMag - 1) ↔ roundRaw f n s ≤ f.infMag - 1 := by
    rw [← Nat.not_lt, magUnits_lt_iff, Nat.not_lt]
  have hinj : magUnits f (roundRaw f n s) = magUnits f (f.infMag - 1) → roundRaw f n s = f.infMag - 1 :=
    magUnits_injective
  rw [hinf, hM] at hiff
  rw [hmax, hM2] at hiff2 hinj
  have hP1 : 1 ≤ 2 ^ (f.prec - 1) := Nat.two_pow_pos _
  have hH : 1 ≤ 2 ^ (f.maxExp - 3) := Nat.two_pow_pos _
  have hS : 1 ≤ 2 ^ s := Nat.two_pow_pos _
  generalize 2 ^ (f.prec - 1) = P at *
  generalize 2 ^ (f.maxExp - 3) = H at *
  generalize 2 ^ s = S at *
  obtain ⟨P', rfl⟩ : ∃ P', P = P' + 1 := ⟨P - 1, by omega⟩
  have e1 : (4 * (P' + 1) - 1) * H * S = 4 * (P' * H * S) + 3 * (H * S) := by
    rw [show 4 * (P' + 1) - 1 = 4 * P' + 3 by omega]; ring
  have e2 : (P' + 1) * (4 * H) * S = 4 * (P' * H * S) + 4 * (H * S) := by ring
  have e3 : (2 * (P' + 1) - 1) * (2 * H) * S = 4 * (P' * H * S) + 2 * (H * S) := by
    rw [show 2 * (P' + 1) - 1 = 2 * P' + 1 by omega]; ring
  have hHS : 1 ≤ H * S := Nat.mul_pos hH hS
  rw [e1]
  rw [e3] at n1
  rw [e2] at n2
  generalize hU : magUnits f (roundRaw f n s) = U at *
  have c1 : (P' + 1) * (4 * H) ≤ U ↔ 4 * (P' * H * S) + 4 * (H * S) ≤ U * S := by
    rw [← e2]; exact (Nat.mul_le_mul_right_iff (by omega)).symm
  have c2 : U ≤ (2 * (P' + 1) - 1) * (2 * H) ↔ U * S ≤ 4 * (P' * H * S) + 2 * (H * S) := by
    rw [← e3]; exact (Nat.mul_le_mul_right_iff (by omega)).symm
  have c3 : U = (2 * (P' + 1) - 1) * (2 * H) ↔ U * S = 4 * (P' * H * S) + 2 * (H * S) := by
    rw [← e3]; exact (Nat.mul_left_inj (by omega)).symm
  constructor
  · intro h
    have := c1.mp (hiff.mp h)
    omega
  · intro h
    by_contra hlt
    have h2 := c2.mp (hiff2.mpr (by omega))
    have h3 : U * S = 4 * (P' * H * S) + 2 * (H * S) := by omega
    have h4 := hinj (c3.mpr h3)
    have h5 : (P' + 1) * (4 * H) ≠ U := by
      intro he
      have := c1.mp (by omega)
      omega
    have := n2.2 (by omega) h5
    omega

/-! ### The split of a delay length (R66) -/

theorem unitsPerOne_pos (f : Sfmt) : 0 < unitsPerOne f := Nat.two_pow_pos _

/-- The fractional part of a representable value is representable. -/
theorem frac_representable (f : Sfmt) (m : Nat) : ∃ m', magUnits f m' = magUnits f m % unitsPerOne f := by
  obtain ⟨k, r, -, hr, -, hu⟩ := mag_form f m
  rw [hu]
  unfold unitsPerOne
  rcases Nat.lt_or_ge k f.unitExp with h | h
  · obtain ⟨d, hd⟩ : ∃ d, f.unitExp = d + k := ⟨f.unitExp - k, by omega⟩
    rw [hd, Nat.pow_add, Nat.mul_mod_mul_right]
    exact representable f (Nat.lt_of_le_of_lt (Nat.mod_le _ _) hr) k
  · refine ⟨0, ?_⟩
    rw [magUnits_zero, Nat.mod_eq_zero_of_dvd (Dvd.dvd.mul_left (pow_dvd_pow 2 h) r)]

theorem unitsPerOne_lt_inf (f : Sfmt) : unitsPerOne f < magUnits f f.infMag := by
  rw [magUnits_infMag, unitsPerOne, ← Nat.pow_add]
  exact Nat.pow_lt_pow_right (by decide) (by cases f <;> decide)

/-- The stored fraction has exactly the fractional value, below 1, with sign `+` (R66). -/
theorem delayFrac_spec (f : Sfmt) (d : Sample) :
    magUnits f (magBits f (delayFrac f d)) = magUnits f (magBits f d) % unitsPerOne f ∧
    signBit f (delayFrac f d) = false ∧ isFinite f (delayFrac f d) = true ∧ fits f (delayFrac f d) = true := by
  obtain ⟨m, hm⟩ := frac_representable f (magBits f d)
  have hlt : m < f.infMag := by
    rw [← magUnits_lt_iff (f := f), hm]
    exact Nat.lt_trans (Nat.mod_lt _ (unitsPerOne_pos f)) (unitsPerOne_lt_inf f)
  have hr : roundMag f (magUnits f (magBits f d) % unitsPerOne f) 0 = m := by
    have := roundRaw_exact f m
    rw [← hm, roundMag, this]
    omega
  have hw : m < 2 ^ (f.width - 1) := Nat.lt_trans hlt (infMag_lt' f)
  unfold delayFrac
  rw [hr]
  refine ⟨by rw [magBits_pack hw, hm], signBit_pack hw, ?_, fits_pack hw⟩
  rw [isFinite, magBits_pack hw]
  exact decide_eq_true hlt

/-- The stored integer part of a valid length is its integer part. -/
theorem delayInt_spec {f : Sfmt} {c : Nat} {d : Sample} (hc : c ≤ 2 ^ 32) (h : delayValid f c d = true) :
    (delayInt f d).toNat = magUnits f (magBits f d) / unitsPerOne f ∧ (delayInt f d).toNat < c ∧
      (magUnits f (magBits f d) % unitsPerOne f ≠ 0 → (delayInt f d).toNat + 1 < c) := by
  simp only [delayValid, Bool.and_eq_true, decide_eq_true_eq] at h
  have hle := h.2
  have hp := unitsPerOne_pos f
  have hdm := Nat.div_add_mod (magUnits f (magBits f d)) (unitsPerOne f)
  unfold delayInt
  generalize magUnits f (magBits f d) = n at *
  generalize unitsPerOne f = D at *
  have hlt : n / D < c := by
    rw [Nat.div_lt_iff_lt_mul hp]
    omega
  have he : (BitVec.ofNat 32 (n / D)).toNat = n / D := by
    rw [BitVec.toNat_ofNat, Nat.mod_eq_of_lt (by omega)]
  rw [he]
  refine ⟨rfl, hlt, fun hr => ?_⟩
  by_contra hge
  have hc' : c = n / D + 1 := by omega
  rw [hc', Nat.add_mul, Nat.one_mul, Nat.mul_comm] at hle
  omega

/-! ### The operations on finite samples -/

theorem magBits_lt (f : Sfmt) (x : Sample) : magBits f x < 2 ^ (f.width - 1) := Nat.mod_lt _ (Nat.two_pow_pos _)

@[simp] theorem magBits_negate (f : Sfmt) (x : Sample) : magBits f (negate f x) = magBits f x :=
  magBits_pack (magBits_lt f x)

@[simp] theorem signBit_negate (f : Sfmt) (x : Sample) : signBit f (negate f x) = !signBit f x :=
  signBit_pack (magBits_lt f x)

@[simp] theorem isNaN_negate (f : Sfmt) (x : Sample) : isNaN f (negate f x) = isNaN f x := by
  rw [isNaN, isNaN, magBits_negate]

@[simp] theorem isInf_negate (f : Sfmt) (x : Sample) : isInf f (negate f x) = isInf f x := by
  rw [isInf, isInf, magBits_negate]

@[simp] theorem isFinite_negate (f : Sfmt) (x : Sample) : isFinite f (negate f x) = isFinite f x := by
  rw [isFinite, isFinite, magBits_negate]

/-- Inverting the sign bit negates the value. -/
@[simp] theorem value_negate (f : Sfmt) (x : Sample) : value f (negate f x) = -value f x := by
  simp only [value, magBits_negate, signBit_negate]
  cases signBit f x <;> simp

theorem natAbs_value (f : Sfmt) (x : Sample) : (value f x).natAbs = magUnits f (magBits f x) := by
  rw [value]
  split <;> simp

theorem value_pack {f : Sfmt} {b : Bool} {m : Nat} (h : m < 2 ^ (f.width - 1)) :
    value f (pack f b m) = if b then -(magUnits f m : Int) else (magUnits f m : Int) := by
  rw [value, signBit_pack h, magBits_pack h]

/-- A finite sample is neither a NaN nor an infinity. -/
theorem finite_cases {f : Sfmt} {x : Sample} (h : isFinite f x = true) : isNaN f x = false ∧ isInf f x = false := by
  simp only [isFinite, isNaN, isInf, decide_eq_true_eq, decide_eq_false_iff_not] at h ⊢
  omega

/-- R14: the sum of finite samples is the exact sum, rounded. -/
theorem fpAdd_finite {f : Sfmt} {n : Nat} {a b : Sample} (ha : isFinite f a = true) (hb : isFinite f b = true) :
    fpAdd f n a b =
      pack f (if value f a + value f b = 0 then signBit f a && signBit f b else value f a + value f b < 0)
        (roundMag f (value f a + value f b).natAbs 0) := by
  simp [fpAdd, finite_cases ha, finite_cases hb]

/-- R14: the product of finite samples is the exact product, rounded. -/
theorem fpMul_finite {f : Sfmt} {n : Nat} {a b : Sample} (ha : isFinite f a = true) (hb : isFinite f b = true) :
    fpMul f n a b = pack f (signBit f a != signBit f b)
      (roundMag f (magUnits f (magBits f a) * magUnits f (magBits f b)) f.unitExp) := by
  simp [fpMul, finite_cases ha, finite_cases hb]

/-- R81: `round_S` of a finite value is the value, rounded. -/
theorem roundS_finite {nan : BitVec 64} {x : Word} (h : isFinite .binary64 x = true) :
    roundS .binary32 nan x = pack .binary32 (signBit .binary64 x)
      (roundMag .binary32 (magUnits .binary64 (magBits .binary64 x)) 925) := by
  simp [roundS, finite_cases h, Sfmt.unitExp]

/-- Rounding gives the infinity exactly from the threshold on (R14). -/
theorem roundMag_eq_infMag (f : Sfmt) (n s : Nat) :
    roundMag f n s = f.infMag ↔ (2 ^ (f.prec + 1) - 1) * 2 ^ (f.maxExp - 3) * 2 ^ s ≤ n := by
  rw [← infMag_le_roundRaw, roundMag]
  omega

/-- A packed magnitude up to the infinity's is no NaN. -/
theorem isNaN_pack {f : Sfmt} {b : Bool} {m : Nat} (h : m ≤ f.infMag) : isNaN f (pack f b m) = false := by
  have := infMag_lt' f
  rw [isNaN, magBits_pack (by omega), decide_eq_false_iff_not]
  omega

theorem isInf_pack_infMag (f : Sfmt) (b : Bool) : isInf f (pack f b f.infMag) = true := by
  rw [isInf, magBits_pack (infMag_lt' f), decide_eq_true_eq]

theorem isInf_pack_roundMag {f : Sfmt} {b : Bool} {n s : Nat} :
    isInf f (pack f b (roundMag f n s)) = true ↔ roundMag f n s = f.infMag := by
  rw [isInf, magBits_pack (roundMag_lt _ _ _), decide_eq_true_eq]

theorem isFinite_pack_roundMag {f : Sfmt} {b : Bool} {n s : Nat} :
    isFinite f (pack f b (roundMag f n s)) = true ↔ roundMag f n s < f.infMag := by
  rw [isFinite, magBits_pack (roundMag_lt _ _ _), decide_eq_true_eq]

/-- A whole number `z` of units of `2^-s`, rounded by its magnitude and given its sign, is a nearest sample to it; where
another sample is equally near, the last significand bit is 0 (R14). -/
theorem pack_roundMag_nearest (f : Sfmt) (z : Int) (s : Nat) (neg : Bool) (hneg : z ≠ 0 → neg = decide (z < 0)) (c : Sample)
    (hfin : roundMag f z.natAbs s < f.infMag) :
    let r := pack f neg (roundMag f z.natAbs s)
    (value f r * 2 ^ s - z).natAbs ≤ (value f c * 2 ^ s - z).natAbs ∧
    ((value f r * 2 ^ s - z).natAbs = (value f c * 2 ^ s - z).natAbs → value f c ≠ value f r → magBits f r % 2 = 0) := by
  intro r
  have hr := roundMag_of_lt hfin
  have hl : roundMag f z.natAbs s < 2 ^ (f.width - 1) := roundMag_lt _ _ _
  have hval : value f r = if neg then -(magUnits f (roundRaw f z.natAbs s) : Int) else (magUnits f (roundRaw f z.natAbs s) : Int) := by
    rw [value_pack hl, hr]
  have hmag : magBits f r = roundRaw f z.natAbs s := by rw [magBits_pack hl, hr]
  obtain ⟨n1, t1⟩ := roundRaw_nearest f z.natAbs s (magBits f c)
  obtain ⟨n0, t0⟩ := roundRaw_nearest f z.natAbs s 0
  rw [hmag]
  have hc := natAbs_value f c
  set M := magUnits f (roundRaw f z.natAbs s) with hM
  set C := magUnits f (magBits f c) with hC
  have hP : (0:Int) < 2 ^ s := by positivity
  push_cast at n1 t1 n0 t0
  simp only [magUnits_zero] at n0 t0
  rcases lt_trichotomy z 0 with h | h | h
  · have hn : neg = true := by rw [hneg (by omega)]; simp [h]
    subst hn
    simp only [if_true] at hval
    rw [hval]
    have hzz : (z.natAbs : Int) = -z := by omega
    simp only [abs_of_neg h] at n1 t1 n0 t0
    have e1 : (-(M:Int) * 2 ^ s - z).natAbs = ((M:Int) * 2 ^ s - -z).natAbs := by
      rw [show -(M:Int) * 2 ^ s - z = -((M:Int) * 2 ^ s - -z) by ring, Int.natAbs_neg]
    rw [e1]
    rcases Int.natAbs_eq (value f c) with hv | hv
    · -- c ≥ 0
      rw [hc] at hv
      rw [hv]
      have hCs : (0:Int) ≤ (C:Int) * 2 ^ s := by positivity
      have e2 : ((C:Int) * 2 ^ s - z).natAbs = ((C:Int)*2^s + -z).natAbs := by ring_nf
      have hle0 : ((M:Int) * 2 ^ s - -z).natAbs ≤ ((0:Int) - -z).natAbs := by simpa using n0
      refine ⟨by omega, fun he hne => ?_⟩
      have : (C:Int) * 2 ^ s = 0 := by omega
      have hC0 : (C:Int) = 0 := by
        rcases mul_eq_zero.mp this with h | h
        · exact h
        · omega
      apply t0
      · simp only [Nat.cast_zero, zero_mul]; rw [hC0] at he; simp at he ⊢; omega
      · intro h0; apply hne
        have hMM : M = 0 := h0.symm
        rw [hC0, hMM]; simp
    · rw [hc] at hv
      rw [hv]
      have e2 : (-(C:Int) * 2 ^ s - z).natAbs = ((C:Int) * 2 ^ s - -z).natAbs := by
        rw [show -(C:Int) * 2 ^ s - z = -((C:Int) * 2 ^ s - -z) by ring, Int.natAbs_neg]
      rw [e2]
      refine ⟨n1, fun he hne => t1 he (fun h0 => hne ?_)⟩
      rw [h0]
  · subst h
    have h0 : roundRaw f 0 s = 0 := by
      have := n0
      simp at this
      have h' : M = 0 := by
        exact this
      exact magUnits_injective (by rw [magUnits_zero]; exact h')
    rw [hval]
    have : M = 0 := by rw [hM]; simp only [Int.natAbs_zero]; rw [h0]; simp
    rw [this]
    simp [h0]
  · have hn : neg = false := by rw [hneg (by omega)]; simp; omega
    subst hn
    simp only [Bool.false_eq_true, if_false] at hval
    rw [hval]
    simp only [abs_of_pos h] at n1 t1 n0 t0
    rcases Int.natAbs_eq (value f c) with hv | hv
    · rw [hc] at hv
      rw [hv]
      refine ⟨n1, fun he hne => t1 he (fun h0 => hne ?_)⟩
      rw [h0]
    · rw [hc] at hv
      rw [hv]
      have hCs : (0:Int) ≤ (C:Int) * 2 ^ s := by positivity
      have e2 : (-(C:Int) * 2 ^ s - z).natAbs = ((C:Int)*2^s + z).natAbs := by
        rw [show -(C:Int) * 2 ^ s - z = -((C:Int) * 2 ^ s + z) by ring, Int.natAbs_neg]
      rw [e2]
      have hle0 : ((M:Int) * 2 ^ s - z).natAbs ≤ ((0:Int) - z).natAbs := by simpa using n0
      refine ⟨by omega, fun he hne => ?_⟩
      have : (C:Int) * 2 ^ s = 0 := by omega
      have hC0 : (C:Int) = 0 := by
        rcases mul_eq_zero.mp this with h | h
        · exact h
        · omega
      apply t0
      · simp only [Nat.cast_zero, zero_mul]; rw [hC0] at he; simp at he ⊢; omega
      · intro h0; apply hne
        have hMM : M = 0 := h0.symm
        rw [hC0, hMM]; simp

end Sys2Proof.Machine
end

