-- ==== Sys2Proof/Laws/State.lean ====
section
/-! SUPPORT. What each named update of the state does to each field, true by unfolding once. -/

namespace Sys2Proof.Machine

variable (s : State)

@[simp] theorem State.setUnit_sfmt (u : BitVec 8) (sl : Slot) : (s.setUnit u sl).sfmt = s.sfmt := rfl
@[simp] theorem State.setUnit_chain (u : BitVec 8) (sl : Slot) : (s.setUnit u sl).chain = s.chain := rfl
@[simp] theorem State.setUnit_units (u : BitVec 8) (sl : Slot) : (s.setUnit u sl).units = s.units.set u.toNat sl := rfl
@[simp] theorem State.setUnit_ports (u : BitVec 8) (sl : Slot) : (s.setUnit u sl).ports = s.ports := rfl
@[simp] theorem State.setUnit_resp (u : BitVec 8) (sl : Slot) : (s.setUnit u sl).resp = s.resp := rfl
@[simp] theorem State.setUnit_draws (u : BitVec 8) (sl : Slot) : (s.setUnit u sl).draws = s.draws := rfl
@[simp] theorem State.setUnit_taken (u : BitVec 8) (sl : Slot) : (s.setUnit u sl).taken = s.taken := rfl
@[simp] theorem State.setUnit_trace (u : BitVec 8) (sl : Slot) : (s.setUnit u sl).trace = s.trace := rfl

@[simp] theorem State.respond_sfmt : s.respond.sfmt = s.sfmt := rfl
@[simp] theorem State.respond_chain : s.respond.chain = s.chain := rfl
@[simp] theorem State.respond_units : s.respond.units = s.units := rfl
@[simp] theorem State.respond_ports : s.respond.ports = s.ports := rfl
@[simp] theorem State.respond_resp : s.respond.resp = some { status := .ok, data := 0 } := rfl
@[simp] theorem State.respond_draws : s.respond.draws = s.draws := rfl
@[simp] theorem State.respond_taken : s.respond.taken = s.taken := rfl
@[simp] theorem State.respond_trace : s.respond.trace = s.trace := rfl

@[simp] theorem State.respondSample_sfmt (v : Sample) : (s.respondSample v).sfmt = s.sfmt := rfl
@[simp] theorem State.respondSample_chain (v : Sample) : (s.respondSample v).chain = s.chain := rfl
@[simp] theorem State.respondSample_units (v : Sample) : (s.respondSample v).units = s.units := rfl
@[simp] theorem State.respondSample_ports (v : Sample) : (s.respondSample v).ports = s.ports := rfl
@[simp] theorem State.respondSample_resp (v : Sample) : (s.respondSample v).resp = some { status := .ok, data := lowBits s.sfmt v } := rfl
@[simp] theorem State.respondSample_draws (v : Sample) : (s.respondSample v).draws = s.draws := rfl
@[simp] theorem State.respondSample_taken (v : Sample) : (s.respondSample v).taken = s.taken := rfl
@[simp] theorem State.respondSample_trace (v : Sample) : (s.respondSample v).trace = s.trace := rfl

@[simp] theorem State.raise_sfmt (e : Status) : (s.raise e).sfmt = s.sfmt := rfl
@[simp] theorem State.raise_chain (e : Status) : (s.raise e).chain = s.chain := rfl
@[simp] theorem State.raise_units (e : Status) : (s.raise e).units = s.units := rfl
@[simp] theorem State.raise_ports (e : Status) : (s.raise e).ports = s.ports := rfl
@[simp] theorem State.raise_resp (e : Status) : (s.raise e).resp = some { status := e, data := 0 } := rfl
@[simp] theorem State.raise_draws (e : Status) : (s.raise e).draws = s.draws := rfl
@[simp] theorem State.raise_taken (e : Status) : (s.raise e).taken = s.taken := rfl
@[simp] theorem State.raise_trace (e : Status) : (s.raise e).trace = s.trace := rfl

@[simp] theorem State.issue_sfmt (p : Nat) (c : Command) : (s.issue p c).sfmt = s.sfmt := rfl
@[simp] theorem State.issue_chain (p : Nat) (c : Command) : (s.issue p c).chain = s.chain := rfl
@[simp] theorem State.issue_units (p : Nat) (c : Command) : (s.issue p c).units = s.units := rfl
@[simp] theorem State.issue_ports (p : Nat) (c : Command) : (s.issue p c).ports = s.ports.modify p fun q => { q with queue := q.queue ++ [c] } := rfl
@[simp] theorem State.issue_resp (p : Nat) (c : Command) : (s.issue p c).resp = s.resp := rfl
@[simp] theorem State.issue_draws (p : Nat) (c : Command) : (s.issue p c).draws = s.draws := rfl
@[simp] theorem State.issue_taken (p : Nat) (c : Command) : (s.issue p c).taken = s.taken := rfl
@[simp] theorem State.issue_trace (p : Nat) (c : Command) : (s.issue p c).trace = s.trace := rfl

@[simp] theorem State.issueFirst_sfmt (p : Nat) (c : Command) : (s.issueFirst p c).sfmt = s.sfmt := rfl
@[simp] theorem State.issueFirst_chain (p : Nat) (c : Command) : (s.issueFirst p c).chain = s.chain := rfl
@[simp] theorem State.issueFirst_units (p : Nat) (c : Command) : (s.issueFirst p c).units = s.units := rfl
@[simp] theorem State.issueFirst_ports (p : Nat) (c : Command) : (s.issueFirst p c).ports = s.ports.modify p fun q => { q with queue := c :: q.queue } := rfl
@[simp] theorem State.issueFirst_resp (p : Nat) (c : Command) : (s.issueFirst p c).resp = s.resp := rfl
@[simp] theorem State.issueFirst_draws (p : Nat) (c : Command) : (s.issueFirst p c).draws = s.draws := rfl
@[simp] theorem State.issueFirst_taken (p : Nat) (c : Command) : (s.issueFirst p c).taken = s.taken := rfl
@[simp] theorem State.issueFirst_trace (p : Nat) (c : Command) : (s.issueFirst p c).trace = s.trace := rfl

@[simp] theorem State.take_sfmt (p : Nat) : (s.take p).sfmt = s.sfmt := rfl
@[simp] theorem State.take_chain (p : Nat) : (s.take p).chain = s.chain := rfl
@[simp] theorem State.take_units (p : Nat) : (s.take p).units = s.units := rfl
@[simp] theorem State.take_ports (p : Nat) : (s.take p).ports = s.ports.modify p fun q => { queue := q.queue.tail, since := s.taken + 1 } := rfl
@[simp] theorem State.take_resp (p : Nat) : (s.take p).resp = s.resp := rfl
@[simp] theorem State.take_draws (p : Nat) : (s.take p).draws = s.draws := rfl
@[simp] theorem State.take_taken (p : Nat) : (s.take p).taken = s.taken + 1 := rfl
@[simp] theorem State.take_trace (p : Nat) : (s.take p).trace = s.trace := rfl

theorem State.deliver_eq (p : Nat) (c : Command) (r : Response) (h : s.resp = some r) :
    s.deliver p c = { s with resp := none, trace := s.trace ++ [{ port := p, cmd := c, resp := r }] } := by
  simp [State.deliver, h]

@[simp] theorem State.powerOn_build_sfmt (b : Build) : (State.powerOn b).sfmt = b.sfmt := rfl
@[simp] theorem State.powerOn_chain (b : Build) : (State.powerOn b).chain = b.chain := rfl
@[simp] theorem State.powerOn_units (b : Build) :
    (State.powerOn b).units = b.units.map (powerOnSlot b.sfmt) := rfl
@[simp] theorem State.powerOn_ports (b : Build) :
    (State.powerOn b).ports = List.replicate b.nports { queue := [], since := 0 } := rfl
@[simp] theorem State.powerOn_resp (b : Build) : (State.powerOn b).resp = none := rfl

@[simp] theorem andThen_next {α β : Type} (a : α) (k : α → Res β) : andThen (.next a) k = k a := rfl
@[simp] theorem andThen_fault {α β : Type} (e : Fault) (k : α → Res β) :
    andThen (.fault e : Res α) k = .fault e := rfl
@[simp] theorem andThen_refused {α β : Type} (r : Refusal) (k : α → Res β) :
    andThen (.refused r : Res α) k = .refused r := rfl

/-- A sequence answers exactly when both parts answer. -/
theorem andThen_eq_next {α β : Type} {o : Res α} {k : α → Res β} {b : β} :
    andThen o k = .next b ↔ ∃ a, o = .next a ∧ k a = .next b := by
  cases o <;> simp

end Sys2Proof.Machine
end

