-- ==== Sys2Proof/Laws/Memory.lean ====
section
/-! SUPPORT. The slots of a ring buffer: read after write, and the canonical form (R21, R28, R32; log entry 3). -/

namespace Sys2Proof.Machine

/-- Slots below the least listed index read as unlisted. -/
theorem cellsRead_below {cap lo : Nat} {cs : Cells} (h : cellsWf cap lo cs = true) {i : Nat} (hi : i < lo) :
    cellsRead i cs = 0#64 := by
  induction cs generalizing lo with
  | nil => rfl
  | cons c rest ih =>
    obtain ⟨j, v⟩ := c
    simp only [cellsWf, Bool.and_eq_true, decide_eq_true_eq] at h
    have hij : i ≠ j := by omega
    simp only [cellsRead, hij, if_false]
    exact ih h.2 (by omega)

/-- Slots at or above the capacity read as unlisted. -/
theorem cellsRead_above {cap lo : Nat} {cs : Cells} (h : cellsWf cap lo cs = true) {i : Nat} (hi : cap ≤ i) :
    cellsRead i cs = 0#64 := by
  induction cs generalizing lo with
  | nil => rfl
  | cons c rest ih =>
    obtain ⟨j, v⟩ := c
    simp only [cellsWf, Bool.and_eq_true, decide_eq_true_eq] at h
    have hij : i ≠ j := by omega
    simp only [cellsRead, hij, if_false]
    exact ih h.2

/-- A canonical form from a higher index is one from a lower index. -/
theorem cellsWf_mono {cap lo lo' : Nat} {cs : Cells} (h : cellsWf cap lo cs = true) (hl : lo' ≤ lo) :
    cellsWf cap lo' cs = true := by
  cases cs with
  | nil => rfl
  | cons c rest =>
    obtain ⟨j, v⟩ := c
    simp only [cellsWf, Bool.and_eq_true, decide_eq_true_eq] at h ⊢
    exact ⟨⟨⟨by omega, h.1.1.2⟩, h.1.2⟩, h.2⟩

/-- Read after write at the same slot. -/
theorem cellsRead_write_same {cap lo i : Nat} {v : Sample} {cs : Cells} (h : cellsWf cap lo cs = true) :
    cellsRead i (cellsWrite i v cs) = v := by
  induction cs generalizing lo with
  | nil => by_cases hv : v = 0#64 <;> simp [cellsWrite, cellsRead, hv]
  | cons c rest ih =>
    obtain ⟨j, w⟩ := c
    simp only [cellsWf, Bool.and_eq_true, decide_eq_true_eq] at h
    by_cases hij : i = j
    · by_cases hv : v = 0#64
      · simp only [cellsWrite, hij, hv, if_true]
        exact cellsRead_below h.2 (by omega)
      · simp [cellsWrite, cellsRead, hij, hv]
    · by_cases hlt : i < j
      · by_cases hv : v = 0#64
        · simp only [cellsWrite, hij, hlt, hv, if_true, if_false, cellsRead]
          exact cellsRead_below h.2 (by omega)
        · simp [cellsWrite, cellsRead, hij, hlt, hv]
      · simp only [cellsWrite, hij, hlt, if_false, cellsRead]
        exact ih h.2

/-- A write leaves every other slot alone. -/
theorem cellsRead_write_other {i j : Nat} {v : Sample} {cs : Cells} (hj : j ≠ i) :
    cellsRead j (cellsWrite i v cs) = cellsRead j cs := by
  induction cs with
  | nil => by_cases hv : v = 0#64 <;> simp [cellsWrite, cellsRead, hv, hj]
  | cons c rest ih =>
    obtain ⟨k, w⟩ := c
    by_cases hik : i = k
    · subst hik
      by_cases hv : v = 0#64 <;> simp [cellsWrite, cellsRead, hv, hj]
    · by_cases hlt : i < k
      · by_cases hv : v = 0#64 <;> simp [cellsWrite, cellsRead, hik, hlt, hv, hj]
      · simp only [cellsWrite, hik, hlt, if_false, cellsRead, ih]

/-- A write below the capacity keeps the canonical form. -/
theorem cellsWf_write {cap lo i : Nat} {v : Sample} {cs : Cells} (h : cellsWf cap lo cs = true)
    (hlo : lo ≤ i) (hi : i < cap) : cellsWf cap lo (cellsWrite i v cs) = true := by
  induction cs generalizing lo with
  | nil => by_cases hv : v = 0#64 <;> simp [cellsWrite, cellsWf, hv, hlo, hi]
  | cons c rest ih =>
    obtain ⟨j, w⟩ := c
    have h' := h
    simp only [cellsWf, Bool.and_eq_true, decide_eq_true_eq] at h
    by_cases hij : i = j
    · subst hij
      by_cases hv : v = 0#64
      · simp only [cellsWrite, hv, if_true]
        exact cellsWf_mono h.2 (by omega)
      · simp [cellsWrite, cellsWf, hv, hlo, hi, h.2]
    · by_cases hlt : i < j
      · by_cases hv : v = 0#64
        · simpa only [cellsWrite, hij, hlt, hv, if_true, if_false] using h'
        · simp only [cellsWrite, hij, hlt, hv, if_true, if_false, cellsWf, Bool.and_eq_true, decide_eq_true_eq]
          exact ⟨⟨⟨hlo, hi⟩, by simpa using hv⟩, ⟨⟨⟨by omega, h.1.1.2⟩, h.1.2⟩, h.2⟩⟩
      · simp only [cellsWrite, hij, hlt, if_false, cellsWf, Bool.and_eq_true, decide_eq_true_eq]
        exact ⟨h.1, ih h.2 (by omega)⟩

/-- A write of a sample of the format keeps every listed sample one of the format. -/
theorem cellsFit_write {f : Sfmt} {i : Nat} {v : Sample} {cs : Cells}
    (h : cs.all (fun c => fits f c.2) = true) (hv : fits f v = true) :
    (cellsWrite i v cs).all (fun c => fits f c.2) = true := by
  induction cs with
  | nil => by_cases h0 : v = 0#64 <;> simp [cellsWrite, h0, hv]
  | cons c rest ih =>
    obtain ⟨j, w⟩ := c
    simp only [List.all_cons, Bool.and_eq_true] at h
    by_cases hij : i = j
    · by_cases h0 : v = 0#64 <;> simp [cellsWrite, hij, h0, hv, h.2]
    · by_cases hlt : i < j
      · by_cases h0 : v = 0#64 <;> simp [cellsWrite, hij, hlt, h0, hv, h.1, h.2]
      · simp only [cellsWrite, hij, hlt, if_false, List.all_cons, h.1, Bool.true_and]
        exact ih h.2

/-- What a slot reads as is a sample of the format. -/
theorem fits_cellsRead {f : Sfmt} {i : Nat} {cs : Cells} (h : cs.all (fun c => fits f c.2) = true) :
    fits f (cellsRead i cs) = true := by
  induction cs with
  | nil => cases f <;> rfl
  | cons c rest ih =>
    obtain ⟨j, w⟩ := c
    simp only [List.all_cons, Bool.and_eq_true] at h
    by_cases hij : i = j
    · simpa [cellsRead, hij] using h.1
    · simpa [cellsRead, hij] using ih h.2

/-- Two canonical forms that read alike at every slot are equal. -/
theorem cells_ext {cap lo lo' : Nat} {cs ds : Cells} (hc : cellsWf cap lo cs = true) (hd : cellsWf cap lo' ds = true)
    (h : ∀ i, cellsRead i cs = cellsRead i ds) : cs = ds := by
  induction cs generalizing lo lo' ds with
  | nil =>
    cases ds with
    | nil => rfl
    | cons d rest =>
      obtain ⟨j, w⟩ := d
      simp only [cellsWf, Bool.and_eq_true, bne_iff_ne] at hd
      exact absurd (h j) (by simpa [cellsRead] using fun e => hd.1.2 e.symm)
  | cons c rest ih =>
    obtain ⟨i, v⟩ := c
    have hc' := hc
    simp only [cellsWf, Bool.and_eq_true, decide_eq_true_eq, bne_iff_ne] at hc
    cases ds with
    | nil => exact absurd (h i) (by simpa [cellsRead] using hc.1.2)
    | cons d rest' =>
      obtain ⟨j, w⟩ := d
      have hd' := hd
      simp only [cellsWf, Bool.and_eq_true, decide_eq_true_eq, bne_iff_ne] at hd
      have hij : i = j := by
        rcases Nat.lt_trichotomy i j with hlt | heq | hgt
        · have := h i
          rw [cellsRead_below (lo := j) (cap := cap) (cs := (j, w) :: rest') (by
            simp [cellsWf, hd.1.1.2, hd.1.2, hd.2]) hlt] at this
          exact absurd this (by simpa [cellsRead] using hc.1.2)
        · exact heq
        · have := h j
          rw [cellsRead_below (lo := i) (cap := cap) (cs := (i, v) :: rest) (by
            simp [cellsWf, hc.1.1.2, hc.1.2, hc.2]) hgt] at this
          exact absurd this.symm (by simpa [cellsRead] using hd.1.2)
      subst hij
      have hvw : v = w := by simpa [cellsRead] using h i
      subst hvw
      refine congrArg _ (ih hc.2 hd.2 fun k => ?_)
      by_cases hk : k = i
      · subst hk
        rw [cellsRead_below hc.2 (by omega), cellsRead_below hd.2 (by omega)]
      · simpa [cellsRead, hk] using h k

end Sys2Proof.Machine
end

