-- ==== Sys2Proof/Laws/Ops.lean ====
section
/-! SUPPORT. What each shared operation can do: the ring buffer's helpers (R59 to R61), the ticks (R68, R84, R86, R91),
reset (R93) and the engine's frame. -/

namespace Sys2Proof.Machine

/-! ### Ring buffer -/

/-- R60 on natural numbers: the slot of an offset below the capacity. -/
theorem slotOf_eq (r : RingBuf) {off : Nat} (h : off < r.cap) :
    slotOf r off = (r.cur.toNat + (r.cap - 1 - off)) % r.cap := by
  have h1 : ((r.cur.toNat : Int) - 1 - (off : Int)) = ((r.cur.toNat + (r.cap - 1 - off) : Nat) : Int) - (r.cap : Int) := by
    omega
  rw [slotOf, h1, Int.sub_emod_right]
  exact Int.toNat_natCast _

theorem slotOf_lt (r : RingBuf) {off : Nat} (h : off < r.cap) : slotOf r off < r.cap := by
  rw [slotOf_eq r h]
  exact Nat.mod_lt _ (by omega)

/-- R59, R60: below the capacity `ReadAt` answers what the slot reads as. -/
theorem readAt_eq (r : RingBuf) {off : Nat} (h : off < r.cap) :
    readAt r off = .next (cellsRead ((r.cur.toNat + (r.cap - 1 - off)) % r.cap) r.buf) := by
  rw [readAt, if_pos h, memRead, if_pos (slotOf_lt r h), slotOf_eq r h]

/-- R61: with the cursor below the capacity `WriteAdv` stores and advances. -/
theorem writeAdv_eq (r : RingBuf) (v : Sample) (h : r.cur.toNat < r.cap) :
    writeAdv r v = .next { r with buf := cellsWrite r.cur.toNat v r.buf,
                                  cur := BitVec.ofNat 32 ((r.cur.toNat + 1) % r.cap) } := by
  rw [writeAdv, memWrite, if_pos h, andThen_next]

/-- The cursor after an advance. -/
theorem cursor_advance {c n : Nat} (hc : c ≤ 2 ^ 32) (h : n < c) :
    (BitVec.ofNat 32 ((n + 1) % c)).toNat = (n + 1) % c := by
  have := Nat.mod_lt (n + 1) (show 0 < c by omega)
  rw [BitVec.toNat_ofNat, Nat.mod_eq_of_lt (by omega)]

/-- The parts of `ringOk`. -/
theorem ringOk_iff {f : Sfmt} {r : RingBuf} :
    ringOk f r = true ↔ 1 ≤ r.cap ∧ r.cap ≤ 2 ^ 32 ∧ cellsWf r.cap 0 r.buf = true ∧
      r.buf.all (fun c => fits f c.2) = true ∧ r.cur.toNat < r.cap := by
  simp only [ringOk, capValid, Bool.and_eq_true, decide_eq_true_eq, and_assoc]

/-- R61: in a sound ring buffer `WriteAdv` answers a sound ring buffer of the same capacity. -/
theorem writeAdv_ok {f : Sfmt} {r : RingBuf} {v : Sample} (h : ringOk f r = true) (hv : fits f v = true) :
    ∃ r', writeAdv r v = .next r' ∧ ringOk f r' = true ∧ r'.cap = r.cap := by
  obtain ⟨h1, h2, h3, h4, h5⟩ := ringOk_iff.mp h
  refine ⟨_, writeAdv_eq r v h5, ringOk_iff.mpr ⟨h1, h2, cellsWf_write h3 (Nat.zero_le _) h5,
    cellsFit_write h4 hv, ?_⟩, rfl⟩
  show (BitVec.ofNat 32 ((r.cur.toNat + 1) % r.cap)).toNat < r.cap
  rw [cursor_advance h2 h5]
  exact Nat.mod_lt _ (by omega)

/-- R59: in a sound ring buffer `ReadAt` below the capacity answers a sample of the format. -/
theorem readAt_ok {f : Sfmt} {r : RingBuf} {off : Nat} (h : ringOk f r = true) (ho : off < r.cap) :
    ∃ v, readAt r off = .next v ∧ fits f v = true :=
  ⟨_, readAt_eq r ho, fits_cellsRead (ringOk_iff.mp h).2.2.2.1⟩

theorem ringOk_clear {f : Sfmt} {r : RingBuf} (h : ringOk f r = true) : ringOk f r.clear = true := by
  obtain ⟨h1, h2, -, -, -⟩ := ringOk_iff.mp h
  exact ringOk_iff.mpr ⟨h1, h2, rfl, rfl, h1⟩

/-! ### Ticks -/

/-- The parts of `delayOk`. -/
theorem delayOk_iff {f : Sfmt} {d : DelayUnit} :
    delayOk f d = true ↔ ringOk f d.rb = true ∧ fracOk f d.dlyFrac = true ∧
      d.dlyInt.toNat + (if isZero f d.dlyFrac then 0 else 1) < d.rb.cap ∧ fits f d.lastOut = true := by
  simp only [delayOk, Bool.and_eq_true, decide_eq_true_eq, and_assoc]

/-- R68, R90: the tick of a sound DELAY unit answers; the unit stays sound and keeps its configuration. -/
theorem delayTick_ok {f : Sfmt} {n : Nat} {d : DelayUnit} {x : Sample} (h : delayOk f d = true)
    (hx : fits f x = true) :
    ∃ r y, delayTick f n d x = .next ({ d with rb := r, lastOut := y }, y) ∧ r.cap = d.rb.cap ∧
      delayOk f { d with rb := r, lastOut := y } = true ∧ fits f y = true := by
  obtain ⟨h1, h2, h3, h4⟩ := delayOk_iff.mp h
  obtain ⟨r, hw, hr, hcap⟩ := writeAdv_ok h1 hx
  obtain ⟨a, ha, hfa⟩ := readAt_ok (off := d.dlyInt.toNat) hr (by rw [hcap]; omega)
  by_cases hz : isZero f d.dlyFrac = true
  · refine ⟨r, a, ?_, hcap, delayOk_iff.mpr ⟨hr, h2, by rw [hcap]; exact h3, hfa⟩, hfa⟩
    simp [delayTick, hw, delayOutput, ha, hz]
  · rw [if_neg hz] at h3
    obtain ⟨b, hb, -⟩ := readAt_ok (off := d.dlyInt.toNat + 1) hr (by rw [hcap]; omega)
    have hfy : fits f (interp f n a b d.dlyFrac) = true := fits_fpAdd _ _ _ _
    refine ⟨r, interp f n a b d.dlyFrac, ?_, hcap,
      delayOk_iff.mpr ⟨hr, h2, by rw [hcap, if_neg hz]; exact h3, hfy⟩, hfy⟩
    simp [delayTick, hw, delayOutput, ha, hb, hz]

/-- The parts of `biquadOk`. -/
theorem biquadOk_iff {f : Sfmt} {b : BiquadUnit} :
    biquadOk f b = true ↔ bqFits f b.active = true ∧ bqFits f b.shadow = true ∧ fits f b.x1 = true ∧
      fits f b.x2 = true ∧ fits f b.y1 = true ∧ fits f b.y2 = true := by
  simp only [biquadOk, Bool.and_eq_true, and_assoc]

/-- The parts of `svfOk`. -/
theorem svfOk_iff {f : Sfmt} {v : SvfUnit} :
    svfOk f v = true ↔ svfFits f v.active = true ∧ svfFits f v.shadow = true ∧ fits f v.low = true ∧
      fits f v.band = true := by
  simp only [svfOk, Bool.and_eq_true, and_assoc]

theorem fits_bqEval (f : Sfmt) (n : Nat) (b : BiquadUnit) (x : Sample) : fits f (bqEval f n b x) = true :=
  fits_fpSub _ _ _ _

theorem fits_svfSelect (f : Sfmt) (n : Nat) (v : SvfUnit) (x : Sample) :
    fits f (svfSelect v.mode (svfEval f n v x)) = true := by
  unfold svfSelect
  split
  · exact fits_fpAdd _ _ _ _
  · exact fits_fpSub _ _ _ _
  · exact fits_fpAdd _ _ _ _
  · exact fits_fpAdd _ _ _ _

/-- R90, R91: the tick of a sound unit that has one answers; the unit stays sound and keeps its configuration. -/
theorem slotTick_ok {f : Sfmt} {n : Nat} {sl : Slot} {x : Sample} (h : slotOk f sl = true)
    (hk : sl.kind ≠ .ring) (hx : fits f x = true) :
    ∃ sl' y, slotTick f n sl x = .next (sl', y) ∧ slotOk f sl' = true ∧ fits f y = true ∧ sameSettings sl sl' ∧
      sl'.cfg = sl.cfg := by
  cases sl with
  | ring r => exact absurd rfl hk
  | delay d =>
    obtain ⟨r, y, ht, hcap, hok, hy⟩ := delayTick_ok (n := n) h hx
    exact ⟨.delay { d with rb := r, lastOut := y }, y, by simp [slotTick, ht], hok, hy, ⟨hcap, rfl, rfl, rfl⟩, by simp [Slot.cfg, hcap]⟩
  | biquad b =>
    obtain ⟨h1, h2, h3, h4, h5, h6⟩ := biquadOk_iff.mp h
    exact ⟨_, _, rfl, biquadOk_iff.mpr ⟨h1, h2, hx, h3, fits_bqEval _ _ _ _, h5⟩, fits_bqEval _ _ _ _,
      ⟨rfl, rfl, rfl, rfl⟩, rfl⟩
  | svf v =>
    obtain ⟨h1, h2, h3, h4⟩ := svfOk_iff.mp h
    exact ⟨_, _, rfl, svfOk_iff.mpr ⟨h1, h2, fits_fpAdd _ _ _ _, fits_fpAdd _ _ _ _⟩, fits_svfSelect _ _ _ _,
      ⟨rfl, rfl, rfl, rfl, rfl, rfl⟩, rfl⟩

/-- Ticking a unit keeps its build parameters, in every state. -/
theorem slotTick_cfg {f : Sfmt} {n : Nat} {sl sl' : Slot} {x y : Sample} (h : slotTick f n sl x = .next (sl', y)) :
    sl'.cfg = sl.cfg := by
  cases sl with
  | ring r => simp [slotTick] at h
  | delay d =>
    obtain ⟨p, hp, he⟩ := andThen_eq_next.mp h
    obtain ⟨r, hr, hp⟩ := andThen_eq_next.mp hp
    obtain ⟨z, hz, hp⟩ := andThen_eq_next.mp hp
    obtain ⟨r', hr', he'⟩ := andThen_eq_next.mp hr
    have hcap : r'.cap = d.rb.cap := by
      rw [memWrite] at hr'
      split at hr'
      · injection hr' with hr'; rw [← hr']
      · cases hr'
    injection he' with he'
    injection hp with hp
    injection he with he
    rw [← hp, Prod.mk.injEq] at he
    rw [← he.1, ← he']
    simp [Slot.cfg, hcap]
  | biquad b => simp only [slotTick, Host.Outcome.next.injEq, Prod.mk.injEq] at h; rw [← h.1]; rfl
  | svf v => simp only [slotTick, Host.Outcome.next.injEq, Prod.mk.injEq] at h; rw [← h.1]; rfl

/-! ### Reset and power-on -/

theorem slotOk_reset {f : Sfmt} {sl : Slot} (h : slotOk f sl = true) : slotOk f (resetSlot sl) = true := by
  have h0 : fits f 0 = true := by cases f <;> rfl
  cases sl with
  | ring r => exact ringOk_clear h
  | delay d =>
    obtain ⟨h1, h2, h3, h4⟩ := delayOk_iff.mp h
    exact delayOk_iff.mpr ⟨ringOk_clear h1, h2, h3, h0⟩
  | biquad b =>
    obtain ⟨h1, h2, -⟩ := biquadOk_iff.mp h
    exact biquadOk_iff.mpr ⟨h1, h2, h0, h0, h0, h0⟩
  | svf v =>
    obtain ⟨h1, h2, -⟩ := svfOk_iff.mp h
    exact svfOk_iff.mpr ⟨h1, h2, h0, h0⟩

@[simp] theorem resetSlot_cfg (sl : Slot) : (resetSlot sl).cfg = sl.cfg := by cases sl <;> rfl

@[simp] theorem powerOnSlot_cfg (f : Sfmt) (c : UnitCfg) : (powerOnSlot f c).cfg = c := by cases c <;> rfl

/-- R66, R67: a valid length splits into a legal pair. -/
theorem fracOk_delayFrac (f : Sfmt) (d : Sample) : fracOk f (delayFrac f d) = true := by
  obtain ⟨h1, h2, h3, h4⟩ := delayFrac_spec f d
  simp only [fracOk, h1, h2, h3, h4, Bool.true_and, Bool.not_false, decide_eq_true_eq]
  exact Nat.mod_lt _ (unitsPerOne_pos f)

/-- R23, R65, R66: every tap of a valid length is below the capacity. -/
theorem delayTaps_lt {f : Sfmt} {c : Nat} {d : Sample} (hc : c ≤ 2 ^ 32) (h : delayValid f c d = true) :
    (delayInt f d).toNat + (if isZero f (delayFrac f d) then 0 else 1) < c := by
  obtain ⟨-, h2, h3⟩ := delayInt_spec hc h
  by_cases hz : isZero f (delayFrac f d) = true
  · rw [if_pos hz]; exact h2
  · rw [if_neg hz]
    apply h3
    intro h0
    have hs := (delayFrac_spec f d).1
    rw [h0, ← magUnits_zero f] at hs
    exact hz (decide_eq_true (magUnits_injective hs))

/-- R30, R109: a slot with valid parameters is sound at power-on. -/
theorem slotOk_powerOn {f : Sfmt} {c : UnitCfg} (h : unitCfgValid f c = true) : slotOk f (powerOnSlot f c) = true := by
  have h0 : fits f 0 = true := by cases f <;> rfl
  have hring : ∀ n, capValid n = true → ringOk f (RingBuf.powerOn n) = true := by
    intro n hn
    simp only [capValid, Bool.and_eq_true, decide_eq_true_eq] at hn
    exact ringOk_iff.mpr ⟨hn.1, hn.2, rfl, rfl, hn.1⟩
  cases c with
  | ring n => exact hring n h
  | delay n d =>
    simp only [unitCfgValid, Bool.and_eq_true] at h
    have hn := h.1.1
    simp only [capValid, Bool.and_eq_true, decide_eq_true_eq] at hn
    exact delayOk_iff.mpr ⟨hring n h.1.1, fracOk_delayFrac f d, delayTaps_lt hn.2 h.2, h0⟩
  | biquad fs init =>
    simp only [unitCfgValid, Bool.and_eq_true] at h
    exact biquadOk_iff.mpr ⟨h.2, h.2, h0, h0, h0, h0⟩
  | svf fs init m =>
    simp only [unitCfgValid, Bool.and_eq_true] at h
    exact svfOk_iff.mpr ⟨h.1.2, h.1.2, h0, h0⟩

/-! ### The canonical form of memory (log entry 3) -/

/-- R32: a store keeps the canonical form. -/
theorem memWrite_wf {r r' : RingBuf} {i : Nat} {v : Sample} (h : cellsWf r.cap 0 r.buf = true)
    (hw : memWrite r i v = .next r') : cellsWf r'.cap 0 r'.buf = true := by
  rw [memWrite] at hw
  split at hw
  · rename_i hi
    injection hw with hw
    subst hw
    exact cellsWf_write h (Nat.zero_le _) hi
  · cases hw

/-- R61: so does `WriteAdv`. -/
theorem writeAdv_wf {r r' : RingBuf} {v : Sample} (h : cellsWf r.cap 0 r.buf = true)
    (hw : writeAdv r v = .next r') : cellsWf r'.cap 0 r'.buf = true := by
  obtain ⟨r1, h1, h2⟩ := andThen_eq_next.mp hw
  have := memWrite_wf h h1
  injection h2 with h2
  subst h2
  exact this

/-- R93: so does clearing a ring buffer. -/
theorem clear_wf (r : RingBuf) : cellsWf r.clear.cap 0 r.clear.buf = true := rfl

/-- R30, R109: no slot is listed at power-on, so the block's memory is in canonical form. -/
theorem memory_wf_powerOn (b : Build) : Memory.wf (State.powerOn b) = true := by
  rw [Memory.wf, State.powerOn_units, List.all_map, List.all_eq_true]
  intro c _
  cases c <;> rfl

theorem memory_wf_reset : Memory.wf State.reset = true := memory_wf_powerOn _

/-- A sound block's memory is in canonical form. -/
theorem memory_wf_of_ok {s : State} (h : s.Ok) : Memory.wf s = true := by
  rw [Memory.wf, List.all_eq_true]
  intro sl hs
  have := List.all_eq_true.mp h.2.1 sl hs
  cases sl with
  | ring r => exact (ringOk_iff.mp this).2.2.1
  | delay d => exact (ringOk_iff.mp (delayOk_iff.mp this).1).2.2.1
  | biquad b => rfl
  | svf v => rfl

end Sys2Proof.Machine
end

