-- ==== Sys2Proof/Laws/Exec.lean ====
section
/-! SUPPORT. What a command can do, said once: a command that names one unit leaves the block as it is but for the
response, or replaces that unit by one with the same build parameters; a chain tick and RESET_ALL do so unit by unit. -/

namespace Sys2Proof.Machine

/-- What a command on unit `u` can do. -/
def UnitEffect (u : Nat) (s t : State) : Prop :=
  ∃ r, (t = { s with resp := some r }) ∨
    (r.status = .ok ∧ ∃ sl sl' n, s.units[u]? = some sl ∧ sl'.cfg = sl.cfg ∧
      t = { s with units := s.units.set u sl', draws := s.draws + n, resp := some r })

theorem unitEffect_resp (u : Nat) (s : State) (r : Response) : UnitEffect u s { s with resp := some r } :=
  ⟨r, Or.inl rfl⟩

theorem unitEffect_raise (u : Nat) (s : State) (e : Status) : UnitEffect u s (s.raise e) := ⟨_, Or.inl rfl⟩

theorem unitEffect_set {u : BitVec 8} {s : State} {sl sl' : Slot} (h : s.units[u.toNat]? = some sl)
    (hc : sl'.cfg = sl.cfg) : UnitEffect u.toNat s (s.setUnit u sl').respond :=
  ⟨_, Or.inr ⟨rfl, sl, sl', 0, h, hc, rfl⟩⟩

theorem withRingBuf_cfg {sl : Slot} {r r' : RingBuf} (h : sl.ringBuf = some r) (hc : r'.cap = r.cap) :
    (sl.withRingBuf r').cfg = sl.cfg := by
  cases sl <;> simp only [Slot.ringBuf, Option.some.injEq, reduceCtorEq] at h <;> subst h <;>
    simp [Slot.withRingBuf, Slot.cfg, hc]

theorem writeAdv_cap {r r' : RingBuf} {v : Sample} (h : writeAdv r v = .next r') : r'.cap = r.cap := by
  obtain ⟨r1, h1, h2⟩ := andThen_eq_next.mp h
  rw [memWrite] at h1
  split at h1
  · injection h1 with h1
    injection h2 with h2
    rw [← h2, ← h1]
  · cases h1

/-- A tick of unit `u` of the block. -/
theorem tickUnit_cases {s t : State} {u : Nat} {x y : Sample} (h : s.tickUnit u x = .next (t, y)) :
    ∃ sl sl', s.units[u]? = some sl ∧ slotTick s.sfmt s.draws sl x = .next (sl', y) ∧ sl'.cfg = sl.cfg ∧
      t = { s with units := s.units.set u sl', draws := s.draws + tickDraws sl } := by
  unfold State.tickUnit at h
  split at h
  · rename_i sl hs
    obtain ⟨⟨sl', y'⟩, hp, hq⟩ := andThen_eq_next.mp h
    simp only [Host.Outcome.next.injEq, Prod.mk.injEq] at hq
    obtain ⟨hq, rfl⟩ := hq
    exact ⟨sl, sl', hs, hp, slotTick_cfg hp, hq.symm⟩
  · cases h

/-- Every command that names at most one unit has a `UnitEffect`. -/
theorem exec_unitEffect {i : Instr} {s t : State} (hr : i ≠ .resetAll) (hc : ∀ x, i ≠ .chainTick x)
    (h : exec i s = .next t) : UnitEffect i.unit.toNat s t := by
  cases i with
  | nop => cases h; exact ⟨_, Or.inl rfl⟩
  | chainTick x => exact absurd rfl (hc x)
  | resetAll => exact absurd rfl hr
  | tick u x =>
    simp only [exec, execTick] at h
    split at h
    · cases h; exact unitEffect_raise _ _ _
    all_goals first
      | (cases h; exact unitEffect_raise _ _ _)
      | (obtain ⟨⟨t', y⟩, ht, h⟩ := andThen_eq_next.mp h
         obtain ⟨sl, sl', h1, -, h3, h4⟩ := tickUnit_cases ht
         cases h
         subst h4
         exact ⟨_, Or.inr ⟨rfl, sl, sl', tickDraws sl, h1, h3, rfl⟩⟩)
  | lastOut u =>
    simp only [exec, execLastOut] at h
    split at h <;> cases h
    · exact ⟨_, Or.inl rfl⟩
    all_goals exact unitEffect_raise _ _ _
  | rbWrite u v =>
    simp only [exec, execRbWrite] at h
    split at h
    · rename_i sl hs
      split at h
      · rename_i r hrb
        obtain ⟨r', hw, h⟩ := andThen_eq_next.mp h
        cases h
        exact unitEffect_set hs (withRingBuf_cfg hrb (writeAdv_cap hw))
      · cases h; exact unitEffect_raise _ _ _
    · cases h; exact unitEffect_raise _ _ _
  | rbReadAt u off =>
    simp only [exec, execRbReadAt] at h
    split at h
    · split at h
      · split at h
        · cases h; exact unitEffect_raise _ _ _
        · obtain ⟨v, -, h⟩ := andThen_eq_next.mp h
          cases h
          exact ⟨_, Or.inl rfl⟩
      · cases h; exact unitEffect_raise _ _ _
    · cases h; exact unitEffect_raise _ _ _
  | setDelay u d =>
    simp only [exec, execSetDelay] at h
    split at h
    · rename_i dl hs
      split at h <;> cases h
      · exact unitEffect_set hs rfl
      · exact unitEffect_raise _ _ _
    all_goals cases h; exact unitEffect_raise _ _ _
  | stageCoeff u sel v =>
    simp only [exec, execStageCoeff] at h
    split at h
    · rename_i b hs
      split at h <;> cases h
      · exact unitEffect_set hs rfl
      · exact unitEffect_raise _ _ _
    · rename_i b hs
      split at h <;> cases h
      · exact unitEffect_set hs rfl
      · exact unitEffect_raise _ _ _
    all_goals cases h; exact unitEffect_raise _ _ _
  | commit u =>
    simp only [exec, execCommit] at h
    split at h <;> cases h
    · rename_i hs; exact unitEffect_set hs rfl
    · rename_i hs; exact unitEffect_set hs rfl
    all_goals exact unitEffect_raise _ _ _
  | setParams u sel fc q =>
    simp only [exec, execSetParams] at h
    split at h
    · rename_i b hs
      cases h
      simp only [setParamsBiquad]
      split
      · split
        · exact unitEffect_set hs rfl
        · exact unitEffect_raise _ _ _
      · exact unitEffect_raise _ _ _
    · rename_i v hs
      split at h <;> cases h
      · simp only [setParamsSvf]
        split
        · exact unitEffect_set hs rfl
        · exact unitEffect_raise _ _ _
      · exact unitEffect_raise _ _ _
    all_goals cases h; exact unitEffect_raise _ _ _
  | setMode u sel =>
    simp only [exec, execSetMode] at h
    split at h
    · rename_i v hs
      split at h <;> cases h
      · exact unitEffect_set hs rfl
      · exact unitEffect_raise _ _ _
    all_goals cases h; exact unitEffect_raise _ _ _
  | reset u =>
    simp only [exec, execReset] at h
    split at h <;> cases h
    · rename_i sl hs; exact unitEffect_set hs (resetSlot_cfg sl)
    · exact unitEffect_raise _ _ _

/-- The parts of the block no command changes, and the response every command gives. -/
structure CommandFrame (s t : State) : Prop where
  sfmt : t.sfmt = s.sfmt
  chain : t.chain = s.chain
  ports : t.ports = s.ports
  taken : t.taken = s.taken
  trace : t.trace = s.trace
  cfgs : t.units.map Slot.cfg = s.units.map Slot.cfg

theorem CommandFrame.refl (s : State) : CommandFrame s s := ⟨rfl, rfl, rfl, rfl, rfl, rfl⟩

theorem CommandFrame.trans {s t w : State} (h : CommandFrame s t) (h' : CommandFrame t w) : CommandFrame s w :=
  ⟨h'.1.trans h.1, h'.2.trans h.2, h'.3.trans h.3, h'.4.trans h.4, h'.5.trans h.5, h'.6.trans h.6⟩

theorem map_cfg_set {us : List Slot} {u : Nat} {sl sl' : Slot} (h : us[u]? = some sl) (hc : sl'.cfg = sl.cfg) :
    (us.set u sl').map Slot.cfg = us.map Slot.cfg := by
  apply List.ext_getElem?
  intro j
  by_cases hj : u = j
  · subst hj
    have hlt := (List.getElem?_eq_some_iff.mp h).1
    rw [List.getElem?_map, List.getElem?_set_self hlt, List.getElem?_map, h]
    simp [hc]
  · rw [List.getElem?_map, List.getElem?_set_ne hj, List.getElem?_map]

theorem UnitEffect.frame {u : Nat} {s t : State} (h : UnitEffect u s t) :
    CommandFrame s t ∧ ∃ r, t.resp = some r := by
  obtain ⟨r, rfl | ⟨-, sl, sl', n, h1, h2, rfl⟩⟩ := h
  · exact ⟨⟨rfl, rfl, rfl, rfl, rfl, rfl⟩, r, rfl⟩
  · exact ⟨⟨rfl, rfl, rfl, rfl, rfl, map_cfg_set h1 h2⟩, r, rfl⟩

theorem tickUnit_frame {s t : State} {u : Nat} {x y : Sample} (h : s.tickUnit u x = .next (t, y)) :
    CommandFrame s t := by
  obtain ⟨sl, sl', h1, -, h3, rfl⟩ := tickUnit_cases h
  exact ⟨rfl, rfl, rfl, rfl, rfl, map_cfg_set h1 h3⟩

theorem chainTicks_frame {cs : List Nat} {s t : State} {x y : Sample} (h : chainTicks cs s x = .next (t, y)) :
    CommandFrame s t := by
  induction cs generalizing s x with
  | nil => simp only [chainTicks, Host.Outcome.next.injEq, Prod.mk.injEq] at h; rw [h.1]; exact .refl _
  | cons c cs ih =>
    obtain ⟨⟨s1, y1⟩, h1, h2⟩ := andThen_eq_next.mp h
    exact (tickUnit_frame h1).trans (ih h2)

/-- Every command that answers keeps the frame and gives a response. -/
theorem exec_frame {i : Instr} {s t : State} (h : exec i s = .next t) :
    CommandFrame s t ∧ ∃ r, t.resp = some r := by
  by_cases hr : i = .resetAll
  · subst hr
    cases h
    refine ⟨⟨rfl, rfl, rfl, rfl, rfl, ?_⟩, _, rfl⟩
    show (s.units.map resetSlot).map Slot.cfg = _
    rw [List.map_map]
    exact List.map_congr_left fun sl _ => resetSlot_cfg sl
  · by_cases hc : ∃ x, i = .chainTick x
    · obtain ⟨x, rfl⟩ := hc
      obtain ⟨⟨t', y⟩, h1, h2⟩ := andThen_eq_next.mp h
      cases h2
      obtain ⟨a, b, c, d, e, g⟩ := chainTicks_frame h1
      exact ⟨⟨a, b, c, d, e, g⟩, _, rfl⟩
    · exact (exec_unitEffect hr (fun x hx => hc ⟨x, hx⟩) h).frame

/-- The same of a command word, decodable or not. -/
theorem runCommand_frame {c : Command} {s t : State} (h : runCommand c s = .next t) :
    CommandFrame s t ∧ ∃ r, t.resp = some r := by
  unfold runCommand at h
  split at h
  · exact exec_frame h
  · cases h; exact ⟨⟨rfl, rfl, rfl, rfl, rfl, rfl⟩, _, rfl⟩

end Sys2Proof.Machine
end

