-- ==== Sys2Proof/Laws/PerInstr.lean ====
section
/-! SUPPORT. Per instruction: the encoding of an instruction fits its row of the opcode table (R53): the opcode, the
reserved bits, and UNIT and SEL where the row fixes them at 0. -/

namespace Sys2Proof.Laws.TableRow

/-- The fixed bits of each row of the opcode table: its opcode, whether UNIT is fixed at 0, whether SEL is. -/
def row : Instr → BitVec 8 × Bool × Bool
  | .nop => (0x00, true, true)
  | .tick _ _ => (0x01, false, true)
  | .chainTick _ => (0x02, true, true)
  | .lastOut _ => (0x03, false, true)
  | .rbWrite _ _ => (0x10, false, true)
  | .rbReadAt _ _ => (0x11, false, true)
  | .setDelay _ _ => (0x18, false, true)
  | .stageCoeff _ _ _ => (0x20, false, false)
  | .commit _ => (0x21, false, true)
  | .setParams _ _ _ _ => (0x22, false, false)
  | .setMode _ _ => (0x23, false, false)
  | .reset _ => (0x30, false, true)
  | .resetAll => (0x31, true, true)

/-- The encoded command word has the row's opcode, its reserved bits zero, and its fixed fields zero. -/
def Statement (i : Instr) : Prop :=
  opField (encode i).cmd = (row i).1 ∧ rsvdField (encode i).cmd = 0 ∧
    ((row i).2.1 = true → unitField (encode i).cmd = 0) ∧ ((row i).2.2 = true → selField (encode i).cmd = 0)

theorem nop : Statement .nop := by simp [Statement, encode, row, Instr.opcode, Instr.unit, Instr.sel]
theorem tick (u : BitVec 8) (x : Word) : Statement (.tick u x) := by
  simp [Statement, encode, row, Instr.opcode, Instr.unit, Instr.sel]
theorem chainTick (x : Word) : Statement (.chainTick x) := by
  simp [Statement, encode, row, Instr.opcode, Instr.unit, Instr.sel]
theorem lastOut (u : BitVec 8) : Statement (.lastOut u) := by
  simp [Statement, encode, row, Instr.opcode, Instr.unit, Instr.sel]
theorem rbWrite (u : BitVec 8) (v : Word) : Statement (.rbWrite u v) := by
  simp [Statement, encode, row, Instr.opcode, Instr.unit, Instr.sel]
theorem rbReadAt (u : BitVec 8) (off : Word) : Statement (.rbReadAt u off) := by
  simp [Statement, encode, row, Instr.opcode, Instr.unit, Instr.sel]
theorem setDelay (u : BitVec 8) (d : Word) : Statement (.setDelay u d) := by
  simp [Statement, encode, row, Instr.opcode, Instr.unit, Instr.sel]
theorem stageCoeff (u : BitVec 8) (sel : BitVec 4) (v : Word) : Statement (.stageCoeff u sel v) := by
  simp [Statement, encode, row, Instr.opcode, Instr.unit, Instr.sel]
theorem commit (u : BitVec 8) : Statement (.commit u) := by
  simp [Statement, encode, row, Instr.opcode, Instr.unit, Instr.sel]
theorem setParams (u : BitVec 8) (sel : BitVec 4) (fc q : Word) : Statement (.setParams u sel fc q) := by
  simp [Statement, encode, row, Instr.opcode, Instr.unit, Instr.sel]
theorem setMode (u : BitVec 8) (sel : BitVec 4) : Statement (.setMode u sel) := by
  simp [Statement, encode, row, Instr.opcode, Instr.unit, Instr.sel]
theorem reset (u : BitVec 8) : Statement (.reset u) := by
  simp [Statement, encode, row, Instr.opcode, Instr.unit, Instr.sel]
theorem resetAll : Statement .resetAll := by simp [Statement, encode, row, Instr.opcode, Instr.unit, Instr.sel]

end Sys2Proof.Laws.TableRow
end

