-- ==== Sys2Proof/Laws/Sound.lean ====
section
/-! SUPPORT. In a sound state every command answers and leaves the units sound (R23, R90, R99). -/

namespace Sys2Proof.Machine

/-- Every unit holds legal register values. -/
def UnitsOk (s : State) : Prop := s.units.all (slotOk s.sfmt) = true

theorem UnitsOk.get {s : State} (h : UnitsOk s) {u : Nat} {sl : Slot} (hs : s.units[u]? = some sl) : slotOk s.sfmt sl = true :=
  List.all_eq_true.mp h sl (List.mem_of_getElem? hs)

theorem all_set {us : List Slot} {f : Sfmt} (h : us.all (slotOk f) = true) {u : Nat} {sl : Slot} (hs : slotOk f sl = true) :
    (us.set u sl).all (slotOk f) = true := by
  rw [List.all_eq_true] at h ⊢
  intro x hx
  rcases List.mem_or_eq_of_mem_set hx with hx | rfl
  · exact h x hx
  · exact hs

/-- The outcome is a next state whose units hold legal values, with a response whose DATA fits the sample format. -/
def Answers (f : Sfmt) (o : Res State) : Prop :=
  ∃ t r, o = .next t ∧ t.units.all (slotOk f) = true ∧ t.resp = some r ∧ fits f r.data = true

theorem answers_raise {s : State} (h : UnitsOk s) (e : Status) : Answers s.sfmt (.next (s.raise e)) :=
  ⟨_, _, rfl, h, rfl, by cases s.sfmt <;> rfl⟩

theorem answers_set {s : State} (h : UnitsOk s) {u : BitVec 8} {sl : Slot} (hs : slotOk s.sfmt sl = true) :
    Answers s.sfmt (.next (s.setUnit u sl).respond) :=
  ⟨_, _, rfl, all_set h hs, rfl, by cases s.sfmt <;> rfl⟩

theorem answers_sample {s : State} (h : UnitsOk s) (v : Sample) :
    Answers s.sfmt (.next (s.respondSample v)) :=
  ⟨_, _, rfl, h, rfl, fits_lowBits _ _⟩

/-- R90, R91: a sound unit that has a tick answers, and the block stays sound. -/
theorem tickUnit_ok {s : State} (h : UnitsOk s) {u : Nat} {x : Sample} {sl : Slot} (hs : s.units[u]? = some sl) (hk : sl.kind ≠ .ring)
    (hx : fits s.sfmt x = true) :
    ∃ sl' y, s.tickUnit u x = .next ({ s with units := s.units.set u sl', draws := s.draws + tickDraws sl }, y) ∧ slotOk s.sfmt sl' = true ∧ fits s.sfmt y = true ∧
      sameSettings sl sl' ∧ sl'.cfg = sl.cfg := by
  obtain ⟨sl', y, h1, h2, h3, h4, h5⟩ := slotTick_ok (n := s.draws) (h.get hs) hk hx
  exact ⟨sl', y, by simp [State.tickUnit, hs, h1], h2, h3, h4, h5⟩

theorem kind_of_cfg {us us' : List Slot} (h : us.map Slot.cfg = us'.map Slot.cfg) : us.map Slot.kind = us'.map Slot.kind := by
  have : ∀ l : List Slot, l.map Slot.kind = (l.map Slot.cfg).map UnitCfg.kind := fun l => by simp [Slot.kind]
  rw [this, this, h]

/-- R90, R92: a chain of tickable units answers, and the block stays sound. -/
theorem chainTicks_ok {cs : List Nat} {s : State} (h : UnitsOk s)
    (hc : ∀ c ∈ cs, ((s.units.map Slot.kind)[c]?).any tickable = true) {x : Sample} (hx : fits s.sfmt x = true) :
    ∃ t y, chainTicks cs s x = .next (t, y) ∧ t.sfmt = s.sfmt ∧ UnitsOk t ∧ fits s.sfmt y = true := by
  induction cs generalizing s x with
  | nil => exact ⟨s, x, rfl, rfl, h, hx⟩
  | cons c cs ih =>
    have h0 := hc c (by simp)
    rw [List.getElem?_map] at h0
    rcases hs : s.units[c]? with _ | sl
    · simp [hs] at h0
    · simp only [hs, Option.map_some, Option.any_some] at h0
      obtain ⟨sl', y, h1, h2, h3, -, h5⟩ := tickUnit_ok h hs (by rintro he; rw [he] at h0; cases h0) hx
      have := ih (s := { s with units := s.units.set c sl', draws := s.draws + tickDraws sl }) (all_set h h2) (x := y)
        (by
          intro c' hc'
          have := hc c' (by simp [hc'])
          rwa [kind_of_cfg (map_cfg_set hs h5)]) h3
      obtain ⟨t, z, e1, e2, e3, e4⟩ := this
      exact ⟨t, z, by simp only [chainTicks, h1, andThen_next]; exact e1, e2, e3, e4⟩

/-- R8, R11: the chain of a valid build names tickable units that exist. -/
theorem chain_tickable {s : State} (h : buildValid s.build = true) : ∀ c ∈ s.chain, ((s.units.map Slot.kind)[c]?).any tickable = true := by
  simp only [buildValid, chainValid, Bool.and_eq_true, List.all_eq_true] at h
  intro c hc
  have := h.1.2.1 c hc
  have e : List.map UnitCfg.kind (s.build.units) = s.units.map Slot.kind := by simp [State.build, Slot.kind]
  rw [e] at this; exact this

theorem stageBq_fits {f : Sfmt} {c c' : BqCoeffs} {sel : BitVec 4} {v : Sample} (h : bqFits f c = true) (hv : fits f v = true)
    (hs : stageBq c sel v = some c') : bqFits f c' = true := by
  unfold stageBq at hs
  simp only [bqFits, Bool.and_eq_true] at h ⊢
  split at hs <;> cases hs <;> simp_all

theorem stageSvf_fits {f : Sfmt} {c c' : SvfCoeffs} {sel : BitVec 4} {v : Sample} (h : svfFits f c = true) (hv : fits f v = true)
    (hs : stageSvf c sel v = some c') : svfFits f c' = true := by
  unfold stageSvf at hs
  simp only [svfFits, Bool.and_eq_true] at h ⊢
  split at hs <;> cases hs <;> simp_all

/-- In a sound state every command answers, and the units stay sound. -/
theorem exec_answers {i : Instr} {s : State} (h : s.Ok) : Answers s.sfmt (exec i s) := by
  have hu : UnitsOk s := h.2.1
  cases i with
  | nop => exact ⟨_, _, rfl, hu, rfl, by cases s.sfmt <;> rfl⟩
  | resetAll =>
    refine ⟨_, _, rfl, ?_, rfl, by cases s.sfmt <;> rfl⟩
    show (s.units.map resetSlot).all _ = true
    rw [List.all_map, List.all_eq_true]
    intro x hx
    exact slotOk_reset (List.all_eq_true.mp hu x hx)
  | chainTick x =>
    obtain ⟨t, y, h1, h2, h3, h4⟩ := chainTicks_ok hu (chain_tickable h.1) (fits_lowBits _ x)
    have := answers_sample h3 y
    rw [h2] at this
    simp only [exec, execChainTick, argSample, h1, andThen_next]
    exact this
  | tick u x =>
    simp only [exec, execTick]
    have key : ∀ sl, s.units[u.toNat]? = some sl → sl.kind ≠ .ring → Answers s.sfmt (andThen (s.tickUnit u.toNat (argSample s x)) fun r => .next (r.1.respondSample r.2)) := by
      intro sl hs hk
      obtain ⟨sl', y, h1, h2, h3, h4, h5⟩ := tickUnit_ok hu hs hk (fits_lowBits _ x)
      rw [argSample, h1, andThen_next]
      exact answers_sample (s := { s with units := s.units.set u.toNat sl', draws := s.draws + tickDraws sl }) (all_set hu h2) y
    rcases hs : s.units[u.toNat]? with _ | (r | d | b | v)
    · exact answers_raise hu _
    · exact answers_raise hu _
    · exact key _ hs (by simp [Slot.kind, Slot.cfg, UnitCfg.kind])
    · exact key _ hs (by simp [Slot.kind, Slot.cfg, UnitCfg.kind])
    · exact key _ hs (by simp [Slot.kind, Slot.cfg, UnitCfg.kind])
  | lastOut u =>
    simp only [exec, execLastOut]
    split
    · exact answers_sample hu _
    all_goals exact answers_raise hu _
  | rbWrite u v =>
    simp only [exec, execRbWrite]
    rcases hs : s.units[u.toNat]? with _ | (r | d | b | v)
    · exact answers_raise hu _
    · obtain ⟨r', h1, h2, h3⟩ := writeAdv_ok (f := s.sfmt) (r := r) (v := argSample s v) (hu.get hs) (fits_lowBits _ _)
      simp only [Slot.ringBuf, h1, andThen_next]
      exact answers_set hu h2
    · have hd := delayOk_iff.mp (hu.get hs)
      obtain ⟨r', h1, h2, h3⟩ := writeAdv_ok (f := s.sfmt) (r := d.rb) (v := argSample s v) hd.1 (fits_lowBits _ _)
      simp only [Slot.ringBuf, h1, andThen_next]
      exact answers_set hu (delayOk_iff.mpr ⟨h2, hd.2.1, by rw [h3]; exact hd.2.2.1, hd.2.2.2⟩)
    · exact answers_raise hu _
    · exact answers_raise hu _
  | rbReadAt u off =>
    simp only [exec, execRbReadAt]
    have key : ∀ r, ringOk s.sfmt r = true → Answers s.sfmt (if r.cap ≤ argNat off then .next (s.raise .outOfRange)
      else andThen (readAt r (argNat off)) fun v => .next (s.respondSample v)) := by
      intro r hr
      split
      · exact answers_raise hu _
      · obtain ⟨v, h1, h2⟩ := readAt_ok hr (off := argNat off) (by omega)
        rw [h1, andThen_next]
        exact answers_sample hu _
    rcases hs : s.units[u.toNat]? with _ | (r | d | b | v)
    · exact answers_raise hu _
    · exact key r (hu.get hs)
    · exact key d.rb (delayOk_iff.mp (hu.get hs)).1
    · exact answers_raise hu _
    · exact answers_raise hu _
  | setDelay u d =>
    simp only [exec, execSetDelay]
    rcases hs : s.units[u.toNat]? with _ | (r | dl | b | v)
    · exact answers_raise hu _
    · exact answers_raise hu _
    · simp only
      split
      · rename_i hv
        have hd := delayOk_iff.mp (hu.get hs)
        exact answers_set hu (delayOk_iff.mpr ⟨hd.1, fracOk_delayFrac _ _, delayTaps_lt (ringOk_iff.mp hd.1).2.1 hv, hd.2.2.2⟩)
      · exact answers_raise hu _
    · exact answers_raise hu _
    · exact answers_raise hu _
  | stageCoeff u sel v =>
    simp only [exec, execStageCoeff]
    rcases hs : s.units[u.toNat]? with _ | (r | dl | b | w)
    · exact answers_raise hu _
    · exact answers_raise hu _
    · exact answers_raise hu _
    · have hb := biquadOk_iff.mp (hu.get hs)
      simp only
      split
      · rename_i c hc
        exact answers_set hu (biquadOk_iff.mpr ⟨hb.1, stageBq_fits hb.2.1 (fits_lowBits _ _) hc, hb.2.2⟩)
      · exact answers_raise hu _
    · have hb := svfOk_iff.mp (hu.get hs)
      simp only
      split
      · rename_i c hc
        exact answers_set hu (svfOk_iff.mpr ⟨hb.1, stageSvf_fits hb.2.1 (fits_lowBits _ _) hc, hb.2.2⟩)
      · exact answers_raise hu _
  | commit u =>
    simp only [exec, execCommit]
    rcases hs : s.units[u.toNat]? with _ | (r | dl | b | w)
    · exact answers_raise hu _
    · exact answers_raise hu _
    · exact answers_raise hu _
    · have hb := biquadOk_iff.mp (hu.get hs)
      exact answers_set hu (biquadOk_iff.mpr ⟨hb.2.1, hb.2⟩)
    · have hb := svfOk_iff.mp (hu.get hs)
      exact answers_set hu (svfOk_iff.mpr ⟨hb.2.1, hb.2⟩)
  | setParams u sel fc q =>
    simp only [exec, execSetParams]
    rcases hs : s.units[u.toNat]? with _ | (r | dl | b | w)
    · exact answers_raise hu _
    · exact answers_raise hu _
    · exact answers_raise hu _
    · have hb := biquadOk_iff.mp (hu.get hs)
      simp only [setParamsBiquad]
      split
      · split
        · have : ∀ fc q fs r, bqFits s.sfmt (roundBq s.sfmt sel fc q fs r) = true := by
            intro fc q fs r; simp [bqFits, roundBq, fits_roundS]
          exact answers_set hu (biquadOk_iff.mpr ⟨this _ _ _ _, this _ _ _ _, hb.2.2⟩)
        · exact answers_raise hu _
      · exact answers_raise hu _
    · have hb := svfOk_iff.mp (hu.get hs)
      simp only
      split
      · simp only [setParamsSvf]
        split
        · have : ∀ fc q fs r, svfFits s.sfmt (roundSvf s.sfmt fc q fs r) = true := by
            intro fc q fs r; simp [svfFits, roundSvf, fits_roundS]
          exact answers_set hu (svfOk_iff.mpr ⟨this _ _ _ _, this _ _ _ _, hb.2.2⟩)
        · exact answers_raise hu _
      · exact answers_raise hu _
  | setMode u sel =>
    simp only [exec, execSetMode]
    rcases hs : s.units[u.toNat]? with _ | (r | dl | b | w)
    · exact answers_raise hu _
    · exact answers_raise hu _
    · exact answers_raise hu _
    · exact answers_raise hu _
    · have hb := svfOk_iff.mp (hu.get hs)
      simp only
      split
      · exact answers_set hu (svfOk_iff.mpr hb)
      · exact answers_raise hu _
  | reset u =>
    simp only [exec, execReset]
    rcases hs : s.units[u.toNat]? with _ | sl
    · exact answers_raise hu _
    · exact answers_set hu (slotOk_reset (hu.get hs))

theorem runCommand_answers {c : Command} {s : State} (h : s.Ok) : Answers s.sfmt (runCommand c s) := by
  unfold runCommand
  split
  · exact exec_answers h
  · exact answers_raise h.2.1 _

end Sys2Proof.Machine
end

