-- ==== Sys2Proof/Laws/Step.lean ====
section
/-! SUPPORT. What the arbiter and the step can do (R12, R37): the step idles when nothing is pending, else it serves a
pending port with the least ticket; what serving a port leaves. -/

namespace Sys2Proof.Machine

/-- A command keeps the build (R3 to R10). -/
theorem build_of_frame {s t : State} (h : CommandFrame s t) : t.build = s.build := by
  have := h.cfgs
  simp only [State.build, h.sfmt, h.chain, h.ports, this]

/-- The port picked is pending, and no pending port has a smaller ticket. -/
theorem pickPort_some {ps : List Port} : ∀ {i p tk : Nat}, pickPort i ps = some (p, tk) →
    i ≤ p ∧ ∃ q, ps[p - i]? = some q ∧ q.queue ≠ [] ∧ tk = ticket p q ∧
      ∀ j q', ps[j]? = some q' → q'.queue ≠ [] → tk ≤ ticket (i + j) q' := by
  induction ps with
  | nil => intro i p tk h; cases h
  | cons a ps ih =>
    intro i p tk h
    unfold pickPort at h
    split at h
    · rename_i he
      obtain ⟨h1, q, h2, h3, h4, h5⟩ := ih h
      refine ⟨by omega, q, ?_, h3, h4, ?_⟩
      · rw [show p - i = (p - (i+1)) + 1 by omega]; simpa using h2
      · intro j q' hj hq
        cases j with
        | zero => simp at hj; subst hj; simp_all
        | succ j => have := h5 j q' (by simpa using hj) hq; rwa [show i + 1 + j = i + (j+1) by omega] at this
    · rename_i he
      have hane : a.queue ≠ [] := by simpa using he
      have none_case : pickPort (i+1) ps = none → ∀ q' ∈ ps, q'.queue = [] := by
        clear h ih he
        clear p tk
        induction ps generalizing i with
        | nil => intro _ q hq; cases hq
        | cons b ps ih =>
          intro hn
          unfold pickPort at hn
          split at hn
          · rename_i hb
            intro q' hq'
            rcases List.mem_cons.mp hq' with rfl | hq'
            · simpa using hb
            · exact ih hn q' hq'
          · split at hn
            · cases hn
            · split at hn <;> cases hn
      split at h
      · rename_i hn
        cases h
        refine ⟨le_rfl, a, by simp, hane, rfl, ?_⟩
        intro j q' hj hq
        cases j with
        | zero => simp at hj; subst hj; simp
        | succ j => exact absurd (none_case hn q' (List.mem_of_getElem? (by simpa using hj))) hq
      · rename_i jj tj hs
        obtain ⟨h1, q, h2, h3, h4, h5⟩ := ih hs
        split at h
        · rename_i hle
          cases h
          refine ⟨le_rfl, a, by simp, hane, rfl, ?_⟩
          intro j q' hj hq
          cases j with
          | zero => simp at hj; subst hj; simp
          | succ j =>
            have := h5 j q' (by simpa using hj) hq
            rw [show i + 1 + j = i + (j+1) by omega] at this
            omega
        · rename_i hle
          cases h
          refine ⟨by omega, q, ?_, h3, h4, ?_⟩
          · rw [show p - i = (p - (i+1)) + 1 by omega]; simpa using h2
          · intro j q' hj hq
            cases j with
            | zero => simp at hj; subst hj; simp; omega
            | succ j => have := h5 j q' (by simpa using hj) hq; rwa [show i + 1 + j = i + (j+1) by omega] at this

/-- No port is picked exactly when none is pending. -/
theorem pickPort_none {ps : List Port} {i : Nat} : pickPort i ps = none ↔ ∀ q' ∈ ps, q'.queue = [] := by
  induction ps generalizing i with
  | nil => simp [pickPort]
  | cons b ps ih =>
    unfold pickPort
    split
    · rename_i hb; rw [ih]; simp_all
    · rename_i hb
      constructor
      · intro hn
        split at hn
        · cases hn
        · split at hn <;> cases hn
      · intro hq; exfalso; apply hb; simpa using hq b (by simp)

/-- R37, R119: all a step of a valid build can do. -/
theorem step_cases {s : State} (hb : buildValid s.build = true) :
    ((∀ q ∈ s.ports, q.queue = []) ∧ step s = .next s) ∨
    ∃ p q c rest, s.ports[p]? = some q ∧ q.queue = c :: rest ∧ step s = serve p c s ∧
      (∀ j q', s.ports[j]? = some q' → q'.queue ≠ [] → ticket p q ≤ ticket j q') := by
  rcases hp : pickPort 0 s.ports with _ | ⟨p, tk⟩
  · left
    refine ⟨pickPort_none.mp hp, ?_⟩
    simp [step, engineTurn, hb, State.nextPort, hp]
  · right
    obtain ⟨-, q, h2, h3, h4, h5⟩ := pickPort_some hp
    rcases hq : q.queue with _ | ⟨c, rest⟩
    · exact absurd hq h3
    · refine ⟨p, q, c, rest, by simpa using h2, hq, ?_, ?_⟩
      · have h2' : s.ports[p]? = some q := by simpa using h2
        simp [step, engineTurn, hb, State.nextPort, hp, State.pendingAt, h2', hq]
      · subst h4; simpa using h5

/-- R11: an invalid build has no run. -/
theorem step_invalid {s : State} (hb : ¬ buildValid s.build = true) : step s = .refused .invalidBuild := by
  simp [step, engineTurn, hb]

/-- R37: taking port `p`'s command touches port `p` only. -/
theorem take_ports {s : State} {p : Nat} {q : Port} (h : s.ports[p]? = some q) :
    (s.take p).ports[p]? = some { queue := q.queue.tail, since := s.taken + 1 } ∧ ∀ j, j ≠ p → (s.take p).ports[j]? = s.ports[j]? := by
  constructor
  · simp [h]
  · intro j hj; simp [Ne.symm hj]

/-- R37: what serving a port leaves: the command's state with the response moved to the trace. -/
theorem serve_next {p : Nat} {c : Command} {s t : State} (h : serve p c s = .next t) :
    ∃ t1 r, runCommand c (s.take p) = .next t1 ∧ CommandFrame (s.take p) t1 ∧ t1.resp = some r ∧
      t = { t1 with resp := none, trace := s.trace ++ [{ port := p, cmd := c, resp := r }] } := by
  obtain ⟨t1, h1, h2⟩ := andThen_eq_next.mp h
  obtain ⟨hf, r, hr⟩ := runCommand_frame h1
  cases h2
  refine ⟨t1, r, h1, hf, hr, ?_⟩
  rw [State.deliver_eq _ _ _ _ hr, hf.trace]; rfl

theorem take_build (s : State) (p : Nat) : (s.take p).build = s.build := by simp [State.build]

/-- Taking a command keeps the block sound. -/
theorem take_ok {s : State} {p : Nat} (h : s.Ok) : (s.take p).Ok := by
  refine ⟨by rw [take_build]; exact h.1, h.2.1, ?_⟩
  have := h.2.2
  rw [List.all_eq_true] at this ⊢
  intro q hq
  obtain ⟨j, hj⟩ := List.mem_iff_getElem?.mp hq
  simp only [State.take_ports, List.getElem?_modify] at hj
  rcases hs : s.ports[j]? with _ | q0
  · simp [hs] at hj
  · have := this q0 (List.mem_of_getElem? hs)
    simp [hs] at hj this
    rw [decide_eq_true_eq]
    split at hj
    · subst hj; simp
    · subst hj; simp; omega

end Sys2Proof.Machine
end

