-- ==== Sys2Proof/Tests/Slice0.lean ====
section
/-! SUPPORT. Tests of the model against the vectors of spec/95_test_vectors.md, the smoke tests of WellFormed, and a
witness for the hypotheses of each statement in Certificates/Slice0/Obligations.lean. -/

namespace Sys2Proof.Tests

open Sys2Proof Sys2Proof.Machine

/-! ### Small states and what a test looks at -/

/-- A binary32 block with one port. -/
def blk (units : List Slot) (chain : List Nat) : State :=
  { sfmt := .binary32, chain := chain, units := units, ports := [{ queue := [], since := 0 }], resp := none,
    draws := 0, taken := 0, trace := [] }

/-- The same block with commands waiting at ports 0 and 1. -/
def withQueues (s : State) (q0 q1 : List Command) : State :=
  { s with ports := [{ queue := q0, since := 0 }, { queue := q1, since := 0 }] }

def rg (cap : Nat) (buf : Cells) (cur : BitVec 32) : Slot := .ring { cap := cap, buf := buf, cur := cur }

def dl (cap : Nat) (buf : Cells) (cur k : BitVec 32) (frac last : Sample) : Slot :=
  .delay { rb := { cap := cap, buf := buf, cur := cur }, initDelay := 0, dlyInt := k, dlyFrac := frac, lastOut := last }

/-- The sample rate 48000. -/
def fs48 : Word := 0x40E7700000000000

def bq (active shadow : BqCoeffs) (x1 x2 y1 y2 : Sample) : Slot :=
  .biquad { fs := fs48, init := ⟨0x3F800000, 0, 0, 0, 0⟩, active := active, shadow := shadow, x1 := x1, x2 := x2,
            y1 := y1, y2 := y2 }

def sv (active shadow : SvfCoeffs) (mode : BitVec 2) (low band : Sample) : Slot :=
  .svf { fs := fs48, init := ⟨0, 0⟩, initMode := 0, active := active, shadow := shadow, mode := mode, low := low,
         band := band }

/-- The response an outcome holds. -/
def answer (o : Res State) : Option (Status × Word) :=
  match o with
  | .next t => t.resp.map fun r => (r.status, r.data)
  | .fault _ => none
  | .refused _ => none

/-- Unit `u` in the next state. -/
def unitAt (u : Nat) (o : Res State) : Option Slot :=
  match o with
  | .next t => t.units[u]?
  | .fault _ => none
  | .refused _ => none

/-- The outcome is the refusal of an invalid build. -/
def refuses (o : Res State) : Bool :=
  match o with
  | .next _ => false
  | .fault _ => false
  | .refused .invalidBuild => true
  | .refused (.notModelled _) => false

def half : BqCoeffs := ⟨0x3F000000, 0x3F000000, 0, 0, 0⟩
def unity : BqCoeffs := ⟨0x3F800000, 0, 0, 0, 0⟩

/-- The build of T11: unit 0 RING with capacity 4, unit 1 BIQUAD, unit 2 SVF. -/
def t11 : State := blk [rg 4 [] 0, bq unity unity 0 0 0 0, sv ⟨0, 0⟩ ⟨0, 0⟩ 0 0 0] []

/-! ### Decoding: words written out from 30_encoding.md R47, R53 and T10 -/

theorem test_decode_nop : decode ⟨0b00000000000000000000000000000000, 1, 2, 3⟩ = .ok .nop := by decide

theorem test_decode_tick :
    decode ⟨0b00000000000000000000001100000001, 0x3F000000, 0, 0⟩ = .ok (.tick 3 0x3F000000) := by decide

theorem test_decode_chainTick :
    decode ⟨0b00000000000000000000000000000010, 0x3F800000, 0, 0⟩ = .ok (.chainTick 0x3F800000) := by decide

theorem test_decode_lastOut : decode ⟨0b00000000000000001000000000000011, 9, 9, 9⟩ = .ok (.lastOut 128) := by decide

theorem test_decode_rbWrite :
    decode ⟨0b00000000000000000000000000010000, 0x40000000, 0, 0⟩ = .ok (.rbWrite 0 0x40000000) := by decide

theorem test_decode_rbReadAt :
    decode ⟨0b00000000000000001111111100010001, 3, 0, 0⟩ = .ok (.rbReadAt 255 3) := by decide

theorem test_decode_setDelay :
    decode ⟨0b00000000000000000000000000011000, 0x40800000, 0, 0⟩ = .ok (.setDelay 0 0x40800000) := by decide

theorem test_decode_stageCoeff :
    decode ⟨0b00000000000000110000000100100000, 0xBF000000, 0, 0⟩ = .ok (.stageCoeff 1 3 0xBF000000) := by decide

theorem test_decode_commit : decode ⟨0b00000000000000000000000100100001, 0, 0, 0⟩ = .ok (.commit 1) := by decide

theorem test_decode_setParams :
    decode ⟨0b00000000000011110000000100100010, 0x408F400000000000, 0x3FF0000000000000, 5⟩ =
      .ok (.setParams 1 15 0x408F400000000000 0x3FF0000000000000) := by decide

theorem test_decode_setMode : decode ⟨0b00000000000000110000001000100011, 0, 0, 0⟩ = .ok (.setMode 2 3) := by decide

theorem test_decode_reset : decode ⟨0b00000000000000000000000100110000, 0, 0, 0⟩ = .ok (.reset 1) := by decide

theorem test_decode_resetAll : decode ⟨0b00000000000000000000000000110001, 7, 7, 7⟩ = .ok .resetAll := by decide

/-- R48, R49, R52, R54: each check of the decoder refuses, by name (T11). -/
theorem test_decode_refuses :
    decode ⟨0x00100000, 0, 0, 0⟩ = .error .reservedBits ∧ decode ⟨0x80000001, 0, 0, 0⟩ = .error .reservedBits ∧
    decode ⟨0x00000004, 0, 0, 0⟩ = .error (.unassignedOpcode 4) ∧
    decode ⟨0x000000FF, 0, 0, 0⟩ = .error (.unassignedOpcode 0xFF) ∧
    decode ⟨0x00000100, 0, 0, 0⟩ = .error .unitNotZero ∧ decode ⟨0x00000302, 0, 0, 0⟩ = .error .unitNotZero ∧
    decode ⟨0x00010121, 0, 0, 0⟩ = .error .selNotZero ∧ decode ⟨0x00010130, 0, 0, 0⟩ = .error .selNotZero := by decide

/-- R54: the opcodes beside each assigned group are unassigned. -/
theorem test_decode_neighbours :
    ([0x0F, 0x12, 0x17, 0x19, 0x1F, 0x24, 0x2F, 0x32] : List CmdWord).all
      (fun w => decode ⟨w, 0, 0, 0⟩ = .error (.unassignedOpcode (w.extractLsb' 0 8))) = true := by decide

/-- The table numbers `CMD` first, then `ARG0` (log entry 11). -/
theorem test_decodeTableWord :
    decodeTableWord 32 0x00000311 = some (.rbReadAt 3 0) ∧
    decodeTableWord 96 0x0000000000000003_00000311 = some (.rbReadAt 3 3) ∧
    decodeTableWord 32 0x00000004 = none := by decide

/-! ### WellFormed: one ill-formed command for each check -/

/-- R49, R53: a unit that does not exist, and a kind the opcode's row does not list. -/
theorem test_wellFormed_refuses_unit_and_kind :
    ([.tick 3 0, .tick 0 0, .lastOut 0, .lastOut 1, .rbWrite 1 0, .rbReadAt 1 99, .rbReadAt 3 0, .setDelay 1 0,
      .commit 0, .setParams 0 0 0 0, .stageCoeff 0 0 0, .stageCoeff 3 0 0, .setMode 1 0, .reset 3] : List Instr).all
      (fun i => i.wellFormed t11.kinds = false) = true := by decide

/-- R52: a SEL outside the range of the opcode and kind (T11). -/
theorem test_wellFormed_refuses_sel :
    ([.stageCoeff 1 5 0, .stageCoeff 2 2 0, .setParams 2 1 0 0, .setMode 2 4] : List Instr).all
      (fun i => i.wellFormed t11.kinds = false) = true := by decide

/-- R52, R53: the boundary values that are legal. -/
theorem test_wellFormed_accepts :
    ([.nop, .chainTick 0, .resetAll, .tick 1 0, .tick 2 0, .rbWrite 0 0, .rbReadAt 0 99, .stageCoeff 1 4 0,
      .stageCoeff 2 1 0, .commit 1, .setParams 1 15 0 0, .setParams 2 0 0 0, .setMode 2 3, .reset 0, .reset 2]
      : List Instr).all (fun i => i.wellFormed t11.kinds) = true := by decide

/-- T11: every line of the table answers IllegalCommand, DATA 0, and no unit changes. -/
theorem test_illegal_commands :
    ([⟨0x00100000, 0, 0, 0⟩, ⟨0x80000001, 0, 0, 0⟩, ⟨0x00000004, 0, 0, 0⟩, ⟨0x000000FF, 0, 0, 0⟩,
      ⟨0x00000100, 0, 0, 0⟩, ⟨0x00000302, 0, 0, 0⟩, ⟨0x00000001, 0, 0, 0⟩, ⟨0x00000003, 0, 0, 0⟩,
      ⟨0x00000118, 0, 0, 0⟩, ⟨0x00000311, 0, 0, 0⟩, ⟨0x00000111, 99, 0, 0⟩, ⟨0x00050120, 0, 0, 0⟩,
      ⟨0x00020220, 0, 0, 0⟩, ⟨0x00040223, 0, 0, 0⟩, ⟨0x00010222, 0, 0, 0⟩, ⟨0x00010121, 0, 0, 0⟩,
      ⟨0x00010130, 0, 0, 0⟩, ⟨0x00000123, 0, 0, 0⟩] : List Command).all
      (fun c => answer (runCommand c t11) = some (.illegalCommand, 0) &&
        unitAt 1 (runCommand c t11) = t11.units[1]?) = true := by decide +kernel

/-! ### One step of each command -/

/-- T26. -/
theorem test_nop : answer (exec .nop t11) = some (.ok, 0) := by decide

/-- T1 tick 5: tap slot `(5 - 1 - 4) mod 8 = 0`; T15: an integer delay of 3 on capacity 4 answers the oldest slot. -/
theorem test_tick_delay_integer :
    answer (exec (.tick 0 0) (blk [dl 8 [(0, 0x3F800000)] 4 4 0 0] [])) = some (.ok, 0x3F800000) ∧
    unitAt 0 (exec (.tick 0 0) (blk [dl 8 [(0, 0x3F800000)] 4 4 0 0] [])) =
      some (dl 8 [(0, 0x3F800000)] 5 4 0 0x3F800000) ∧
    answer (exec (.tick 0 0x40800000) (blk [dl 4 [(0, 0x3F800000), (1, 0x40000000), (2, 0x40400000)] 3 3 0 0] []))
      = some (.ok, 0x3F800000) := by decide +kernel

/-- T5 (third row, tick 2), T14 (tick 2), T3 (tick 2), T21 (tick 2). -/
theorem test_tick_arithmetic :
    answer (exec (.tick 0 0x3DCCCCCD) (blk [dl 4 [(0, 0x3DCCCCCD)] 1 0 0x3DCCCCCD 0] [])) = some (.ok, 0x3DCCCCCC) ∧
    answer (exec (.tick 0 0) (blk [dl 4 [(0, 0x3F800000)] 1 1 0x3F000000 0] [])) = some (.ok, 0x3F000000) ∧
    unitAt 0 (exec (.tick 0 0x3F800000) (blk [bq half half 0x3F800000 0 0x3F000000 0] [])) =
      some (bq half half 0x3F800000 0x3F800000 0x3F800000 0x3F000000) ∧
    unitAt 0 (exec (.tick 0 0x3F800000) (blk [sv ⟨0x3F000000, 0x3F800000⟩ ⟨0, 0⟩ 0 0 0x3F000000] [])) =
      some (sv ⟨0x3F000000, 0x3F800000⟩ ⟨0, 0⟩ 0 0x3E800000 0x3F200000) := by decide +kernel

/-- T10: with SFMT binary64 a delay of 0 returns the input, and the whole word is the sample. -/
theorem test_tick_binary64 :
    answer (exec (.tick 0 0x3FF0000000000000) { blk [dl 4 [] 3 0 0 0] [] with sfmt := .binary64 }) =
      some (.ok, 0x3FF0000000000000) ∧
    fpMul .binary64 0 0x3FE6666666666666 0x3FE0000000000000 = 0x3FD6666666666666 := by decide +kernel

/-- P3 line 9: the delay answers 1.0, the biquad halves it. -/
theorem test_chainTick :
    answer (exec (.chainTick 0x3F800000)
      (blk [dl 4 [(0, 0x3F800000)] 1 1 0 0, bq half half 0 0 0 0] [0, 1])) = some (.ok, 0x3F000000) := by decide +kernel

/-- T25: an empty chain answers a bit copy, a signalling NaN included. -/
theorem test_chainTick_empty :
    exec (.chainTick 0x7F800001) t11 = .next { t11 with resp := some ⟨.ok, 0x7F800001⟩ } := by rfl

/-- T16. -/
theorem test_lastOut :
    answer (exec (.lastOut 0) (blk [dl 8 [(0, 0x3F800000)] 5 4 0 0x3F800000] [])) = some (.ok, 0x3F800000) := by decide

/-- T12: the write that wraps the cursor, bit for bit, upper operand bits ignored (U9). -/
theorem test_rbWrite :
    unitAt 0 (exec (.rbWrite 0 0xDEADBEEF7F800001)
      (blk [rg 4 [(0, 0x3F800000), (1, 0x40000000), (2, 0x40400000)] 3] [])) =
      some (rg 4 [(0, 0x3F800000), (1, 0x40000000), (2, 0x40400000), (3, 0x7F800001)] 0) := by decide

/-- Writing the value an unlisted slot reads as removes the entry. -/
theorem test_rbWrite_zero :
    unitAt 0 (exec (.rbWrite 0 0) (blk [rg 4 [(0, 0x40A00000), (1, 0x40000000)] 1] [])) =
      some (rg 4 [(0, 0x40A00000)] 2) := by decide

/-- T12: `BUF = [5,2,3,4]`, `CUR = 1`; offsets 0 to 3 are 5, 4, 3, 2. -/
theorem test_rbReadAt :
    [0, 1, 2, 3].map (fun off => answer (exec (.rbReadAt 0 off)
      (blk [rg 4 [(0, 0x40A00000), (1, 0x40000000), (2, 0x40400000), (3, 0x40800000)] 1] []))) =
      [some (.ok, 0x40A00000), some (.ok, 0x40800000), some (.ok, 0x40400000), some (.ok, 0x40000000)] := by
  decide +kernel

/-- T12: OutOfRange from the capacity on. -/
theorem test_rbReadAt_outOfRange :
    answer (exec (.rbReadAt 0 4) t11) = some (.outOfRange, 0) ∧
    answer (exec (.rbReadAt 0 0xFFFFFFFFFFFFFFFF) t11) = some (.outOfRange, 0) := by decide

/-- T13: the accepted lengths. -/
theorem test_setDelay :
    ([(0x40E00000, 7, 0), (0x80000000, 0, 0), (0x40200000, 2, 0x3F000000), (0x40CCCCCD, 6, 0x3ECCCCD0),
      (0x00000001, 0, 0x00000001)] : List (Word × BitVec 32 × Sample)).all
      (fun p => unitAt 0 (exec (.setDelay 0 p.1) (blk [dl 8 [] 0 3 0 0] [])) = some (dl 8 [] 0 p.2.1 p.2.2 0)) = true := by
  decide +kernel

/-- T13: the refused lengths 7.5, 8, -0.5, NaN and both infinities. -/
theorem test_setDelay_invalid :
    ([0x40F00000, 0x41000000, 0xBF000000, 0x7FC00000, 0x7F800000, 0xFF800000] : List Word).all
      (fun d => answer (exec (.setDelay 0 d) (blk [dl 8 [] 0 3 0 0] [])) = some (.invalidParameter, 0) &&
        unitAt 0 (exec (.setDelay 0 d) (blk [dl 8 [] 0 3 0 0] [])) = some (dl 8 [] 0 3 0 0)) = true := by decide +kernel

/-- T19: the shadow bank only; T18: a NaN is accepted. -/
theorem test_stageCoeff :
    unitAt 0 (exec (.stageCoeff 0 0 0x40000000) (blk [bq unity unity 0 0 0 0] [])) =
      some (bq unity ⟨0x40000000, 0, 0, 0, 0⟩ 0 0 0 0) ∧
    unitAt 0 (exec (.stageCoeff 0 3 0x7FC00000) (blk [bq unity unity 0 0 0 0] [])) =
      some (bq unity ⟨0x3F800000, 0, 0, 0x7FC00000, 0⟩ 0 0 0 0) ∧
    unitAt 0 (exec (.stageCoeff 0 1 0x3F800000) (blk [sv ⟨0, 0⟩ ⟨0, 0⟩ 1 5 6] [])) =
      some (sv ⟨0, 0⟩ ⟨0, 0x3F800000⟩ 1 5 6) := by decide +kernel

/-- T19, T23: the active bank becomes the shadow bank, the state registers stay. -/
theorem test_commit :
    unitAt 0 (exec (.commit 0) (blk [bq unity half 1 2 3 4] [])) = some (bq half half 1 2 3 4) ∧
    unitAt 0 (exec (.commit 0) (blk [sv ⟨0, 0⟩ ⟨7, 8⟩ 1 5 6] [])) = some (sv ⟨7, 8⟩ ⟨7, 8⟩ 1 5 6) := by decide +kernel

/-- T20: cutoff at and above the Nyquist frequency, Q not above 0, cutoff 0, a NaN, an infinity. -/
theorem test_setParams_invalid :
    ([(0x40D7700000000000, 0x3FF0000000000000), (0x40DD4C0000000000, 0x3FF0000000000000), (0x408F400000000000, 0),
      (0x408F400000000000, 0xBFF0000000000000), (0, 0x3FF0000000000000), (0x7FF8000000000000, 0x3FF0000000000000),
      (0x408F400000000000, 0x7FF0000000000000)] : List (Word × Word)).all
      (fun p => answer (exec (.setParams 1 0 p.1 p.2) t11) = some (.invalidParameter, 0) &&
        answer (exec (.setParams 2 0 p.1 p.2) t11) = some (.invalidParameter, 0)) = true := by decide +kernel

/-- T20: `fc = 1000`, `Q = 1.0` pass the domain check; on an SVF unit that is OK whatever the design function. -/
theorem test_setParams :
    paramsValid fs48 0x408F400000000000 0x3FF0000000000000 = true ∧
    answer (exec (.setParams 2 0 0x408F400000000000 0x3FF0000000000000) t11) = some (.ok, 0) := by
  have h : paramsValid fs48 0x408F400000000000 0x3FF0000000000000 = true := by decide +kernel
  refine ⟨h, ?_⟩
  have h2 : exec (.setParams 2 0 0x408F400000000000 0x3FF0000000000000) t11 =
      .next (setParamsSvf 2 0x408F400000000000 0x3FF0000000000000
        { fs := fs48, init := ⟨0, 0⟩, initMode := 0, active := ⟨0, 0⟩, shadow := ⟨0, 0⟩, mode := 0, low := 0,
          band := 0 } t11) := rfl
  rw [h2, setParamsSvf, if_pos h]
  rfl

/-- T23, R83. -/
theorem test_setMode :
    unitAt 2 (exec (.setMode 2 1) t11) = some (sv ⟨0, 0⟩ ⟨0, 0⟩ 1 0 0) ∧
    answer (exec (.setMode 2 4) t11) = some (.illegalCommand, 0) := by decide

/-- T24, T19: the running state is cleared, the delay, both banks and MODE kept. -/
theorem test_reset :
    unitAt 0 (exec (.reset 0) (blk [dl 4 [(0, 1), (2, 3)] 2 1 0x3F000000 9] [])) = some (dl 4 [] 0 1 0x3F000000 0) ∧
    unitAt 0 (exec (.reset 0) (blk [bq unity half 1 2 3 4] [])) = some (bq unity half 0 0 0 0) ∧
    unitAt 0 (exec (.reset 0) (blk [sv ⟨1, 2⟩ ⟨3, 4⟩ 2 5 6] [])) = some (sv ⟨1, 2⟩ ⟨3, 4⟩ 2 0 0) := by decide +kernel

/-- T24. -/
theorem test_resetAll :
    exec .resetAll (blk [rg 4 [(1, 5)] 2, sv ⟨1, 2⟩ ⟨3, 4⟩ 2 5 6] []) =
      .next { blk [rg 4 [] 0, sv ⟨1, 2⟩ ⟨3, 4⟩ 2 0 0] [] with resp := some ⟨.ok, 0⟩ } := by rfl

/-- T18: overflow gives an infinity; `-0` in a biquad gives `+0`. A NaN input gives a NaN. -/
theorem test_arithmetic_corners :
    fpMul .binary32 0 0x40000000 0x7F7FFFFF = 0x7F800000 ∧ fpAdd .binary32 0 0x80000000 0 = 0 ∧
    fpAdd .binary32 0 0x80000000 0x80000000 = 0x80000000 ∧ fpMul .binary32 0 0x00000001 0x3F000000 = 0 ∧
    isNaN .binary32 (fpMul .binary32 0 0 0x7F800000) = true := by
  refine ⟨by decide +kernel, by decide +kernel, by decide +kernel, by decide +kernel, ?_⟩
  have h : fpMul .binary32 0 0 0x7F800000 = drawnNaN .binary32 0 := by rfl
  rw [h]
  exact isNaN_quietNaN _ _

/-! ### The step, the ports and the build -/

/-- Log entry 9: from reset with nothing placed the block is idle; a placed word is what the next step runs. -/
theorem test_placed_word_runs :
    step State.reset = .next State.reset ∧
    (∃ t, step (State.reset.withFetchWord 32 0x00000031) = .next t ∧
      t.trace = [⟨0, ⟨0x31, 0, 0, 0⟩, ⟨.ok, 0⟩⟩] ∧ t.ports.map Port.queue = [[], []]) ∧
    (∃ t, step (State.reset.withFetchWord 32 0x00000003) = .next t ∧
      t.trace = [⟨0, ⟨0x3, 0, 0, 0⟩, ⟨.ok, 0⟩⟩]) := by
  refine ⟨by rfl, ⟨_, by rfl, by rfl, by rfl⟩, ⟨_, by rfl, by rfl⟩⟩

/-- T13 through a step: the response goes to the port that issued the command. -/
theorem test_step_answers_the_port :
    ∃ t, step (withQueues State.reset [] [⟨0x00000018, 0x41000000, 0, 0⟩, ⟨0x00000000, 0, 0, 0⟩]) = .next t ∧
      t.trace = [⟨1, ⟨0x00000018, 0x41000000, 0, 0⟩, ⟨.invalidParameter, 0⟩⟩] ∧
      t.ports.map Port.queue = [[], [⟨0x00000000, 0, 0, 0⟩]] := by
  exact ⟨_, by rfl, by rfl, by rfl⟩

/-- R51: the status codes. -/
theorem test_status_codes :
    [Status.ok, .invalidParameter, .outOfRange, .illegalCommand].map Status.code = [0, 1, 2, 3] := by decide

/-- R57: `stage u1.a1, -0.5` is `CMD = 0x00030120`, `ARG0 = 0xBF000000`; the names of its parts. -/
theorem test_asm :
    encode (.stageCoeff 1 3 0xBF000000) = ⟨0x00030120, 0xBF000000, 0, 0⟩ ∧
    asmName (.stageCoeff 1 3 0xBF000000) = "stage" ∧ asmSel .biquad (.stageCoeff 1 3 0xBF000000) = some "a1" ∧
    asmSel .svf (.setMode 2 1) = some "hp" := by decide

/-- R57, T10: a line with a named SEL, and one with a decimal literal and no SEL. -/
theorem test_asmLine :
    asmLine .binary32 t11.kinds (.stageCoeff 1 3 0xBF000000) = "stage u1.a1, 0xBF000000" ∧
    asmLine .binary32 t11.kinds (.setParams 2 0 0x408F400000000000 0x3FF0000000000000) =
      "set_params u2, 1000.0, 1.0" := by decide +kernel

/-- R30: the memory at reset is in canonical form. -/
theorem test_reset_memory_wf : Memory.wf State.reset = true := by decide

/-- A build of one RING unit, its parts replaced to break R11. -/
def badBuilds : List State :=
  [ blk [] [], blk (List.replicate 257 (rg 1 [] 0)) [], blk [rg 0 [] 0] [], blk [rg (2 ^ 32 + 1) [] 0] [],
    blk [.delay { rb := ⟨8, [], 0⟩, initDelay := 0x7FC00000, dlyInt := 0, dlyFrac := 0, lastOut := 0 }] [],
    blk [.delay { rb := ⟨8, [], 0⟩, initDelay := 0xBF000000, dlyInt := 0, dlyFrac := 0, lastOut := 0 }] [],
    blk [.delay { rb := ⟨8, [], 0⟩, initDelay := 0x40F00000, dlyInt := 0, dlyFrac := 0, lastOut := 0 }] [],
    blk [.biquad { fs := 0x7FF0000000000000, init := unity, active := unity, shadow := unity, x1 := 0, x2 := 0,
                   y1 := 0, y2 := 0 }] [],
    blk [.biquad { fs := 0x8000000000000000, init := unity, active := unity, shadow := unity, x1 := 0, x2 := 0,
                   y1 := 0, y2 := 0 }] [],
    blk [.svf { fs := fs48, init := ⟨0, 0⟩, initMode := 4, active := ⟨0, 0⟩, shadow := ⟨0, 0⟩, mode := 0, low := 0,
                band := 0 }] [],
    blk [.svf { fs := 0x7FF8000000000000, init := ⟨0, 0⟩, initMode := 0, active := ⟨0, 0⟩, shadow := ⟨0, 0⟩, mode := 0,
                low := 0, band := 0 }] [],
    blk [.svf { fs := 0, init := ⟨0, 0⟩, initMode := 0, active := ⟨0, 0⟩, shadow := ⟨0, 0⟩, mode := 0, low := 0,
                band := 0 }] [],
    blk [dl 0 [] 0 0 0 0] [], blk [dl (2 ^ 32 + 1) [] 0 0 0 0] [],
    blk [rg 1 [] 0] [0], blk [dl 8 [] 0 0 0 0] [1], blk [dl 8 [] 0 0 0 0] [0, 0],
    { blk [rg 1 [] 0] [] with ports := [] } ]

/-- R11: each of them is refused. -/
theorem test_invalid_builds : badBuilds.all (fun s => refuses (step s)) = true := by decide +kernel

/-! ### Witnesses: states and operands that meet the hypotheses of the statements -/

/-- The outcome is a next state. -/
def goes (o : Res State) : Bool :=
  match o with
  | .next _ => true
  | .fault _ => false
  | .refused _ => false

theorem next_of_goes {o : Res State} (h : goes o = true) : ∃ t, o = .next t := by
  cases o with
  | next t => exact ⟨t, rfl⟩
  | fault e => cases h
  | refused r => cases h

/-- A sound block with a unit of each kind, two of them in the chain. -/
def sound : State :=
  withQueues (blk [dl 4 [(0, 0x3F800000)] 3 3 0 0, bq unity half 1 2 3 4, sv ⟨1, 2⟩ ⟨3, 4⟩ 3 5 6, rg 1 [] 0] [1, 0]) [] []

theorem test_witness_sound : sound.Ok ∧ sound.resp = none := by decide +kernel

theorem test_witness_EncodeOfDecodeKeepsCommandWord :
    decode ⟨0x00030120, 0xBF000000, 8, 9⟩ = .ok (.stageCoeff 1 3 0xBF000000) := by decide

theorem test_witness_UnusedOperandWordsAreIgnored :
    ∃ (c : Command) (a0 a1 a2 : Word),
      (c.cmd.toNat % 256 ∈ [0x01, 0x02, 0x10, 0x11, 0x18, 0x20, 0x22] → a0 = c.arg0) ∧
      (c.cmd.toNat % 256 = 0x22 → a1 = c.arg1) ∧ a1 ≠ c.arg1 ∧ a2 ≠ c.arg2 :=
  ⟨⟨0x00000301, 1, 2, 3⟩, 1, 7, 8, by decide, by decide, by decide, by decide⟩

theorem test_witness_ReservedBitsAreIllegal : (0x00100000 : CmdWord).toNat / 2 ^ 20 ≠ 0 := by decide

theorem test_witness_UnassignedOpcodesAreIllegal :
    ([0x04, 0x0F, 0x12, 0x32, 0xFF] : List CmdWord).all (fun w => decide (w.toNat % 256 ∉
      [0x00, 0x01, 0x02, 0x03, 0x10, 0x11, 0x18, 0x20, 0x21, 0x22, 0x23, 0x30, 0x31])) = true := by decide

theorem test_witness_NonzeroUnusedFieldsAreIllegal :
    ((0x0000FF31 : CmdWord).toNat % 256 ∈ [0x00, 0x02, 0x31] ∧ (0x0000FF31 : CmdWord).toNat / 256 % 256 ≠ 0) ∧
    ((0x000F0130 : CmdWord).toNat % 256 ∉ [0x20, 0x22, 0x23] ∧ (0x000F0130 : CmdWord).toNat / 65536 % 16 ≠ 0) := by
  decide

theorem test_witness_IllFormedCommandsAreIllegal :
    (Instr.tick 4 0).wellFormed sound.kinds = false ∧ (Instr.tick 3 0).wellFormed sound.kinds = false ∧
    (Instr.stageCoeff 1 5 0).wellFormed sound.kinds = false := by decide

/-- One command of each constructor, in a sound state. -/
theorem test_witness_WellFormedCommandsComplete :
    sound.Ok ∧ ([.nop, .tick 0 0, .chainTick 0, .lastOut 0, .rbWrite 3 0, .rbReadAt 0 4, .setDelay 0 0,
      .stageCoeff 1 4 0, .commit 1, .setParams 1 15 0 0, .setMode 2 3, .reset 3, .resetAll] : List Instr).all
      (fun i => i.wellFormed sound.kinds) = true := by decide +kernel

/-- A block with one command at port 0. -/
def oneCommand (c : Command) : State := withQueues sound [c] []

theorem test_witness_StepRunsDecodedInstruction :
    buildValid (oneCommand ⟨0x00000301, 5, 0, 0⟩).build = true ∧ (oneCommand ⟨0x00000301, 5, 0, 0⟩).nextPort = some 0 ∧
    (oneCommand ⟨0x00000301, 5, 0, 0⟩).pendingAt 0 = some ⟨0x00000301, 5, 0, 0⟩ ∧
    decode ⟨0x00000301, 5, 0, 0⟩ = .ok (.tick 3 5) := by decide +kernel

theorem test_witness_StepAnswersUndecodableCommand :
    buildValid (oneCommand ⟨0x00000004, 5, 0, 0⟩).build = true ∧ (oneCommand ⟨0x00000004, 5, 0, 0⟩).nextPort = some 0 ∧
    (oneCommand ⟨0x00000004, 5, 0, 0⟩).pendingAt 0 = some ⟨0x00000004, 5, 0, 0⟩ ∧
    decode ⟨0x00000004, 5, 0, 0⟩ = .error (.unassignedOpcode 4) := by decide +kernel

theorem test_witness_QuiescentBlockIdles :
    buildValid sound.build = true ∧ ∀ q ∈ sound.ports, q.queue = [] := by decide +kernel

/-- Commands pending at both ports. -/
def contended : State := withQueues sound [⟨0x00000031, 0, 0, 0⟩, ⟨0x00000000, 0, 0, 0⟩] [⟨0x00000121, 0, 0, 0⟩]

theorem test_witness_PendingBlockServesAPort :
    buildValid contended.build = true ∧ (∃ q ∈ contended.ports, q.queue ≠ []) := by decide +kernel

/-- What breaks each clause of the statement; `badBuilds` holds a whole block for each. -/
theorem test_witness_InvalidBuildHasNoRun :
    (blk [] []).units.length = 0 ∧ 256 < (blk (List.replicate 257 (rg 1 [] 0)) []).units.length ∧
    (∃ sl ∈ (blk [rg 0 [] 0] []).units, ∃ r, sl = .ring r ∧ r.cap = 0) ∧
    (∃ sl ∈ (blk [rg (2 ^ 32 + 1) [] 0] []).units, ∃ r, sl = .ring r ∧ 2 ^ 32 < r.cap) ∧
    isFinite .binary32 0x7FC00000 = false ∧ value .binary32 0xBF000000 < 0 ∧
    (((8 : Nat) : Int) - 1) * unitsPerOne .binary32 < value .binary32 0x40F00000 ∧
    isFinite .binary64 0x7FF0000000000000 = false ∧ value .binary64 0x8000000000000000 ≤ 0 ∧ (3 : Nat) < 4 ∧
    (∃ c ∈ (blk [dl 8 [] 0 0 0 0] [1]).chain, (blk [dl 8 [] 0 0 0 0] [1]).units.length ≤ c) ∧
    (∃ c ∈ (blk [rg 1 [] 0] [0]).chain, ∃ r, (blk [rg 1 [] 0] [0]).units[c]? = some (.ring r)) ∧
    ¬ (blk [dl 8 [] 0 0 0 0] [0, 0]).chain.Nodup ∧
    ({ blk [rg 1 [] 0] [] with ports := [] } : State).ports.length = 0 := by
  refine ⟨rfl, by decide +kernel, ⟨rg 0 [] 0, by simp [blk], ⟨0, [], 0⟩, rfl, rfl⟩,
    ⟨rg (2 ^ 32 + 1) [] 0, by simp [blk], ⟨2 ^ 32 + 1, [], 0⟩, rfl, by decide⟩, by decide +kernel, by decide +kernel, by decide +kernel, by decide +kernel,
    by decide +kernel, by decide, ⟨1, by decide, by decide⟩, ⟨0, by decide, ⟨1, [], 0⟩, rfl⟩, by decide, rfl⟩

/-- A build with a fractional construction delay and the mode NOTCH. -/
def fracBuild : Build where
  sfmt := .binary32
  units := [.delay 8 0x40CCCCCD, .svf fs48 ⟨1, 2⟩ 3, .biquad fs48 half, .ring 1]
  chain := []
  nports := 1

theorem test_witness_PowerOnMeetsInvariant : buildValid Config.defaultBuild = true := by decide +kernel

theorem test_witness_PowerOnRegisters :
    buildValid fracBuild = true ∧ fracBuild.units[0]? = some (.delay 8 0x40CCCCCD) ∧
    fracBuild.units[1]? = some (.svf fs48 ⟨1, 2⟩ 3) ∧ fracBuild.units[2]? = some (.biquad fs48 half) ∧
    fracBuild.units[3]? = some (.ring 1) := by decide +kernel

/-- StepKeepsInvariant, SoundStatesNeverStop, StepKeepsIssueOrder, StepKeepsBuild. -/
theorem test_witness_StepKeepsInvariant :
    (oneCommand ⟨0x00000002, 0x3F800000, 0, 0⟩).Inv ∧
    ∃ t, step (oneCommand ⟨0x00000002, 0x3F800000, 0, 0⟩) = .next t :=
  ⟨by decide +kernel, next_of_goes (by decide +kernel)⟩

theorem test_witness_PendingCommandIsTakenEventually :
    contended.Inv ∧ contended.ports[1]? = some { queue := [⟨0x00000121, 0, 0, 0⟩], since := 0 } := by decide +kernel

theorem test_witness_FailedCommandChangesNothing :
    answer (runCommand ⟨0x00000011, 4, 0, 0⟩ sound) = some (.outOfRange, 0) ∧
    answer (runCommand ⟨0x00000018, 0x40800000, 0, 0⟩ sound) = some (.invalidParameter, 0) ∧
    answer (runCommand ⟨0x00000301, 0, 0, 0⟩ sound) = some (.illegalCommand, 0) := by decide +kernel

theorem test_witness_ResponseDataFitsTheFormat :
    answer (runCommand ⟨0x00000002, 0xDEADBEEF3F800000, 0, 0⟩ t11) = some (.ok, 0x3F800000) := by decide +kernel

theorem test_witness_UpperOperandBitsAreIgnored :
    (0xDEADBEEF3F800000 : Word).toNat % 2 ^ Sfmt.binary32.width = (0x3F800000 : Word).toNat % 2 ^ Sfmt.binary32.width ∧
    (5 : Word).toNat % 2 ^ Sfmt.binary64.width = (5 : Word).toNat % 2 ^ Sfmt.binary64.width := by decide

theorem test_witness_OneUnitCommandsTouchOneUnit :
    Instr.rbWrite 3 5 ≠ .resetAll ∧ (∀ x, Instr.rbWrite 3 5 ≠ .chainTick x) ∧
    ∃ t, exec (.rbWrite 3 5) sound = .next t :=
  ⟨by decide, by simp, next_of_goes (by decide +kernel)⟩

theorem test_witness_OneUnitCommandsReadOneUnit :
    Instr.tick 0 5 ≠ .resetAll ∧ (∀ x, Instr.tick 0 5 ≠ .chainTick x) ∧
    (blk [dl 4 [(0, 0x3F800000)] 3 3 0 0] []).sfmt = sound.sfmt ∧
    (blk [dl 4 [(0, 0x3F800000)] 3 3 0 0] []).draws = sound.draws ∧
    (blk [dl 4 [(0, 0x3F800000)] 3 3 0 0] []).units[(0 : BitVec 8).toNat]? = sound.units[(0 : BitVec 8).toNat]? ∧
    ∃ t, exec (.tick 0 5) sound = .next t :=
  ⟨by decide, by simp, by decide, by decide, by decide +kernel, next_of_goes (by decide +kernel)⟩

/-- On a DELAY unit at the last slot, on a RING unit of capacity 1. -/
theorem test_witness_RbWriteStoresAndAdvances :
    (sound.units[(0 : BitVec 8).toNat]? = some (dl 4 [(0, 0x3F800000)] 3 3 0 0) ∧
      (dl 4 [(0, 0x3F800000)] 3 3 0 0).ringBuf = some ⟨4, [(0, 0x3F800000)], 3⟩ ∧ (4 : Nat) ≤ 2 ^ 32 ∧
      cellsWf 4 0 [(0, 0x3F800000)] = true ∧ (3 : BitVec 32).toNat < 4) ∧
    (sound.units[(3 : BitVec 8).toNat]? = some (rg 1 [] 0) ∧ (rg 1 [] 0).ringBuf = some ⟨1, [], 0⟩ ∧
      (1 : Nat) ≤ 2 ^ 32 ∧ cellsWf 1 0 [] = true ∧ (0 : BitVec 32).toNat < 1) := by decide +kernel

/-- The last offset that answers and the first that does not. -/
theorem test_witness_RbReadAtAnswersTheSlot :
    sound.units[(0 : BitVec 8).toNat]? = some (dl 4 [(0, 0x3F800000)] 3 3 0 0) ∧
    (dl 4 [(0, 0x3F800000)] 3 3 0 0).ringBuf = some ⟨4, [(0, 0x3F800000)], 3⟩ ∧ ¬ 4 ≤ (3 : Word).toNat ∧
    4 ≤ (4 : Word).toNat := by decide +kernel

/-- Capacity 4 with the first and the last offset that shift, and capacity 1, where none does. -/
theorem test_witness_WriteShiftsOffsetsByOne :
    ((4 : Nat) ≤ 2 ^ 32 ∧ cellsWf 4 0 [(0, 0x3F800000)] = true ∧ (3 : BitVec 32).toNat < 4 ∧ 1 ≤ 1 ∧ 3 < 4) ∧
    ((1 : Nat) ≤ 2 ^ 32 ∧ cellsWf 1 0 [] = true ∧ (0 : BitVec 32).toNat < 1) := by decide

/-- Three writes into capacity 4, the oldest of them read back. -/
theorem test_witness_LastWritesAreReadBack :
    (4 : Nat) ≤ 2 ^ 32 ∧ cellsWf 4 0 [(0, 0x3F800000)] = true ∧ (3 : BitVec 32).toNat < 4 ∧
    ([7, 8, 9] : List Sample)[3 - 1 - 2]? = some 7 ∧ 2 < 4 ∧ 2 < ([7, 8, 9] : List Sample).length := by decide

/-- `C - 1`, `-0` and `0` are valid lengths; `C - 1/2`, a negative length, a NaN and an infinity are not. -/
theorem test_witness_SetDelaySplitsTheLength :
    sound.units[(0 : BitVec 8).toNat]? = some (dl 4 [(0, 0x3F800000)] 3 3 0 0) ∧ 1 ≤ 4 ∧ (4 : Nat) ≤ 2 ^ 32 ∧
    ([0x40400000, 0x80000000, 0] : List Word).all (fun x => isFinite .binary32 (lowBits .binary32 x) &&
      decide (0 ≤ value .binary32 (lowBits .binary32 x)) &&
      decide (value .binary32 (lowBits .binary32 x) ≤ (((4 : Nat) : Int) - 1) * unitsPerOne .binary32)) = true ∧
    ([0x40600000, 0x80000001, 0x7FC00000, 0x7F800000] : List Word).any
      (fun x => isFinite .binary32 (lowBits .binary32 x) &&
      decide (0 ≤ value .binary32 (lowBits .binary32 x)) &&
      decide (value .binary32 (lowBits .binary32 x) ≤ (((4 : Nat) : Int) - 1) * unitsPerOne .binary32)) = false := by
  decide +kernel

/-- `DLY_INT = C - 1` and `DLY_INT = 0`. -/
theorem test_witness_IntegerDelayTickCopiesTheTap :
    sound.units[(0 : BitVec 8).toNat]? = some (dl 4 [(0, 0x3F800000)] 3 3 0 0) ∧
    (blk [dl 4 [(0, 0x3F800000)] 3 0 0 0] []).units[(0 : BitVec 8).toNat]? = some (dl 4 [(0, 0x3F800000)] 3 0 0 0) ∧
    (4 : Nat) ≤ 2 ^ 32 ∧ cellsWf 4 0 [(0, 0x3F800000)] = true ∧ (3 : BitVec 32).toNat < 4 ∧ isZero .binary32 0 = true ∧
    (0 : BitVec 32).toNat < 4 := by decide +kernel

/-- `DLY_INT + 1 = C - 1` and `DLY_INT = 0`. -/
theorem test_witness_FractionalDelayTickInterpolates :
    (blk [dl 4 [(0, 0x3F800000)] 3 2 0x3F000000 0] []).units[(0 : BitVec 8).toNat]? =
      some (dl 4 [(0, 0x3F800000)] 3 2 0x3F000000 0) ∧ (4 : Nat) ≤ 2 ^ 32 ∧ cellsWf 4 0 [(0, 0x3F800000)] = true ∧
    (3 : BitVec 32).toNat < 4 ∧ isZero .binary32 0x3F000000 = false ∧ (2 : BitVec 32).toNat + 1 < 4 ∧
    (0 : BitVec 32).toNat + 1 < 4 := by decide

theorem test_witness_LastOutAnswersTheRegister :
    sound.units[(0 : BitVec 8).toNat]? = some (dl 4 [(0, 0x3F800000)] 3 3 0 0) := by decide +kernel

/-- Delay 3 on capacity 4, five inputs: position 1 is before the delay, 1 + 3 within the stream, 2 + 3 past it. -/
theorem test_witness_IntegerDelayReplaysItsInput :
    (blk [dl 4 [] 3 3 0 0] []).units[(0 : BitVec 8).toNat]? = some (dl 4 [] 3 3 0 0) ∧ 1 ≤ 4 ∧ (4 : Nat) ≤ 2 ^ 32 ∧
    (3 : BitVec 32).toNat < 4 ∧
    isZero .binary32 0 = true ∧ ([1, 2, 3, 4, 5] : List Word)[1]? = some 2 ∧ 1 < (3 : BitVec 32).toNat ∧
    1 + (3 : BitVec 32).toNat < ([1, 2, 3, 4, 5] : List Word).length ∧
    ¬ 2 + (3 : BitVec 32).toNat < ([1, 2, 3, 4, 5] : List Word).length := by decide

/-- StageCoeffWritesTheShadowBank, CommitCopiesTheShadowBank, BiquadTickEvaluatesTheEquation and
SvfTickPerformsTheStep: a BIQUAD unit 1 and an SVF unit 2. -/
theorem test_witness_StageCoeffWritesTheShadowBank :
    sound.units[(1 : BitVec 8).toNat]? = some (bq unity half 1 2 3 4) ∧
    sound.units[(2 : BitVec 8).toNat]? = some (sv ⟨1, 2⟩ ⟨3, 4⟩ 3 5 6) ∧ (4 : BitVec 4).toNat ≤ 4 ∧
    (1 : BitVec 4).toNat ≤ 1 := by decide +kernel

/-- Both SET_PARAMS statements: just below the Nyquist frequency the domain check passes; at it, with `Q = 0`, and with a
NaN it does not. -/
theorem test_witness_SetParamsInstallsTheDesign :
    sound.units[(1 : BitVec 8).toNat]? = some (bq unity half 1 2 3 4) ∧
    sound.units[(2 : BitVec 8).toNat]? = some (sv ⟨1, 2⟩ ⟨3, 4⟩ 3 5 6) ∧ isFinite .binary64 fs48 = true ∧
    (isFinite .binary64 0x40D76FFFFFFFFFFF = true ∧ isFinite .binary64 0x0000000000000001 = true ∧
      0 < value .binary64 0x40D76FFFFFFFFFFF ∧ 2 * value .binary64 0x40D76FFFFFFFFFFF < value .binary64 fs48 ∧
      0 < value .binary64 0x0000000000000001) ∧
    ¬ 2 * value .binary64 0x40D7700000000000 < value .binary64 fs48 ∧ ¬ 0 < value .binary64 0x8000000000000000 ∧
    ¬ isFinite .binary64 0x7FF8000000000000 = true := by decide +kernel

theorem test_witness_SetParamsTwiceIsOnce :
    ∃ t, exec (.setParams 1 0 0x40D7700000000000 0x3FF0000000000000) sound = .next t := by
  exact next_of_goes (by decide +kernel)

theorem test_witness_SetModeWritesMode :
    sound.units[(2 : BitVec 8).toNat]? = some (sv ⟨1, 2⟩ ⟨3, 4⟩ 3 5 6) ∧ (3 : BitVec 4).toNat ≤ 3 ∧
    ¬ (4 : BitVec 4).toNat ≤ 3 := by decide +kernel

theorem test_witness_OnlyTicksAndResetsWriteStateRegisters :
    (∀ u x, Instr.stageCoeff 1 0 5 ≠ .tick u x) ∧ (∀ x, Instr.stageCoeff 1 0 5 ≠ .chainTick x) ∧
    (∀ u, Instr.stageCoeff 1 0 5 ≠ .reset u) ∧ Instr.stageCoeff 1 0 5 ≠ .resetAll ∧
    (∃ t, exec (.stageCoeff 1 0 5) sound = .next t ∧
      t.units[1]? = some (bq unity { half with b0 := 5 } 1 2 3 4)) ∧
    sound.units[1]? = some (bq unity half 1 2 3 4) :=
  ⟨by simp, by simp, by simp, by simp, ⟨_, by rfl, by rfl⟩, by decide +kernel⟩

theorem test_witness_SvfStateIgnoresMode :
    (blk [sv ⟨1, 2⟩ ⟨3, 4⟩ 0 5 6] []).units[(0 : BitVec 8).toNat]? = some (sv ⟨1, 2⟩ ⟨3, 4⟩ 0 5 6) ∧
    (blk [sv ⟨1, 2⟩ ⟨3, 4⟩ 3 5 6] []).units[(0 : BitVec 8).toNat]? = some (sv ⟨1, 2⟩ ⟨3, 4⟩ 3 5 6) ∧
    (blk [sv ⟨1, 2⟩ ⟨3, 4⟩ 3 5 6] []).draws = (blk [sv ⟨1, 2⟩ ⟨3, 4⟩ 0 5 6] []).draws ∧
    ∃ t, exec (.tick 0 7) (blk [sv ⟨1, 2⟩ ⟨3, 4⟩ 0 5 6] []) = .next t :=
  ⟨by decide, by decide, by decide, next_of_goes (by decide +kernel)⟩

theorem test_witness_TicksIgnoreShadowBanks :
    blk [bq unity half 1 2 3 4] [0] = { blk [bq unity unity 1 2 3 4] [0] with units := [bq unity half 1 2 3 4] } ∧
    List.Forall₂ sameButShadow [bq unity unity 1 2 3 4] [bq unity half 1 2 3 4] ∧
    (∃ t, exec (.tick 0 7) (blk [bq unity unity 1 2 3 4] [0]) = .next t) ∧
    ∃ t, exec (.chainTick 7) (blk [bq unity unity 1 2 3 4] [0]) = .next t := by
  refine ⟨by rfl, List.Forall₂.cons ?_ List.Forall₂.nil, next_of_goes (by decide +kernel), next_of_goes (by decide +kernel)⟩
  rfl

theorem test_witness_NopDoesNothing :
    (0 : CmdWord).toNat % 256 = 0 ∧ (0x00000100 : CmdWord).toNat % 256 = 0 ∧ (0x00000100 : CmdWord) ≠ 0 := by decide

/-- TickIsInfallible; ChainTickIsInfallible and ChainTickIsItsTicksInTurn with a chain and with none. -/
theorem test_witness_TickIsInfallible :
    sound.Ok ∧ sound.units[(1 : BitVec 8).toNat]? = some (bq unity half 1 2 3 4) ∧
    (bq unity half 1 2 3 4).kind ≠ .ring ∧ sound.chain ≠ [] ∧ t11.Ok ∧ t11.chain = [] := by decide +kernel

theorem test_witness_ResetClearsTheUnit :
    sound.units[(0 : BitVec 8).toNat]? = some (dl 4 [(0, 0x3F800000)] 3 3 0 0) ∧
    (255 : BitVec 8).toNat < (blk (List.replicate 256 (rg 1 [] 0)) []).units.length := by decide +kernel

theorem test_witness_ResetEqualsPowerOn :
    settingsFresh .binary32 (bq unity unity 1 2 3 4) ∧ settingsFresh .binary32 (dl 4 [(0, 5)] 3 0 0 9) := by
  refine ⟨⟨rfl, rfl⟩, ?_, ?_⟩ <;> decide +kernel

/-- SumIsRoundedToNearestEven and ProductIsRoundedToNearestEven: a sum, a difference and a product that are ties, an exact
zero sum, and an exact zero difference of either sign. -/
theorem test_witness_RoundedToNearestEven :
    ([0x3F800000, 0x33800000, 0xB3800000, 0x3F800001, 0x80000000, 0] : List Sample).all (isFinite .binary32) = true ∧
    fpAdd .binary32 0 0x3F800000 0x33800000 = 0x3F800000 ∧
    (value .binary32 0x3F800000 - (value .binary32 0x3F800000 + value .binary32 0x33800000)).natAbs =
      (value .binary32 0x3F800001 - (value .binary32 0x3F800000 + value .binary32 0x33800000)).natAbs ∧
    fpSub .binary32 0 0x3F800000 0xB3800000 = 0x3F800000 ∧
    value .binary32 0x80000000 + value .binary32 0 = 0 ∧ value .binary32 0x80000000 - value .binary32 0 = 0 ∧
    fpSub .binary32 0 0x80000000 0 = 0x80000000 ∧ fpSub .binary32 0 0x3F800000 0x3F800000 = 0 ∧
    fpSub .binary32 0 0x3F800000 0x40000000 = 0xBF800000 ∧
    fpMul .binary32 0 0x00000003 0x3F000000 = 0x00000002 ∧
    (value .binary32 0x00000002 * 2 ^ 149 - value .binary32 0x00000003 * value .binary32 0x3F000000).natAbs =
      (value .binary32 0x00000001 * 2 ^ 149 - value .binary32 0x00000003 * value .binary32 0x3F000000).natAbs := by
  decide +kernel

/-- `1 + 2^-24` lies half way between two binary32 samples; the threshold of overflow and the word below it; an infinity,
a NaN and a negative value that becomes `-0`. -/
theorem test_witness_RoundSIsNearestEven :
    isFinite .binary64 0x3FF0000010000000 = true ∧ isFinite .binary32 0x3F800001 = true ∧
    roundS .binary32 0 0x3FF0000010000000 = 0x3F800000 ∧
    (value .binary32 0x3F800000 * 2 ^ 925 - value .binary64 0x3FF0000010000000).natAbs =
      (value .binary32 0x3F800001 * 2 ^ 925 - value .binary64 0x3FF0000010000000).natAbs ∧
    roundS .binary32 0 0xC7EFFFFFF0000000 = 0xFF800000 ∧ roundS .binary32 0 0xC7EFFFFFEFFFFFFF = 0xFF7FFFFF ∧
    isInf .binary64 0xFFF0000000000000 = true ∧ roundS .binary32 0 0xFFF0000000000000 = 0xFF800000 ∧
    isNaN .binary64 0x7FF0000000000001 = true ∧ isNaN .binary64 0x8000000000000001 = false ∧
    roundS .binary32 0 0x8000000000000001 = 0x80000000 := by decide +kernel

/-- Just at the threshold of overflow, and just below it, in a sum and a difference; one infinite operand; two infinities
that make none of a NaN. -/
theorem test_witness_OverflowGivesInfinity :
    isFinite .binary32 0x7F7FFFFF = true ∧ isFinite .binary32 0x73000000 = true ∧ isFinite .binary32 0x72FFFFFF = true ∧
    isInf .binary32 (fpAdd .binary32 0 0x7F7FFFFF 0x73000000) = true ∧
    isInf .binary32 (fpAdd .binary32 0 0x7F7FFFFF 0x72FFFFFF) = false ∧
    fpSub .binary32 0 0xFF7FFFFF 0x73000000 = 0xFF800000 ∧ fpSub .binary32 0 0xFF7FFFFF 0x72FFFFFF = 0xFF7FFFFF ∧
    (isNaN .binary32 0x7F800000 = false ∧ isNaN .binary32 0x3F800000 = false ∧ isInf .binary32 0x7F800000 = true ∧
      isInf .binary32 0x3F800000 = false ∧ isZero .binary32 0x3F800000 = false) ∧
    fpSub .binary32 0 0x3F800000 0x7F800000 = 0xFF800000 ∧ fpSub .binary32 0 0x7F800000 0xFF800000 = 0x7F800000 ∧
    fpMul .binary32 0 0xFF800000 0x3F800000 = 0xFF800000 := by decide +kernel

/-- T3 through the pseudo-command: `set_coeffs u1, 0.5, 0.5, 0, 0, 0`. -/
theorem test_witness_SetCoeffsInstallsAllFive :
    sound.units[(1 : BitVec 8).toNat]? = some (bq unity half 1 2 3 4) ∧
    (setCoeffs 1 0x3F000000 0x3F000000 0 0 0).length = 6 := by decide +kernel

end Sys2Proof.Tests
end

section
/-! PROOF. The block and its builds (spec/00_scope.md R3 to R12): a step of a decodable command, the build no step
changes, and the builds that have no run. -/

namespace Sys2Proof.Machine

/-- A word that decodes runs as its instruction (R56). -/
theorem runCommand_of_decode {c : Command} {i : Instr} (h : decode c = .ok i) (s : State) : runCommand c s = exec i s := by
  simp [runCommand, h]

/-- R37: a step of a valid build serves the port the arbiter picks. -/
theorem step_of_pending {s : State} {p : Nat} {c : Command} (hb : buildValid s.build = true) (hp : s.nextPort = some p)
    (hc : s.pendingAt p = some c) : step s = serve p c s := by
  simp [step, engineTurn, hb, hp, hc]

/-- Serving a port keeps the build parameters (R3 to R10). -/
theorem serve_build {p : Nat} {c : Command} {s t : State} (h : serve p c s = .next t) : t.build = s.build := by
  obtain ⟨t1, r, -, hf, -, rfl⟩ := serve_next h
  calc t1.build = (s.take p).build := build_of_frame hf
    _ = s.build := take_build s p

/-- Settles O10: the step serves the picked port, and serving runs the decoded instruction. -/
theorem stepRunsDecodedInstruction : Obligations.StepRunsDecodedInstruction := by
  intro s p c i hb hp hc hd
  rw [step_of_pending hb hp hc, serve, runCommand_of_decode hd]

/-- Settles O22, by what a step can do: refuse, idle, or serve a port. -/
theorem stepKeepsBuild : Obligations.StepKeepsBuild := by
  intro s t h
  by_cases hb : buildValid s.build = true
  · rcases step_cases hb with ⟨-, hidle⟩ | ⟨p, q, c, rest, -, -, hserve, -⟩
    · cases hidle.symm.trans h
      rfl
    · exact serve_build (hserve.symm.trans h)
  · cases (step_invalid hb).symm.trans h

/-! ### The valid builds -/

/-- A sample below zero has the sign `-`, and one above zero the sign `+`. -/
theorem signBit_of_value_ne_zero {f : Sfmt} {x : Sample} (h : value f x ≠ 0) : signBit f x = decide (value f x < 0) := by
  rw [value] at h ⊢
  cases hs : signBit f x with
  | false => simp
  | true =>
    rw [hs, if_pos rfl] at h
    rw [if_pos rfl, eq_comm, decide_eq_true_eq]
    omega

/-- Only the two zeros have the value 0. -/
theorem value_eq_zero_iff {f : Sfmt} {x : Sample} : value f x = 0 ↔ isZero f x = true := by
  have hm : magUnits f (magBits f x) = 0 ↔ magBits f x = 0 :=
    ⟨fun h => magUnits_injective (h.trans (magUnits_zero f).symm), fun h => by rw [h, magUnits_zero]⟩
  rw [← Int.natAbs_eq_zero, natAbs_value, hm, isZero, decide_eq_true_eq]

/-- R65: a valid delay length on real values. -/
theorem delayValid_iff {f : Sfmt} {c : Nat} {d : Sample} :
    delayValid f c d = true ↔
      isFinite f d = true ∧ 0 ≤ value f d ∧ value f d ≤ ((c : Int) - 1) * unitsPerOne f := by
  have hz := value_eq_zero_iff (f := f) (x := d)
  have hcap : magUnits f (magBits f d) + unitsPerOne f ≤ c * unitsPerOne f ↔
      ((value f d).natAbs : Int) ≤ ((c : Int) - 1) * unitsPerOne f := by
    rw [natAbs_value, Int.sub_mul, ← Nat.cast_mul]
    omega
  have hsign : (signBit f d = false ∨ isZero f d = true) ↔ 0 ≤ value f d := by
    by_cases h0 : value f d = 0
    · simp [hz.mp h0, h0]
    · rw [signBit_of_value_ne_zero h0, ← hz]
      simp [h0]
  simp only [delayValid, Bool.and_eq_true, Bool.or_eq_true, Bool.not_eq_true', decide_eq_true_eq, hcap, hsign, and_assoc]
  refine and_congr_right fun _ => and_congr_right fun h0 => ?_
  rw [Int.natAbs_of_nonneg h0]

/-- R6: a sample rate on real values. -/
theorem rateValid_iff {fs : Word} : rateValid fs = true ↔ isFinite .binary64 fs = true ∧ 0 < value .binary64 fs := by
  have hz := value_eq_zero_iff (f := .binary64) (x := fs)
  simp only [rateValid, positive64, Bool.and_eq_true, Bool.not_eq_true', and_assoc]
  refine and_congr_right fun _ => ?_
  by_cases h0 : value .binary64 fs = 0
  · simp [hz.mp h0, h0]
  · rw [signBit_of_value_ne_zero h0, Bool.eq_false_iff, Bool.eq_false_iff, Ne, Ne, ← hz, decide_eq_true_eq]
    omega

/-- R11: the parameters of a valid build are in range. -/
theorem buildValid_parts {s : State} (h : buildValid s.build = true) :
    (1 ≤ s.units.length ∧ s.units.length ≤ 256) ∧ (∀ sl ∈ s.units, unitCfgValid s.sfmt sl.cfg = true) ∧
    s.chain.Nodup ∧ 1 ≤ s.ports.length := by
  simp only [buildValid, chainValid, State.build, Bool.and_eq_true, decide_eq_true_eq, List.length_map,
    List.all_map, List.all_eq_true] at h
  obtain ⟨⟨⟨hlen, hunits⟩, -, hnodup⟩, hports⟩ := h
  exact ⟨hlen, hunits, of_decide_eq_true hnodup, of_decide_eq_true hports⟩

/-- R8: a stage of a valid build's chain is a unit that is no RING unit. -/
theorem chain_stage {s : State} (h : buildValid s.build = true) {c : Nat} (hc : c ∈ s.chain) :
    ∃ sl, s.units[c]? = some sl ∧ tickable sl.kind = true := by
  have ht := chain_tickable h c hc
  rw [List.getElem?_map, Option.any_map, Option.any_eq_true] at ht
  exact ht

/-- Settles O14: a valid build keeps every range of R3 to R10, so a broken one is refused. -/
theorem invalidBuildHasNoRun : Obligations.InvalidBuildHasNoRun := by
  intro s hbad
  apply step_invalid
  intro hb
  obtain ⟨hlen, hunits, hnodup, hports⟩ := buildValid_parts hb
  rcases hbad with h | h | ⟨sl, hsl, h⟩ | ⟨c, hc, h⟩ | h | h
  · omega
  · omega
  · have hcfg := hunits sl hsl
    cases sl <;> simp only [Slot.cfg, unitCfgValid, capValid, Bool.and_eq_true, decide_eq_true_eq, delayValid_iff,
      rateValid_iff] at hcfg h
    case ring r => omega
    case delay d =>
      obtain ⟨⟨hcap, -⟩, hfin, hge, hle⟩ := hcfg
      simp only [hfin, Bool.true_eq_false, false_or] at h
      omega
    case biquad b =>
      obtain ⟨⟨hfin, hpos⟩, -⟩ := hcfg
      simp only [hfin, Bool.true_eq_false, false_or] at h
      omega
    case svf v =>
      obtain ⟨⟨⟨hfin, hpos⟩, -⟩, hmode⟩ := hcfg
      simp only [hfin, Bool.true_eq_false, false_or] at h
      omega
  · obtain ⟨sl, hsl, htick⟩ := chain_stage hb hc
    rcases h with h | ⟨r, hr⟩
    · exact absurd (List.getElem?_eq_some_iff.mp hsl).1 (by omega)
    · cases hr.symm.trans hsl
      cases htick
  · exact h hnodup
  · omega

end Sys2Proof.Machine
end

section
/-! PROOF. Sample arithmetic (spec/00_scope.md R14): sums, differences, products and `round_S` are rounded to nearest even,
overflow from the threshold on, and give a NaN exactly where IEEE 754 says. -/

namespace Sys2Proof.Machine

/-! ### Rounding -/

/-- R14: a finite sum of finite samples is a nearest sample to the exact sum, ties to even. -/
theorem fpAdd_nearest {f : Sfmt} {n : Nat} {a b : Sample} (ha : isFinite f a = true) (hb : isFinite f b = true)
    (hfin : isFinite f (fpAdd f n a b) = true) (c : Sample) :
    (value f (fpAdd f n a b) - (value f a + value f b)).natAbs ≤ (value f c - (value f a + value f b)).natAbs ∧
    ((value f (fpAdd f n a b) - (value f a + value f b)).natAbs = (value f c - (value f a + value f b)).natAbs →
      value f c ≠ value f (fpAdd f n a b) → magBits f (fpAdd f n a b) % 2 = 0) := by
  rw [fpAdd_finite ha hb] at hfin ⊢
  simpa only [pow_zero, mul_one] using
    pack_roundMag_nearest f (value f a + value f b) 0 _ (fun h => if_neg h) c (isFinite_pack_roundMag.mp hfin)

/-- R14: the sign of a sum of finite samples. -/
theorem signBit_fpAdd {f : Sfmt} {n : Nat} {a b : Sample} (ha : isFinite f a = true) (hb : isFinite f b = true) :
    signBit f (fpAdd f n a b) =
      if value f a + value f b = 0 then signBit f a && signBit f b else decide (value f a + value f b < 0) := by
  rw [fpAdd_finite ha hb, signBit_pack (roundMag_lt _ _ _)]

/-- The exact difference is the exact sum with the subtrahend negated. -/
theorem value_sub_eq_add_negate (f : Sfmt) (a b : Sample) : value f a - value f b = value f a + value f (negate f b) := by
  rw [value_negate, sub_eq_add_neg]

/-- Settles O55: the sum is the exact sum rounded, and the difference is the sum with the subtrahend negated. -/
theorem sumIsRoundedToNearestEven : Obligations.SumIsRoundedToNearestEven := by
  intro f n a b c ha hb _
  have hb' : isFinite f (negate f b) = true := (isFinite_negate f b).trans hb
  refine ⟨fun hfin => ?_, fun hfin => ?_⟩
  · obtain ⟨hnear, htie⟩ := fpAdd_nearest ha hb hfin c
    exact ⟨hnear, htie, fun h0 => by rw [signBit_fpAdd ha hb, if_pos h0]⟩
  · obtain ⟨hnear, htie⟩ := fpAdd_nearest ha hb' hfin c
    rw [value_sub_eq_add_negate]
    exact ⟨hnear, htie, fun h0 => by rw [fpSub, signBit_fpAdd ha hb', if_pos h0, signBit_negate]⟩

/-- The signs of two samples give the sign of their exact product, where it is not 0. -/
theorem signBit_bne_of_product_ne_zero {f : Sfmt} {a b : Sample} (h : value f a * value f b ≠ 0) :
    (signBit f a != signBit f b) = decide (value f a * value f b < 0) := by
  obtain ⟨h1, h2⟩ := mul_ne_zero_iff.mp h
  rw [signBit_of_value_ne_zero h1, signBit_of_value_ne_zero h2]
  rcases lt_or_gt_of_ne h1 with ha | ha <;> rcases lt_or_gt_of_ne h2 with hb | hb
  · simp [ha, hb, (mul_pos_of_neg_of_neg ha hb).le]
  · simp [ha, hb.le, mul_neg_of_neg_of_pos ha hb]
  · simp [ha.le, hb, mul_neg_of_pos_of_neg ha hb]
  · simp [not_lt.mpr ha.le, not_lt.mpr hb.le, not_lt.mpr (mul_pos ha hb).le]

/-- R14: the product of finite samples is the exact product, rounded. -/
theorem fpMul_finite_value {f : Sfmt} {n : Nat} {a b : Sample} (ha : isFinite f a = true) (hb : isFinite f b = true) :
    fpMul f n a b =
      pack f (signBit f a != signBit f b) (roundMag f (value f a * value f b).natAbs f.unitExp) := by
  rw [fpMul_finite ha hb, Int.natAbs_mul, natAbs_value, natAbs_value]

/-- Settles O56, by the nearest sample to the exact product, whose sign is the product of the signs. -/
theorem productIsRoundedToNearestEven : Obligations.ProductIsRoundedToNearestEven := by
  intro f n a b c ha hb _ hfin
  rw [fpMul_finite_value ha hb] at hfin ⊢
  obtain ⟨hnear, htie⟩ := pack_roundMag_nearest f (value f a * value f b) f.unitExp _ signBit_bne_of_product_ne_zero
    c (isFinite_pack_roundMag.mp hfin)
  exact ⟨hnear, htie, signBit_pack (roundMag_lt _ _ _)⟩

/-! ### NaN results -/

/-- A result that is a drawn quiet NaN where `P` holds and a packed number elsewhere is a NaN exactly where `P` holds, and
then it is quiet. -/
theorem isNaN_iff_of_draw_or_number {f : Sfmt} {r : Sample} {P : Prop} (hnan : P → ∃ bits, r = quietNaN f bits)
    (hnum : ¬ P → ∃ neg m, m ≤ f.infMag ∧ r = pack f neg m) :
    (isNaN f r = true ↔ P) ∧ (isNaN f r = true → f.infMag + 2 ^ (f.prec - 2) ≤ magBits f r) := by
  by_cases hP : P
  · obtain ⟨bits, rfl⟩ := hnan hP
    exact ⟨iff_of_true (isNaN_quietNaN f bits) hP, fun _ => magBits_quietNaN f bits⟩
  · obtain ⟨neg, m, hm, rfl⟩ := hnum hP
    rw [isNaN_pack hm]
    exact ⟨iff_of_false Bool.false_ne_true hP, fun h => absurd h Bool.false_ne_true⟩

/-- IEEE 754: the operands of a sum that is a NaN. -/
def SumIsNaN (f : Sfmt) (a b : Sample) : Prop :=
  isNaN f a = true ∨ isNaN f b = true ∨ (isInf f a = true ∧ isInf f b = true ∧ signBit f a ≠ signBit f b)

/-- IEEE 754: the operands of a product that is a NaN. -/
def ProductIsNaN (f : Sfmt) (a b : Sample) : Prop :=
  isNaN f a = true ∨ isNaN f b = true ∨
    (isInf f a = true ∧ isZero f b = true) ∨ (isZero f a = true ∧ isInf f b = true)

/-- A sample that is no NaN and no infinity is finite. -/
theorem isFinite_of_number {f : Sfmt} {x : Sample} (hn : isNaN f x = false) (hi : isInf f x = false) : isFinite f x = true := by
  simp only [isFinite, isNaN, isInf, decide_eq_true_eq, decide_eq_false_iff_not] at hn hi ⊢
  omega

/-- An infinity is no zero. -/
theorem isZero_of_isInf {f : Sfmt} {x : Sample} (h : isInf f x = true) : isZero f x = false := by
  have := infMag_pos f
  simp only [isInf, isZero, decide_eq_true_eq, decide_eq_false_iff_not] at h ⊢
  omega

/-- R14, U2: the sum draws its NaN. -/
theorem fpAdd_of_nan {f : Sfmt} {n : Nat} {a b : Sample} (h : SumIsNaN f a b) : fpAdd f n a b = drawnNaN f n := by
  rcases h with h | h | ⟨ha, hb, hs⟩
  · simp [fpAdd, h]
  · simp [fpAdd, h]
  · simp [fpAdd, ha, hb, hs]

/-- A sum with an infinite left operand is that infinity. -/
theorem fpAdd_inf_left {f : Sfmt} {n : Nat} {a b : Sample} (h : ¬ SumIsNaN f a b) (ha : isInf f a = true) :
    fpAdd f n a b = pack f (signBit f a) f.infMag := by
  simp only [SumIsNaN, not_or, not_and, not_not, Bool.not_eq_true] at h
  obtain ⟨hna, hnb, hs⟩ := h
  by_cases hb : isInf f b = true
  · simp [fpAdd, hna, hnb, ha, hs ha hb]
  · simp [fpAdd, hna, hnb, ha, hb]

/-- A sum with an infinite right operand is that infinity. -/
theorem fpAdd_inf_right {f : Sfmt} {n : Nat} {a b : Sample} (h : ¬ SumIsNaN f a b) (hb : isInf f b = true) :
    fpAdd f n a b = pack f (signBit f b) f.infMag := by
  simp only [SumIsNaN, not_or, not_and, not_not, Bool.not_eq_true] at h
  obtain ⟨hna, hnb, hs⟩ := h
  by_cases ha : isInf f a = true
  · simp [fpAdd, hna, hnb, ha, hs ha hb]
  · simp [fpAdd, hna, hnb, ha, hb]

/-- A sum that is no NaN is a packed number. -/
theorem fpAdd_number {f : Sfmt} {a b : Sample} (n : Nat) (h : ¬ SumIsNaN f a b) :
    ∃ neg m, m ≤ f.infMag ∧ fpAdd f n a b = pack f neg m := by
  by_cases ha : isInf f a = true
  · exact ⟨_, _, le_rfl, fpAdd_inf_left h ha⟩
  · by_cases hb : isInf f b = true
    · exact ⟨_, _, le_rfl, fpAdd_inf_right h hb⟩
    · simp only [SumIsNaN, not_or, Bool.not_eq_true] at h ha hb
      exact ⟨_, _, roundMag_le _ _ _, fpAdd_finite (isFinite_of_number h.1 ha) (isFinite_of_number h.2.1 hb)⟩

/-- R14, U2: when a sum is a NaN, and that it is then quiet. -/
theorem isNaN_fpAdd (f : Sfmt) (n : Nat) (a b : Sample) :
    (isNaN f (fpAdd f n a b) = true ↔ SumIsNaN f a b) ∧
    (isNaN f (fpAdd f n a b) = true → f.infMag + 2 ^ (f.prec - 2) ≤ magBits f (fpAdd f n a b)) :=
  isNaN_iff_of_draw_or_number (fun h => ⟨_, fpAdd_of_nan h⟩) (fpAdd_number n)

/-- R14, U2: the product draws its NaN. -/
theorem fpMul_of_nan {f : Sfmt} {n : Nat} {a b : Sample} (h : ProductIsNaN f a b) : fpMul f n a b = drawnNaN f n := by
  rcases h with h | h | ⟨ha, hb⟩ | ⟨ha, hb⟩
  · simp [fpMul, h]
  · simp [fpMul, h]
  · simp [fpMul, ha, hb]
  · simp [fpMul, ha, hb]

/-- A product with an infinite operand is an infinity with the product of the signs. -/
theorem fpMul_inf {f : Sfmt} {n : Nat} {a b : Sample} (h : ¬ ProductIsNaN f a b)
    (hi : isInf f a = true ∨ isInf f b = true) :
    fpMul f n a b = pack f (signBit f a != signBit f b) f.infMag := by
  simp only [ProductIsNaN, not_or, not_and, Bool.not_eq_true] at h
  obtain ⟨hna, hnb, hza, hzb⟩ := h
  have hz : isZero f a = false ∧ isZero f b = false := by
    rcases hi with hi | hi
    · exact ⟨isZero_of_isInf hi, hza hi⟩
    · exact ⟨Bool.eq_false_iff.mpr fun h => by simp [hzb h] at hi, isZero_of_isInf hi⟩
  simp [fpMul, hna, hnb, hi, hz]

/-- A product that is no NaN is a packed number. -/
theorem fpMul_number {f : Sfmt} {a b : Sample} (n : Nat) (h : ¬ ProductIsNaN f a b) :
    ∃ neg m, m ≤ f.infMag ∧ fpMul f n a b = pack f neg m := by
  by_cases hi : isInf f a = true ∨ isInf f b = true
  · exact ⟨_, _, le_rfl, fpMul_inf h hi⟩
  · simp only [ProductIsNaN, not_or, Bool.not_eq_true] at h hi
    exact ⟨_, _, roundMag_le _ _ _, fpMul_finite (isFinite_of_number h.1 hi.1) (isFinite_of_number h.2.1 hi.2)⟩

/-- R14, U2: when a product is a NaN, and that it is then quiet. -/
theorem isNaN_fpMul (f : Sfmt) (n : Nat) (a b : Sample) :
    (isNaN f (fpMul f n a b) = true ↔ ProductIsNaN f a b) ∧
    (isNaN f (fpMul f n a b) = true → f.infMag + 2 ^ (f.prec - 2) ≤ magBits f (fpMul f n a b)) :=
  isNaN_iff_of_draw_or_number (fun h => ⟨_, fpMul_of_nan h⟩) (fpMul_number n)

/-- The NaNs of a difference: infinities of the same sign. -/
theorem sumIsNaN_negate {f : Sfmt} {a b : Sample} :
    SumIsNaN f a (negate f b) ↔ isNaN f a = true ∨ isNaN f b = true ∨
      (isInf f a = true ∧ isInf f b = true ∧ signBit f a = signBit f b) := by
  simp [SumIsNaN]

/-- Settles O59: each operation draws a quiet NaN for the operands listed and packs a number for all others. -/
theorem naNResultsAreQuiet : Obligations.NaNResultsAreQuiet := by
  intro f n a b
  obtain ⟨hadd, hqadd⟩ := isNaN_fpAdd f n a b
  obtain ⟨hsub, hqsub⟩ := isNaN_fpAdd f n a (negate f b)
  obtain ⟨hmul, hqmul⟩ := isNaN_fpMul f n a b
  exact ⟨hadd, hsub.trans sumIsNaN_negate, hmul, hqadd, hqsub, hqmul⟩

/-! ### Overflow -/

/-- R14: a sum of finite samples is an infinity exactly from the threshold on. -/
theorem isInf_fpAdd {f : Sfmt} {n : Nat} {a b : Sample} (ha : isFinite f a = true) (hb : isFinite f b = true) :
    isInf f (fpAdd f n a b) = true ↔
      (2 ^ (f.prec + 1) - 1) * 2 ^ (f.maxExp - 3) ≤ (value f a + value f b).natAbs := by
  rw [fpAdd_finite ha hb, isInf_pack_roundMag, roundMag_eq_infMag, pow_zero, mul_one]

/-- An infinite sum of finite samples has the sign of the exact sum. -/
theorem signBit_fpAdd_overflow {f : Sfmt} {n : Nat} {a b : Sample} (ha : isFinite f a = true) (hb : isFinite f b = true)
    (hi : isInf f (fpAdd f n a b) = true) : signBit f (fpAdd f n a b) = decide (value f a + value f b < 0) := by
  have hle := (isInf_fpAdd ha hb).mp hi
  have hpos : 0 < (2 ^ (f.prec + 1) - 1) * 2 ^ (f.maxExp - 3) :=
    Nat.mul_pos (Nat.sub_pos_of_lt (Nat.one_lt_two_pow (Nat.succ_ne_zero _))) (Nat.two_pow_pos _)
  rw [signBit_fpAdd ha hb, if_neg (Int.natAbs_pos.mp (hpos.trans_le hle))]

/-- The infinity of a sign. -/
theorem infinity_of_sign (f : Sfmt) (b : Bool) :
    isInf f (pack f b f.infMag) = true ∧ signBit f (pack f b f.infMag) = b :=
  ⟨isInf_pack_infMag f b, signBit_pack (infMag_lt' f)⟩

/-- R14: a product of finite samples is an infinity exactly from the threshold on, and has the product of the signs. -/
theorem fpMul_overflow {f : Sfmt} {n : Nat} {a b : Sample} (ha : isFinite f a = true) (hb : isFinite f b = true) :
    (isInf f (fpMul f n a b) = true ↔
      (2 ^ (f.prec + 1) - 1) * 2 ^ (f.maxExp - 3) * 2 ^ f.unitExp ≤ (value f a * value f b).natAbs) ∧
    signBit f (fpMul f n a b) = (signBit f a != signBit f b) := by
  rw [fpMul_finite_value ha hb, isInf_pack_roundMag, roundMag_eq_infMag]
  exact ⟨Iff.rfl, signBit_pack (roundMag_lt _ _ _)⟩

/-- Settles O58: finite operands overflow from the threshold of rounding on; an infinite operand gives its infinity. -/
theorem overflowGivesInfinity : Obligations.OverflowGivesInfinity := by
  refine ⟨fun f n a b ha hb => ?_, fun f n a b hna hnb => ?_⟩
  · have hb' : isFinite f (negate f b) = true := (isFinite_negate f b).trans hb
    obtain ⟨hmul, hsign⟩ := fpMul_overflow (n := n) ha hb
    rw [value_sub_eq_add_negate]
    exact ⟨isInf_fpAdd ha hb, signBit_fpAdd_overflow ha hb, isInf_fpAdd ha hb', signBit_fpAdd_overflow ha hb', hmul,
      fun _ => hsign⟩
  · have hsum : (isInf f a = true → isInf f b = true → signBit f a = signBit f b) → ¬ SumIsNaN f a b := by
      intro h
      simpa [SumIsNaN, hna, hnb] using h
    have hdiff : (isInf f a = true → isInf f b = true → signBit f a ≠ signBit f b) → ¬ SumIsNaN f a (negate f b) := by
      intro h
      simpa [sumIsNaN_negate, hna, hnb] using h
    refine ⟨fun ha hs => ?_, fun hb hs => ?_, fun ha hs => ?_, fun hb hs => ?_, fun h => ?_⟩
    · rw [fpAdd_inf_left (hsum fun _ hb => (hs hb).symm) ha]
      exact infinity_of_sign f _
    · rw [fpAdd_inf_right (hsum fun ha _ => hs ha) hb]
      exact infinity_of_sign f _
    · rw [fpSub, fpAdd_inf_left (hdiff fun _ hb => (hs hb).symm) ha]
      exact infinity_of_sign f _
    · rw [fpSub, fpAdd_inf_right (hdiff fun ha _ => hs ha) ((isInf_negate f b).trans hb), signBit_negate]
      exact infinity_of_sign f _
    · have hnum : ¬ ProductIsNaN f a b := by
        rcases h with ⟨ha, hb⟩ | ⟨hb, ha⟩
        · simp [ProductIsNaN, hna, hnb, hb, isZero_of_isInf ha]
        · simp [ProductIsNaN, hna, hnb, ha, isZero_of_isInf hb]
      rw [fpMul_inf hnum (h.imp And.left And.left)]
      exact infinity_of_sign f _

/-! ### round_S -/

/-- R81: a NaN becomes the quiet NaN with the payload given. -/
theorem roundS_of_nan {nan : BitVec 64} {x : Word} (h : isNaN .binary64 x = true) :
    roundS .binary32 nan x = quietNaN .binary32 nan := by
  simp [roundS, h]

/-- R81: an infinity stays one, of the same sign. -/
theorem roundS_of_inf {nan : BitVec 64} {x : Word} (hn : isNaN .binary64 x = false) (hi : isInf .binary64 x = true) :
    roundS .binary32 nan x = pack .binary32 (signBit .binary64 x) (Sfmt.infMag .binary32) := by
  simp [roundS, hn, hi]

/-- `round_S` of a number keeps its sign. -/
theorem roundS_number {x : Word} (nan : BitVec 64) (hn : isNaN .binary64 x = false) :
    ∃ m ≤ Sfmt.infMag .binary32, roundS .binary32 nan x = pack .binary32 (signBit .binary64 x) m := by
  by_cases hi : isInf .binary64 x = true
  · exact ⟨_, le_rfl, roundS_of_inf hn hi⟩
  · exact ⟨_, roundMag_le _ _ _, roundS_finite (isFinite_of_number hn (Bool.eq_false_iff.mpr hi))⟩

/-- An infinity is no NaN. -/
theorem isNaN_of_isInf {f : Sfmt} {x : Sample} (h : isInf f x = true) : isNaN f x = false := by
  simp only [isInf, isNaN, decide_eq_true_eq, decide_eq_false_iff_not] at h ⊢
  omega

/-- R81: `round_S` of a finite value, on values: overflow from the threshold on, and a nearest sample below it. -/
theorem roundS_finite_nearest {x : Word} (nan : BitVec 64) (h : isFinite .binary64 x = true) :
    (isInf .binary32 (roundS .binary32 nan x) = true ↔
      (2 ^ 25 - 1) * 2 ^ 252 * 2 ^ 925 ≤ (value .binary64 x).natAbs) ∧
    ∀ c : Sample, isFinite .binary32 (roundS .binary32 nan x) = true →
      (value .binary32 (roundS .binary32 nan x) * 2 ^ 925 - value .binary64 x).natAbs ≤
        (value .binary32 c * 2 ^ 925 - value .binary64 x).natAbs ∧
      ((value .binary32 (roundS .binary32 nan x) * 2 ^ 925 - value .binary64 x).natAbs =
          (value .binary32 c * 2 ^ 925 - value .binary64 x).natAbs →
        value .binary32 c ≠ value .binary32 (roundS .binary32 nan x) →
        magBits .binary32 (roundS .binary32 nan x) % 2 = 0) := by
  have hthreshold := roundMag_eq_infMag .binary32 (value .binary64 x).natAbs 925
  rw [show Sfmt.prec .binary32 + 1 = 25 from rfl, show Sfmt.maxExp .binary32 - 3 = 252 from rfl] at hthreshold
  rw [roundS_finite h, ← natAbs_value]
  exact ⟨isInf_pack_roundMag.trans hthreshold, fun c hfin =>
    pack_roundMag_nearest .binary32 _ 925 _ signBit_of_value_ne_zero c (isFinite_pack_roundMag.mp hfin)⟩

/-- Settles O57, by the three kinds of operand: a NaN, an infinity, a finite value. -/
theorem roundSIsNearestEven : Obligations.RoundSIsNearestEven := by
  refine ⟨fun _ _ => rfl, fun nan x => ?_⟩
  obtain ⟨hnan, hquiet⟩ := isNaN_iff_of_draw_or_number (r := roundS .binary32 nan x) (P := isNaN .binary64 x = true)
    (fun h => ⟨nan, roundS_of_nan h⟩)
    (fun h => by
      obtain ⟨m, hm, he⟩ := roundS_number nan (Bool.eq_false_iff.mpr h)
      exact ⟨_, m, hm, he⟩)
  refine ⟨hnan, fun h => hquiet (hnan.mpr h), fun hn => ?_, fun hi => ?_, fun hf => ?_⟩
  · obtain ⟨m, hm, he⟩ := roundS_number nan hn
    rw [he, signBit_pack (hm.trans_lt (infMag_lt' _))]
  · rw [roundS_of_inf (isNaN_of_isInf hi) hi]
    exact isInf_pack_infMag _ _
  · obtain ⟨hover, hnear⟩ := roundS_finite_nearest nan hf
    exact ⟨hover, fun c _ hfin => hnear c hfin⟩

end Sys2Proof.Machine
end

section
/-! PROOF. The registers (spec/10_state.md): the invariant at power-on and across every step (R21 to R25, R30), and the
reach of a command that names one unit (R20). -/

namespace Sys2Proof.Machine

/-! ### Every step keeps the invariant -/

/-- A command keeps a sound block sound: the frame keeps the build and the arbiter's counts, the answer the units. -/
theorem runCommand_ok {c : Command} {s t : State} (hs : s.Ok) (h : runCommand c s = .next t) : t.Ok := by
  obtain ⟨hf, -⟩ := runCommand_frame h
  obtain ⟨t', -, ht', hunits, -, -⟩ := runCommand_answers (c := c) hs
  cases h.symm.trans ht'
  obtain ⟨hbuild, -, hports⟩ := hs
  exact ⟨by rw [build_of_frame hf, hbuild], by rw [hf.sfmt, hunits], by rw [hf.ports, hf.taken, hports]⟩

/-- Serving a port keeps the invariant: the delivery leaves no response outstanding. -/
theorem serve_inv {p : Nat} {c : Command} {s t : State} (hs : s.Inv) (h : serve p c s = .next t) : t.Inv := by
  obtain ⟨hok, -⟩ := hs
  obtain ⟨t1, r, hrun, -, -, rfl⟩ := serve_next h
  have hok1 : t1.Ok := runCommand_ok (take_ok hok) hrun
  exact ⟨hok1, rfl⟩

/-- Settles O18, by what a step of a valid build can do: idle, or serve a port. -/
theorem stepKeepsInvariant : Obligations.StepKeepsInvariant := by
  intro s t hs h
  rcases step_cases hs.1.1 with ⟨-, hidle⟩ | ⟨p, q, c, rest, -, -, hserve, -⟩
  · cases hidle.symm.trans h
    exact hs
  · exact serve_inv hs (hserve.symm.trans h)

/-! ### Power-on -/

/-- The block carries the build it was made for. -/
theorem powerOn_build (b : Build) : (State.powerOn b).build = b := by
  have hcfg : (b.units.map (powerOnSlot b.sfmt)).map Slot.cfg = b.units := by simp [Function.comp_def]
  simp [State.build, hcfg]

/-- R11: every slot of a valid build has its parameters in range. -/
theorem unitCfgValid_of_buildValid {b : Build} (h : buildValid b = true) {cfg : UnitCfg} (hc : cfg ∈ b.units) :
    unitCfgValid b.sfmt cfg = true := by
  simp only [buildValid, Bool.and_eq_true, List.all_eq_true] at h
  exact h.1.1.2 cfg hc

/-- Settles O16: every slot of a valid build is sound at power-on, and no port has been served. -/
theorem powerOnMeetsInvariant : Obligations.PowerOnMeetsInvariant := by
  intro b hb
  have hbuild : buildValid (State.powerOn b).build = true := by rw [powerOn_build, hb]
  have hunits : UnitsOk (State.powerOn b) := by
    rw [UnitsOk, State.powerOn_units, List.all_map, List.all_eq_true]
    exact fun cfg hc => slotOk_powerOn (unitCfgValid_of_buildValid hb hc)
  have hports : (State.powerOn b).ports.all (fun p => decide (p.since ≤ (State.powerOn b).taken)) = true := by
    rw [State.powerOn_ports, List.all_eq_true]
    intro p hp
    rw [List.eq_of_mem_replicate hp]
    rfl
  exact ⟨⟨⟨hbuild, hunits, hports⟩, rfl⟩, powerOn_build b⟩

/-- The model's default build keeps R3 to R10. -/
theorem buildValid_defaultBuild : buildValid Config.defaultBuild = true := by decide

/-- Settles O15: the reset state is the power-on state of a valid build. -/
theorem resetMeetsInvariant : Obligations.ResetMeetsInvariant :=
  (powerOnMeetsInvariant _ buildValid_defaultBuild).1

/-- R66: the stored fraction on real values. -/
theorem value_delayFrac (f : Sfmt) (d : Sample) :
    value f (delayFrac f d) = ((magUnits f (magBits f d) % unitsPerOne f : Nat) : Int) := by
  obtain ⟨hmag, hsign, -, -⟩ := delayFrac_spec f d
  rw [value, hsign, hmag]
  rfl

/-- R66: the two parts of a valid delay length add up to it exactly. -/
theorem delayInt_add_delayFrac {f : Sfmt} {c : Nat} {d : Sample} (hc : c ≤ 2 ^ 32) (h : delayValid f c d = true) :
    ((delayInt f d).toNat : Int) * unitsPerOne f + value f (delayFrac f d) = value f d := by
  obtain ⟨-, hnonneg, -⟩ := delayValid_iff.mp h
  rw [value_delayFrac, (delayInt_spec hc h).1, ← Int.natAbs_of_nonneg hnonneg, natAbs_value]
  exact_mod_cast Nat.div_add_mod' (magUnits f (magBits f d)) (unitsPerOne f)

/-- R66: the stored fraction is below 1. -/
theorem value_delayFrac_lt (f : Sfmt) (d : Sample) : value f (delayFrac f d) < unitsPerOne f := by
  rw [value_delayFrac]
  exact_mod_cast Nat.mod_lt _ (unitsPerOne_pos f)

/-- Settles O17, by the kind of the slot: its registers are those `powerOnSlot` writes. -/
theorem powerOnRegisters : Obligations.PowerOnRegisters := by
  intro b hb
  refine ⟨rfl, ?_, by simp, ?_⟩
  · intro q hq
    rw [List.eq_of_mem_replicate hq]
  · intro u cfg hu
    have hslot : (State.powerOn b).units[u]? = some (powerOnSlot b.sfmt cfg) := by simp [hu]
    have hvalid := unitCfgValid_of_buildValid hb (List.mem_of_getElem? hu)
    cases cfg with
    | ring c => exact ⟨_, hslot, rfl, rfl, fun _ => rfl⟩
    | delay c d =>
      simp only [unitCfgValid, capValid, Bool.and_eq_true, decide_eq_true_eq] at hvalid
      obtain ⟨⟨⟨-, hcap⟩, -⟩, hlen⟩ := hvalid
      obtain ⟨-, hsign, hfin, -⟩ := delayFrac_spec b.sfmt d
      exact ⟨_, hslot, rfl, rfl, rfl, fun _ => rfl, delayInt_add_delayFrac hcap hlen, hfin, hsign,
        value_delayFrac_lt b.sfmt d⟩
    | biquad fs init => exact ⟨_, hslot, rfl, rfl, rfl, rfl, rfl, rfl, rfl⟩
    | svf fs init m =>
      simp only [unitCfgValid, Bool.and_eq_true, decide_eq_true_eq] at hvalid
      have hmode : (BitVec.ofNat 2 m).toNat = m := by
        rw [BitVec.toNat_ofNat]
        omega
      exact ⟨_, hslot, rfl, rfl, rfl, hmode, rfl, rfl⟩

/-! ### The reach of a command that names one unit -/

/-- A command's effect on unit `u` is no effect on the rest of the block. -/
theorem UnitEffect.sameBut {u : Nat} {s t : State} (h : UnitEffect u s t) : SameBut u s t := by
  obtain ⟨r, rfl | ⟨-, sl, sl', n, -, -, rfl⟩⟩ := h
  · exact ⟨rfl, rfl, rfl, rfl, rfl, rfl, fun _ _ => rfl⟩
  · exact ⟨rfl, rfl, rfl, rfl, rfl, List.length_set, fun j hj => List.getElem?_set_ne hj.symm⟩

/-- Settles O26, by all a command that names one unit can do. -/
theorem oneUnitCommandsTouchOneUnit : Obligations.OneUnitCommandsTouchOneUnit := by
  intro i s t hreset hchain h
  exact (exec_unitEffect hreset hchain h).sameBut

/-- What a command on unit `u` may read is the same in both blocks. -/
structure SameUnit (u : Nat) (s s' : State) : Prop where
  sfmt : s'.sfmt = s.sfmt
  draws : s'.draws = s.draws
  unit : s'.units[u]? = s.units[u]?

/-- Where the first outcome answers, so does the second: the same response, draw counter and unit `u`. -/
def AnswerAlike (u : Nat) (o o' : Res State) : Prop :=
  ∀ t, o = .next t → ∃ t', o' = .next t' ∧ t'.resp = t.resp ∧ t'.draws = t.draws ∧ t'.units[u]? = t.units[u]?

theorem answerAlike_next {u : Nat} {t t' : State} (hr : t'.resp = t.resp) (hd : t'.draws = t.draws)
    (hu : t'.units[u]? = t.units[u]?) : AnswerAlike u (.next t) (.next t') := by
  rintro _ ⟨⟩
  exact ⟨t', rfl, hr, hd, hu⟩

/-- The same operation, followed by ends that answer alike. -/
theorem answerAlike_andThen {α : Type} {u : Nat} {o : Res α} {k k' : α → Res State}
    (h : ∀ a, AnswerAlike u (k a) (k' a)) : AnswerAlike u (andThen o k) (andThen o k') := by
  intro t ht
  obtain ⟨a, rfl, ha⟩ := andThen_eq_next.mp ht
  exact h a t ha

/-- The same unit is replaced alike, or is missing in both blocks. -/
theorem SameUnit.set {u : Nat} {s s' : State} (h : SameUnit u s s') (sl : Slot) :
    (s'.units.set u sl)[u]? = (s.units.set u sl)[u]? := by
  rw [List.getElem?_set_self', List.getElem?_set_self', h.unit]

section
variable {u : BitVec 8} {s s' : State} (h : SameUnit u.toNat s s')
include h

theorem SameUnit.argSample (x : Word) : argSample s' x = argSample s x := by rw [Machine.argSample, h.sfmt]; rfl

/-! The ways a command ends. -/

theorem SameUnit.raise (e : Status) : AnswerAlike u.toNat (.next (s.raise e)) (.next (s'.raise e)) :=
  answerAlike_next rfl h.draws h.unit

theorem SameUnit.respondSample (v : Sample) :
    AnswerAlike u.toNat (.next (s.respondSample v)) (.next (s'.respondSample v)) :=
  answerAlike_next (by simp [h.sfmt]) h.draws h.unit

theorem SameUnit.setUnit (sl : Slot) :
    AnswerAlike u.toNat (.next (s.setUnit u sl).respond) (.next (s'.setUnit u sl).respond) :=
  answerAlike_next rfl h.draws (h.set sl)

/-- R91: a tick reads the unit, the sample format and the draw counter. -/
theorem SameUnit.tickUnit (x : Sample) :
    AnswerAlike u.toNat (andThen (s.tickUnit u.toNat x) fun r => .next (r.1.respondSample r.2))
      (andThen (s'.tickUnit u.toNat x) fun r => .next (r.1.respondSample r.2)) := by
  intro t ht
  obtain ⟨⟨t1, y⟩, htick, hresp⟩ := andThen_eq_next.mp ht
  obtain ⟨sl, sl', hsl, hslot, -, rfl⟩ := tickUnit_cases htick
  have htick' : s'.tickUnit u.toNat x =
      .next ({ s' with units := s'.units.set u.toNat sl', draws := s'.draws + tickDraws sl }, y) := by
    simp only [State.tickUnit, h.unit, hsl, h.sfmt, h.draws, hslot, andThen_next]
  cases hresp
  rw [htick']
  exact ⟨_, rfl, by simp [h.sfmt], congrArg (· + tickDraws sl) h.draws, h.set sl'⟩

/-! The commands. -/

theorem SameUnit.execTick (x : Word) : AnswerAlike u.toNat (execTick u x s) (execTick u x s') := by
  simp only [Machine.execTick, h.unit, h.argSample]
  rcases (s.units[u.toNat]?).map Slot.kind with _ | k
  · exact h.raise _
  · cases k
    · exact h.raise _
    all_goals exact h.tickUnit _

theorem SameUnit.execLastOut : AnswerAlike u.toNat (execLastOut u s) (execLastOut u s') := by
  simp only [Machine.execLastOut, h.unit]
  split
  · exact h.respondSample _
  all_goals exact h.raise _

theorem SameUnit.execRbWrite (v : Word) : AnswerAlike u.toNat (execRbWrite u v s) (execRbWrite u v s') := by
  simp only [Machine.execRbWrite, h.unit, h.argSample]
  split
  · split
    · exact answerAlike_andThen fun r => h.setUnit _
    · exact h.raise _
  · exact h.raise _

theorem SameUnit.execRbReadAt (off : Word) :
    AnswerAlike u.toNat (execRbReadAt u off s) (execRbReadAt u off s') := by
  simp only [Machine.execRbReadAt, h.unit]
  split
  · split
    · split
      · exact h.raise _
      · exact answerAlike_andThen fun v => h.respondSample v
    · exact h.raise _
  · exact h.raise _

theorem SameUnit.execSetDelay (d : Word) : AnswerAlike u.toNat (execSetDelay u d s) (execSetDelay u d s') := by
  simp only [Machine.execSetDelay, h.unit, h.argSample, h.sfmt]
  split
  · split
    · exact h.setUnit _
    · exact h.raise _
  all_goals exact h.raise _

theorem SameUnit.execStageCoeff (sel : BitVec 4) (v : Word) :
    AnswerAlike u.toNat (execStageCoeff u sel v s) (execStageCoeff u sel v s') := by
  simp only [Machine.execStageCoeff, h.unit, h.argSample]
  split
  · split
    · exact h.setUnit _
    · exact h.raise _
  · split
    · exact h.setUnit _
    · exact h.raise _
  all_goals exact h.raise _

theorem SameUnit.execCommit : AnswerAlike u.toNat (execCommit u s) (execCommit u s') := by
  simp only [Machine.execCommit, h.unit]
  split
  · exact h.setUnit _
  · exact h.setUnit _
  all_goals exact h.raise _

theorem SameUnit.setParamsBiquad (kind : BitVec 4) (fc q : Word) (b : BiquadUnit) :
    AnswerAlike u.toNat (.next (setParamsBiquad u kind fc q b s)) (.next (setParamsBiquad u kind fc q b s')) := by
  simp only [Machine.setParamsBiquad, h.sfmt]
  split
  · split
    · exact h.setUnit _
    · exact h.raise _
  · exact h.raise _

theorem SameUnit.setParamsSvf (fc q : Word) (v : SvfUnit) :
    AnswerAlike u.toNat (.next (setParamsSvf u fc q v s)) (.next (setParamsSvf u fc q v s')) := by
  simp only [Machine.setParamsSvf, h.sfmt]
  split
  · exact h.setUnit _
  · exact h.raise _

theorem SameUnit.execSetParams (sel : BitVec 4) (fc q : Word) :
    AnswerAlike u.toNat (execSetParams u sel fc q s) (execSetParams u sel fc q s') := by
  simp only [Machine.execSetParams, h.unit]
  split
  · exact h.setParamsBiquad _ _ _ _
  · split
    · exact h.setParamsSvf _ _ _
    · exact h.raise _
  all_goals exact h.raise _

theorem SameUnit.execSetMode (sel : BitVec 4) : AnswerAlike u.toNat (execSetMode u sel s) (execSetMode u sel s') := by
  simp only [Machine.execSetMode, h.unit]
  split
  · split
    · exact h.setUnit _
    · exact h.raise _
  all_goals exact h.raise _

theorem SameUnit.execReset : AnswerAlike u.toNat (execReset u s) (execReset u s') := by
  simp only [Machine.execReset, h.unit]
  split
  · exact h.setUnit _
  · exact h.raise _

end

/-- R20: a command that names one unit reads the sample format, the draw counter and that unit. -/
theorem exec_answerAlike {i : Instr} {s s' : State} (hreset : i ≠ .resetAll) (hchain : ∀ x, i ≠ .chainTick x)
    (h : SameUnit i.unit.toNat s s') : AnswerAlike i.unit.toNat (exec i s) (exec i s') := by
  cases i with
  | resetAll => exact absurd rfl hreset
  | chainTick x => exact absurd rfl (hchain x)
  | nop => exact answerAlike_next rfl h.draws h.unit
  | tick u x => exact h.execTick x
  | lastOut u => exact h.execLastOut
  | rbWrite u v => exact h.execRbWrite v
  | rbReadAt u off => exact h.execRbReadAt off
  | setDelay u d => exact h.execSetDelay d
  | stageCoeff u sel v => exact h.execStageCoeff sel v
  | commit u => exact h.execCommit
  | setParams u sel fc q => exact h.execSetParams sel fc q
  | setMode u sel => exact h.execSetMode sel
  | reset u => exact h.execReset

/-- Settles O27, by what each command reads. -/
theorem oneUnitCommandsReadOneUnit : Obligations.OneUnitCommandsReadOneUnit := by
  intro i s s' t hreset hchain hsfmt hdraws hunit ht
  exact exec_answerAlike hreset hchain ⟨hsfmt, hdraws, hunit⟩ t ht

end Sys2Proof.Machine
end

section
/-! PROOF. The command ports (spec/20_memory.md R37, R38): the port a step serves, the order of each port's commands, and
the weak fairness of the arbiter. -/

namespace Sys2Proof.Machine

/-! ### The port a step serves -/

/-- Settles O13, by what a step of a valid build can do: with a command pending it does not idle. -/
theorem pendingBlockServesAPort : Obligations.PendingBlockServesAPort := by
  rintro s hb ⟨q', hq', hpending⟩
  rcases step_cases hb with ⟨hquiet, -⟩ | ⟨p, q, c, rest, hp, hq, hserve, -⟩
  · exact absurd (hquiet q' hq') hpending
  · obtain ⟨hserved, hothers⟩ := take_ports hp
    rw [hq] at hserved
    exact ⟨p, q, c, rest, hp, hq, hserve, hserved, hothers⟩

/-- Settles O11: serving the port raises IllegalCommand in the state without the command, and delivers that response. -/
theorem stepAnswersUndecodableCommand : Obligations.StepAnswersUndecodableCommand := by
  intro s p c e hb hp hc hd
  have hrun : runCommand c (s.take p) = .next ((s.take p).raise .illegalCommand) := by simp [runCommand, hd]
  refine ⟨((s.take p).raise .illegalCommand).deliver p c, ?_, rfl, rfl, rfl, rfl⟩
  rw [step_of_pending hb hp hc, serve, hrun, andThen_next]

/-! ### The order of a port's commands -/

/-- R37: serving a port leaves the ports as taking its command does, and adds that command to the trace. -/
theorem serve_delivers {p : Nat} {c : Command} {s t : State} (h : serve p c s = .next t) :
    t.ports = (s.take p).ports ∧ ∃ r, t.trace = s.trace ++ [{ port := p, cmd := c, resp := r }] := by
  obtain ⟨t1, r, -, hf, -, rfl⟩ := serve_next h
  exact ⟨hf.ports, r, rfl⟩

/-- R37, R38: the command served moves from the head of its port's queue to the end of what that port's agent has seen
run; every other port's commands stay. -/
theorem serve_issued {p : Nat} {c : Command} {s t : State} {q : Port} {rest : List Command}
    (hp : s.ports[p]? = some q) (hq : q.queue = c :: rest) (h : serve p c s = .next t) (j : Nat) :
    t.issued j = s.issued j := by
  obtain ⟨hports, r, htrace⟩ := serve_delivers h
  obtain ⟨hserved, hothers⟩ := take_ports hp
  rw [State.issued, State.issued, hports, htrace]
  by_cases hj : j = p
  · subst hj
    rw [hserved, hp]
    simp [hq]
  · rw [hothers j hj]
    simp [Ne.symm hj]

/-- Settles O20, by what a step can do: refuse, idle, or serve a port. -/
theorem stepKeepsIssueOrder : Obligations.StepKeepsIssueOrder := by
  intro s t j h
  by_cases hb : buildValid s.build = true
  · rcases step_cases hb with ⟨-, hidle⟩ | ⟨p, q, c, rest, hp, hq, hserve, -⟩
    · cases hidle.symm.trans h
      rfl
    · exact serve_issued hp hq (hserve.symm.trans h) j
  · cases (step_invalid hb).symm.trans h

/-! ### Weak fairness

While port `p` waits its ticket `T` stays, and every port served before it held a ticket, hence a `since`, of at most
`T`. Being served raises a port's `since`, so the sum over all ports of how far `since` lies below `T + 1` falls with
every step that serves another port. -/

/-- How far the ports' last services lie below `T + 1`, summed. -/
def lag (T : Nat) (ps : List Port) : Nat := (ps.map fun q => T + 1 - q.since).sum

/-- Moving no port's `since` moves no lag. -/
theorem lag_modify_of_since_eq {f : Port → Port} (hf : ∀ q, (f q).since = q.since) (T j : Nat) (ps : List Port) :
    lag T (ps.modify j f) = lag T ps := by
  induction ps generalizing j with
  | nil => cases j <;> rfl
  | cons a ps ih =>
    cases j with
    | zero => simp [lag, hf]
    | succ j => simpa [lag] using ih j

/-- Raising the `since` of a port that was at most `T` lowers the lag. -/
theorem lag_modify_lt {f : Port → Port} {T j : Nat} {ps : List Port} {q : Port} (hq : ps[j]? = some q)
    (hle : q.since ≤ T) (hlt : q.since < (f q).since) : lag T (ps.modify j f) < lag T ps := by
  induction ps generalizing j with
  | nil => simp at hq
  | cons a ps ih =>
    cases j with
    | zero =>
      obtain rfl : a = q := by simpa using hq
      simp only [lag, List.modify_zero_cons, List.map_cons, List.sum_cons]
      omega
    | succ j => simpa [lag] using ih (by simpa using hq)

/-- The block meets the invariant, and `c` is the oldest command of port `p`, which holds the ticket `T`. -/
structure Waiting (p : Nat) (c : Command) (T : Nat) (s : State) : Prop where
  inv : s.Inv
  port : ∃ q rest, s.ports[p]? = some q ∧ q.queue = c :: rest ∧ ticket p q = T

/-- Issuing a command keeps the build parameters: the number of ports among them (R10). -/
theorem issue_build (s : State) (p : Nat) (c : Command) : (s.issue p c).build = s.build := by simp [State.build]

/-- The port at `j` after a command was issued at `p`: the command is behind the port's earlier ones, or elsewhere. -/
theorem issue_port {s : State} {j : Nat} {q : Port} (h : s.ports[j]? = some q) (p : Nat) (c : Command) :
    (s.issue p c).ports[j]? = some { q with queue := q.queue ++ if p = j then [c] else [] } := by
  by_cases hj : p = j <;> simp [h, hj]

/-- Issuing a command keeps the invariant. -/
theorem issue_inv {s : State} (h : s.Inv) (p : Nat) (c : Command) : (s.issue p c).Inv := by
  obtain ⟨⟨hbuild, hunits, hports⟩, hresp⟩ := h
  refine ⟨⟨by rw [issue_build, hbuild], hunits, List.all_eq_true.mpr fun q' hq' => ?_⟩, hresp⟩
  obtain ⟨j, hj⟩ := List.mem_iff_getElem?.mp hq'
  have hlen : j < s.ports.length := by simpa using (List.getElem?_eq_some_iff.mp hj).1
  rw [issue_port (List.getElem?_eq_getElem hlen), Option.some.injEq] at hj
  subst hj
  exact List.all_eq_true.mp hports s.ports[j] (List.getElem_mem hlen)

/-- A waiting command keeps its place and its ticket when agents issue further commands. -/
theorem Waiting.issueAll {p T : Nat} {c : Command} (inputs : List (Nat × Command)) {s : State} (h : Waiting p c T s) :
    Waiting p c T (s.issueAll inputs) := by
  induction inputs generalizing s with
  | nil => exact h
  | cons a inputs ih =>
    obtain ⟨q, rest, hp, hq, ht⟩ := h.port
    exact ih ⟨issue_inv h.inv a.1 a.2, _, rest ++ if a.1 = p then [a.2] else [], issue_port hp a.1 a.2,
      by rw [hq, List.cons_append], ht⟩

theorem issueAll_trace (inputs : List (Nat × Command)) (s : State) : (s.issueAll inputs).trace = s.trace := by
  induction inputs generalizing s with
  | nil => rfl
  | cons a inputs ih => exact ih (s.issue a.1 a.2)

theorem issueAll_lag (inputs : List (Nat × Command)) (T : Nat) (s : State) :
    lag T (s.issueAll inputs).ports = lag T s.ports := by
  induction inputs generalizing s with
  | nil => rfl
  | cons a inputs ih => exact 
    (ih (s.issue a.1 a.2)).trans <|
      lag_modify_of_since_eq (f := fun q => { q with queue := q.queue ++ [a.2] }) (fun _ => rfl) T a.1 s.ports

/-- In a sound state serving a port answers (R90, R99). -/
theorem serve_answers {s : State} (h : s.Ok) (p : Nat) (c : Command) : ∃ t, serve p c s = .next t := by
  obtain ⟨t, r, hrun, -, -, -⟩ := runCommand_answers (c := c) (take_ok (p := p) h)
  exact ⟨t.deliver p c, by rw [serve, hrun, andThen_next]⟩

/-- R37: the arbiter's count bounds the count at which any port was last served. -/
theorem since_le_taken {s : State} (h : s.Ok) {j : Nat} {q : Port} (hq : s.ports[j]? = some q) : q.since ≤ s.taken :=
  of_decide_eq_true (List.all_eq_true.mp h.2.2 q (List.mem_of_getElem? hq))

/-- R37: a step takes the waiting command, or serves another port, which lowers the lag, and the command waits on. -/
theorem Waiting.step {p T : Nat} {c : Command} {s : State} (h : Waiting p c T s) :
    ∃ t, Machine.step s = .next t ∧ ∃ e : Completed, t.trace = s.trace ++ [e] ∧
      ((e.port = p ∧ e.cmd = c) ∨ (Waiting p c T t ∧ lag T t.ports < lag T s.ports)) := by
  obtain ⟨hinv, q, rest, hp, hq, rfl⟩ := h
  have hpending : q.queue ≠ [] := by simp [hq]
  rcases step_cases hinv.1.1 with ⟨hquiet, -⟩ | ⟨j, qj, cj, restj, hj, hqj, hstep, hleast⟩
  · exact absurd (hquiet q (List.mem_of_getElem? hp)) hpending
  · obtain ⟨t, ht⟩ := serve_answers hinv.1 j cj
    obtain ⟨hports, r, htrace⟩ := serve_delivers ht
    refine ⟨t, hstep.trans ht, _, htrace, ?_⟩
    by_cases hjp : j = p
    · subst hjp
      cases hp.symm.trans hj
      cases hq.symm.trans hqj
      exact .inl ⟨rfl, rfl⟩
    · have hport : t.ports[p]? = some q := by rw [hports, (take_ports hj).2 p (Ne.symm hjp), hp]
      have hticket : qj.since ≤ ticket p q := (Nat.le_add_right _ _).trans (hleast p q hp hpending)
      refine .inr ⟨⟨serve_inv hinv ht, q, rest, hport, hq, rfl⟩, ?_⟩
      rw [hports, State.take_ports]
      exact lag_modify_lt hj hticket (Nat.lt_succ_of_le (since_le_taken hinv.1 hj))

/-- The command `c` of port `p` has run within some number of rounds from `s`. -/
def TakenFrom (s : State) (inputs : Nat → List (Nat × Command)) (p : Nat) (c : Command) : Prop :=
  ∃ n t r, rounds inputs n s = .next t ∧ ({ port := p, cmd := c, resp := r } : Completed) ∈ t.trace.drop s.trace.length

/-- After `n` rounds the command has been taken, or it waits still and the lag has fallen by `n`. -/
theorem rounds_take_or_wait {s : State} {p T : Nat} {c : Command} (inputs : Nat → List (Nat × Command))
    (h : Waiting p c T s) (n : Nat) :
    TakenFrom s inputs p c ∨
      ∃ t, rounds inputs n s = .next t ∧ Waiting p c T t ∧ s.trace <+: t.trace ∧ lag T t.ports + n ≤ lag T s.ports := by
  induction n with
  | zero => exact .inr ⟨s, rfl, h, ⟨[], List.append_nil _⟩, le_rfl⟩
  | succ n ih =>
    rcases ih with htaken | ⟨t, ht, hwait, ⟨ran, hran⟩, hlag⟩
    · exact .inl htaken
    · obtain ⟨w, hstep, e, htrace, hcase⟩ := (hwait.issueAll (inputs n)).step
      rw [issueAll_trace, ← hran, List.append_assoc] at htrace
      have hrounds : rounds inputs (n + 1) s = .next w := by rw [rounds, ht, andThen_next, hstep]
      rcases hcase with ⟨rfl, rfl⟩ | ⟨hwait', hlag'⟩
      · exact .inl ⟨n + 1, w, e.resp, hrounds, by simp [htrace]⟩
      · rw [issueAll_lag] at hlag'
        exact .inr ⟨w, hrounds, hwait', ⟨_, htrace.symm⟩, by omega⟩

/-- Settles O21: the lag cannot fall in each of one round more than its first value. -/
theorem pendingCommandIsTakenEventually : Obligations.PendingCommandIsTakenEventually := by
  intro s p q c rest inputs hinv hp hq
  have hwait : Waiting p c (ticket p q) s := ⟨hinv, q, rest, hp, hq, rfl⟩
  rcases rounds_take_or_wait inputs hwait (lag (ticket p q) s.ports + 1) with htaken | ⟨t, -, -, -, hlag⟩
  · exact htaken
  · omega

end Sys2Proof.Machine
end

section
/-! PROOF. The operands and the responses (spec/20_memory.md R31, R35): the width of an operand and of DATA, and the two
commands that read a register or a slot and write nothing. -/

namespace Sys2Proof.Machine

/-! ### The width of DATA -/

/-- R49, R53, R91: TICK ticks a unit whose kind has a tick, and is illegal for any other. -/
theorem execTick_eq (u : BitVec 8) (x : Word) (s : State) :
    execTick u x s =
      if ((s.units[u.toNat]?).map Slot.kind).any tickable then
        andThen (s.tickUnit u.toNat (argSample s x)) fun r => .next (r.1.respondSample r.2)
      else .next (s.raise .illegalCommand) := by
  unfold execTick
  rcases (s.units[u.toNat]?).map Slot.kind with _ | k
  · rfl
  · cases k <;> rfl

/-- Every response of the outcome has DATA that fits the sample format. -/
def DataFits (f : Sfmt) (o : Res State) : Prop := ∀ t r, o = .next t → t.resp = some r → fits f r.data = true

theorem dataFits_raise (s : State) (e : Status) : DataFits s.sfmt (.next (s.raise e)) := by
  rintro _ _ ⟨⟩ ⟨⟩
  cases s.sfmt <;> rfl

theorem dataFits_respond {f : Sfmt} (s : State) : DataFits f (.next s.respond) := by
  rintro _ _ ⟨⟩ ⟨⟩
  cases f <;> rfl

theorem dataFits_respondSample (s : State) (v : Sample) : DataFits s.sfmt (.next (s.respondSample v)) := by
  rintro _ _ ⟨⟩ ⟨⟩
  exact fits_lowBits s.sfmt v

/-- An operation, then ends whose responses fit. -/
theorem dataFits_andThen {α : Type} {f : Sfmt} {o : Res α} {k : α → Res State}
    (h : ∀ a, o = .next a → DataFits f (k a)) : DataFits f (andThen o k) := by
  intro t r ht
  obtain ⟨a, ha, hk⟩ := andThen_eq_next.mp ht
  exact h a ha t r hk

/-- R91: the response of a tick, in the state the tick leaves. -/
theorem dataFits_tickUnit (s : State) (u : Nat) (x : Sample) :
    DataFits s.sfmt (andThen (s.tickUnit u x) fun r => .next (r.1.respondSample r.2)) :=
  dataFits_andThen fun a ha => by
    rw [← (tickUnit_frame ha).sfmt]
    exact dataFits_respondSample a.1 a.2

/-- R31: the response of every command fits, by the way the command ends. -/
theorem exec_dataFits (i : Instr) (s : State) : DataFits s.sfmt (exec i s) := by
  cases i with
  | nop => exact dataFits_respond s
  | resetAll => exact dataFits_respond _
  | chainTick x =>
    exact dataFits_andThen fun a ha => by
      rw [← (chainTicks_frame ha).sfmt]
      exact dataFits_respondSample a.1 a.2
  | tick u x =>
    simp only [exec, execTick_eq]
    split
    · exact dataFits_tickUnit _ _ _
    · exact dataFits_raise _ _
  | lastOut u =>
    simp only [exec, execLastOut]
    split
    · exact dataFits_respondSample _ _
    all_goals exact dataFits_raise _ _
  | rbWrite u v =>
    simp only [exec, execRbWrite]
    split
    · split
      · exact dataFits_andThen fun _ _ => dataFits_respond _
      · exact dataFits_raise _ _
    · exact dataFits_raise _ _
  | rbReadAt u off =>
    simp only [exec, execRbReadAt]
    split
    · split
      · split
        · exact dataFits_raise _ _
        · exact dataFits_andThen fun _ _ => dataFits_respondSample _ _
      · exact dataFits_raise _ _
    · exact dataFits_raise _ _
  | setDelay u d =>
    simp only [exec, execSetDelay]
    split
    · split
      · exact dataFits_respond _
      · exact dataFits_raise _ _
    all_goals exact dataFits_raise _ _
  | stageCoeff u sel v =>
    simp only [exec, execStageCoeff]
    split
    · split
      · exact dataFits_respond _
      · exact dataFits_raise _ _
    · split
      · exact dataFits_respond _
      · exact dataFits_raise _ _
    all_goals exact dataFits_raise _ _
  | commit u =>
    simp only [exec, execCommit]
    split
    · exact dataFits_respond _
    · exact dataFits_respond _
    all_goals exact dataFits_raise _ _
  | setParams u sel fc q =>
    simp only [exec, execSetParams]
    split
    · simp only [setParamsBiquad]
      split
      · split
        · exact dataFits_respond _
        · exact dataFits_raise _ _
      · exact dataFits_raise _ _
    · split
      · simp only [setParamsSvf]
        split
        · exact dataFits_respond _
        · exact dataFits_raise _ _
      · exact dataFits_raise _ _
    all_goals exact dataFits_raise _ _
  | setMode u sel =>
    simp only [exec, execSetMode]
    split
    · split
      · exact dataFits_respond _
      · exact dataFits_raise _ _
    all_goals exact dataFits_raise _ _
  | reset u =>
    simp only [exec, execReset]
    split
    · exact dataFits_respond _
    · exact dataFits_raise _ _

/-- Settles O24: a decoded command by the way it ends, any other by its error. -/
theorem responseDataFitsTheFormat : Obligations.ResponseDataFitsTheFormat := by
  intro c s t r h hr
  have hfits : DataFits s.sfmt (runCommand c s) := by
    unfold runCommand
    split
    · exact exec_dataFits _ s
    · exact dataFits_raise s _
  exact of_decide_eq_true (hfits t r h hr)

/-! ### The width of an operand -/

/-- R31, R50: `S(ARGn)` is a function of the low `w` bits. -/
theorem argSample_eq_of_mod {s : State} {x y : Word} (h : x.toNat % 2 ^ s.sfmt.width = y.toNat % 2 ^ s.sfmt.width) :
    argSample s x = argSample s y := by
  rw [argSample, argSample, lowBits, lowBits, h]

/-- Settles O25: each of the five commands reads its operand through `argSample` alone. -/
theorem upperOperandBitsAreIgnored : Obligations.UpperOperandBitsAreIgnored := by
  intro s u sel x y h
  have hxy := argSample_eq_of_mod h
  refine ⟨?_, ?_, ?_, ?_, ?_⟩
  · simp only [exec, execTick, hxy]
  · simp only [exec, execChainTick, hxy]
  · simp only [exec, execRbWrite, hxy]
  · simp only [exec, execSetDelay, hxy]
  · simp only [exec, execStageCoeff, hxy]

/-! ### The reads that write nothing -/

/-- Settles O29: at or above the capacity the error, below it what `ReadAt` answers. -/
theorem rbReadAtAnswersTheSlot : Obligations.RbReadAtAnswersTheSlot := by
  intro s u off sl r hs hr
  simp only [exec, execRbReadAt, hs, hr]
  by_cases hoff : r.cap ≤ off.toNat
  · rw [if_pos (show r.cap ≤ argNat off from hoff), if_pos hoff]
    rfl
  · have hbelow : argNat off < r.cap := Nat.lt_of_not_le hoff
    rw [if_neg hbelow.not_ge, if_neg hoff, readAt_eq r hbelow, andThen_next]
    rfl

/-- Settles O35: on a DELAY unit LAST_OUT responds with the register. -/
theorem lastOutAnswersTheRegister : Obligations.LastOutAnswersTheRegister := by
  intro s u d hs
  simp only [exec, execLastOut, hs]
  rfl

/-! ### The shadow banks -/

/-- R39: the ways two slots differ in shadow banks only. -/
theorem sameButShadow_cases {sl sl' : Slot} (h : sameButShadow sl sl') :
    sl' = sl ∨ (∃ b c, sl = .biquad b ∧ sl' = .biquad { b with shadow := c }) ∨
      ∃ v c, sl = .svf v ∧ sl' = .svf { v with shadow := c } := by
  cases sl <;> cases sl' <;> simp only [sameButShadow, reduceCtorEq] at h
  case ring.ring => exact .inl h
  case delay.delay => exact .inl h
  case biquad.biquad b b' => exact .inr (.inl ⟨b, b'.shadow, rfl, congrArg _ h⟩)
  case svf.svf v v' => exact .inr (.inr ⟨v, v'.shadow, rfl, congrArg _ h⟩)

theorem sameButShadow_refl (sl : Slot) : sameButShadow sl sl := by cases sl <;> rfl

theorem kind_of_sameButShadow {sl sl' : Slot} (h : sameButShadow sl sl') : sl'.kind = sl.kind := by
  rcases sameButShadow_cases h with rfl | ⟨b, c, rfl, rfl⟩ | ⟨v, c, rfl, rfl⟩ <;> rfl

theorem tickDraws_of_sameButShadow {sl sl' : Slot} (h : sameButShadow sl sl') : tickDraws sl' = tickDraws sl := by
  rcases sameButShadow_cases h with rfl | ⟨b, c, rfl, rfl⟩ | ⟨v, c, rfl, rfl⟩ <;> rfl

/-- R39, R74: the tick of a unit reads no shadow bank and keeps it. -/
theorem slotTick_ignores_shadow {f : Sfmt} {n : Nat} {sl sl' w : Slot} {x y : Sample} (h : sameButShadow sl sl')
    (ht : slotTick f n sl x = .next (w, y)) : ∃ w', slotTick f n sl' x = .next (w', y) ∧ sameButShadow w w' := by
  rcases sameButShadow_cases h with rfl | ⟨b, c, rfl, rfl⟩ | ⟨v, c, rfl, rfl⟩
  · exact ⟨w, ht, sameButShadow_refl w⟩
  · cases ht
    exact ⟨_, rfl, rfl⟩
  · cases ht
    exact ⟨_, rfl, rfl⟩

theorem forall₂_getElem? {α β : Type} {R : α → β → Prop} {xs : List α} {ys : List β} (h : List.Forall₂ R xs ys)
    {n : Nat} {a : α} (ha : xs[n]? = some a) : ∃ b, ys[n]? = some b ∧ R a b := by
  induction h generalizing n with
  | nil => simp at ha
  | cons hcd _ ih =>
    cases n with
    | zero => exact ⟨_, rfl, Option.some.inj ha ▸ hcd⟩
    | succ n => exact ih ha

theorem forall₂_set {α β : Type} {R : α → β → Prop} {xs : List α} {ys : List β} (h : List.Forall₂ R xs ys) (n : Nat)
    {a : α} {b : β} (hab : R a b) : List.Forall₂ R (xs.set n a) (ys.set n b) := by
  induction h generalizing n with
  | nil => exact .nil
  | cons hcd h ih =>
    cases n with
    | zero => exact .cons hab h
    | succ n => exact .cons hcd (ih n)

/-- R39: the tick of unit `u` of a block, where another block differs in shadow banks only. -/
theorem tickUnit_ignores_shadow {s t : State} {u : Nat} {us : List Slot} {x y : Sample}
    (h : List.Forall₂ sameButShadow s.units us) (ht : s.tickUnit u x = .next (t, y)) :
    ∃ vs, ({ s with units := us } : State).tickUnit u x = .next ({ t with units := vs }, y) ∧
      List.Forall₂ sameButShadow t.units vs := by
  obtain ⟨sl, w, hsl, hslot, -, rfl⟩ := tickUnit_cases ht
  obtain ⟨sl', hsl', hsame⟩ := forall₂_getElem? h hsl
  obtain ⟨w', hslot', hsame'⟩ := slotTick_ignores_shadow hsame hslot
  exact ⟨us.set u w', by simp [State.tickUnit, hsl', hslot', tickDraws_of_sameButShadow hsame],
    forall₂_set h u hsame'⟩

/-- R39, R92: the chain, stage by stage. -/
theorem chainTicks_ignores_shadow {cs : List Nat} {s t : State} {us : List Slot} {x y : Sample}
    (h : List.Forall₂ sameButShadow s.units us) (ht : chainTicks cs s x = .next (t, y)) :
    ∃ vs, chainTicks cs { s with units := us } x = .next ({ t with units := vs }, y) ∧
      List.Forall₂ sameButShadow t.units vs := by
  induction cs generalizing s us x with
  | nil =>
    cases ht
    exact ⟨us, rfl, h⟩
  | cons c cs ih =>
    obtain ⟨⟨s1, x1⟩, hstage, hrest⟩ := andThen_eq_next.mp ht
    obtain ⟨us1, hstage', h1⟩ := tickUnit_ignores_shadow h hstage
    obtain ⟨vs, hrest', h2⟩ := ih h1 hrest
    exact ⟨vs, by rw [chainTicks, hstage', andThen_next, hrest'], h2⟩

/-- Two blocks that differ in shadow banks only have units of the same kinds. -/
theorem map_kind_of_sameButShadow {us us' : List Slot} (h : List.Forall₂ sameButShadow us us') :
    us'.map Slot.kind = us.map Slot.kind := by
  induction h with
  | nil => rfl
  | cons hsame _ ih => rw [List.map_cons, List.map_cons, kind_of_sameButShadow hsame, ih]

/-- R39: TICK, where another block differs in shadow banks only. -/
theorem execTick_ignores_shadow {s t : State} {u : BitVec 8} {us : List Slot} {x : Word}
    (h : List.Forall₂ sameButShadow s.units us) (ht : execTick u x s = .next t) :
    ∃ vs, execTick u x { s with units := us } = .next { t with units := vs } ∧ List.Forall₂ sameButShadow t.units vs := by
  rw [execTick_eq, ← List.getElem?_map] at ht ⊢
  rw [map_kind_of_sameButShadow h]
  split_ifs at ht ⊢
  · obtain ⟨⟨s1, y⟩, htick, hresp⟩ := andThen_eq_next.mp ht
    obtain ⟨vs, htick', h1⟩ := tickUnit_ignores_shadow h htick
    cases hresp
    exact ⟨vs, congrArg (andThen · _) htick', h1⟩
  · cases ht
    exact ⟨us, rfl, h⟩

/-- R39: CHAIN_TICK, where another block differs in shadow banks only. -/
theorem execChainTick_ignores_shadow {s t : State} {us : List Slot} {x : Word}
    (h : List.Forall₂ sameButShadow s.units us) (ht : execChainTick x s = .next t) :
    ∃ vs, execChainTick x { s with units := us } = .next { t with units := vs } ∧
      List.Forall₂ sameButShadow t.units vs := by
  obtain ⟨⟨s1, y⟩, htick, hresp⟩ := andThen_eq_next.mp ht
  obtain ⟨vs, htick', h1⟩ := chainTicks_ignores_shadow h htick
  cases hresp
  exact ⟨vs, congrArg (andThen · _) htick', h1⟩

/-- Settles O47, by what a tick of a unit and the chain of ticks read. -/
theorem ticksIgnoreShadowBanks : Obligations.TicksIgnoreShadowBanks := by
  intro i s s' t hi hs h ht
  rw [hs]
  rcases hi with ⟨u, x, rfl⟩ | ⟨x, rfl⟩
  · obtain ⟨vs, ht', hvs⟩ := execTick_ignores_shadow h ht
    exact ⟨_, ht', rfl, hvs⟩
  · obtain ⟨vs, ht', hvs⟩ := execChainTick_ignores_shadow h ht
    exact ⟨_, ht', rfl, hvs⟩

end Sys2Proof.Machine
end

section
/-! PROOF. The encoding (spec/30_encoding.md): the decoder and the encoder agree (R46, R47, R53), the words that stand for
no command (R48, R49, R52, R54), the checks a meaning makes (R49, R52, R56), and the pseudo-command of R58. -/

namespace Sys2Proof

/-! ### The fields of an instruction -/

/-- The opcode, UNIT and SEL fields of the command word are those of the instruction (R47). -/
structure HasFields (c : CmdWord) (i : Instr) : Prop where
  op : opField c = i.opcode
  unit : unitField c = i.unit
  sel : selField c = i.sel

theorem hasFields_encode (i : Instr) : HasFields (encode i).cmd i :=
  ⟨opField_cmdWord _ _ _, unitField_cmdWord _ _ _, selField_cmdWord _ _ _⟩

/-- R52: the check of an opcode that uses no SEL. -/
theorem withoutSel_eq_ok {c : CmdWord} {i j : Instr} : withoutSel c i = .ok j ↔ selField c = 0 ∧ i = j := by
  by_cases hsel : selField c = 0
  · simp only [withoutSel, hsel, if_true, Except.ok.injEq, true_and]
  · simp only [withoutSel, hsel, if_false, reduceCtorEq, false_and]

/-- R49, R52: the checks of an opcode that names no unit. -/
theorem withoutUnit_eq_ok {c : CmdWord} {i j : Instr} :
    withoutUnit c i = .ok j ↔ unitField c = 0 ∧ selField c = 0 ∧ i = j := by
  by_cases hunit : unitField c = 0
  · simp only [withoutUnit, hunit, if_true, withoutSel_eq_ok, true_and]
  · simp only [withoutUnit, hunit, if_false, reduceCtorEq, false_and]

/-- R53: the opcode map reads back what the encoder wrote: an opcode with neither field, with UNIT alone, with both. -/
theorem decodeOp_encode (i : Instr) : decodeOp (encode i) = .ok i := by
  obtain ⟨hop, hunit, hsel⟩ := hasFields_encode i
  unfold decodeOp
  rw [hop, hunit, hsel]
  cases i with
  | nop | chainTick _ | resetAll => exact withoutUnit_eq_ok.mpr ⟨hunit, hsel, rfl⟩
  | tick _ _ | lastOut _ | rbWrite _ _ | rbReadAt _ _ | setDelay _ _ | commit _ | reset _ =>
    exact withoutSel_eq_ok.mpr ⟨hsel, rfl⟩
  | stageCoeff _ _ _ | setParams _ _ _ _ | setMode _ _ => rfl

/-- Settles O1: the encoder sets no reserved bit, and the opcode map reads its fields and operands back. -/
theorem decodeOfEncode : Obligations.DecodeOfEncode := by
  intro i
  have hrsvd : rsvdField (encode i).cmd = 0 := rsvdField_cmdWord _ _ _
  rw [decode, if_pos hrsvd, decodeOp_encode]

theorem hasFields_of_withoutSel {c : CmdWord} {i j : Instr} (h : withoutSel c i = .ok j)
    (hop : (opField c).toNat = i.opcode.toNat) (hunit : i.unit = unitField c) (hsel : i.sel = 0) : HasFields c j := by
  obtain ⟨hc, rfl⟩ := withoutSel_eq_ok.mp h
  exact ⟨BitVec.eq_of_toNat_eq hop, hunit.symm, hc.trans hsel.symm⟩

theorem hasFields_of_withoutUnit {c : CmdWord} {i j : Instr} (h : withoutUnit c i = .ok j)
    (hop : (opField c).toNat = i.opcode.toNat) (hunit : i.unit = 0) (hsel : i.sel = 0) : HasFields c j := by
  obtain ⟨hu, hc, rfl⟩ := withoutUnit_eq_ok.mp h
  exact ⟨BitVec.eq_of_toNat_eq hop, hu.trans hunit.symm, hc.trans hsel.symm⟩

/-- R53: the opcode map answers an instruction with the fields of the command word. -/
theorem hasFields_of_decodeOp {c : Command} {i : Instr} (h : decodeOp c = .ok i) : HasFields c.cmd i := by
  unfold decodeOp at h
  dsimp only at h
  split at h
  case h_1 hop | h_3 hop | h_13 hop => exact hasFields_of_withoutUnit h hop rfl rfl
  case h_8 hop | h_10 hop | h_11 hop =>
    cases h
    exact ⟨BitVec.eq_of_toNat_eq hop, rfl, rfl⟩
  case h_14 => cases h
  all_goals
    rename_i hop
    exact hasFields_of_withoutSel h hop rfl rfl

/-- What the decoder accepts: a word with no reserved bit and the fields of the instruction. -/
theorem fields_of_decode {c : Command} {i : Instr} (h : decode c = .ok i) :
    rsvdField c.cmd = 0 ∧ HasFields c.cmd i := by
  unfold decode at h
  split at h
  · exact ⟨by assumption, hasFields_of_decodeOp h⟩
  · cases h

/-- Settles O2: the word is its fields, and these are the instruction's. -/
theorem encodeOfDecodeKeepsCommandWord : Obligations.EncodeOfDecodeKeepsCommandWord := by
  intro c i h
  obtain ⟨hrsvd, hop, hunit, hsel⟩ := fields_of_decode h
  calc (encode i).cmd = cmdWord (selField c.cmd) (unitField c.cmd) (opField c.cmd) := by rw [hop, hunit, hsel]; rfl
    _ = c.cmd := cmd_fields c.cmd hrsvd

/-- Settles O3, by the opcode: the map reads `ARG0` for seven of them, and `ARG1` for SET_PARAMS. -/
theorem unusedOperandWordsAreIgnored : Obligations.UnusedOperandWordsAreIgnored := by
  intro c a0 a1 a2 h0 h1
  rw [← opField_toNat] at h0 h1
  have hmap : decodeOp { cmd := c.cmd, arg0 := a0, arg1 := a1, arg2 := a2 } = decodeOp c := by
    unfold decodeOp
    dsimp only
    split
    case h_2 hop | h_3 hop | h_5 hop | h_6 hop | h_7 hop | h_8 hop => rw [h0 (by rw [hop]; decide)]
    case h_10 hop => rw [h0 (by rw [hop]; decide), h1 hop]
    all_goals rfl
  rw [decode, decode, hmap]

/-- Settles O4, by running the decoder on each word. -/
theorem listedWordsDecode : Obligations.ListedWordsDecode := by
  unfold Obligations.ListedWordsDecode
  decide

end Sys2Proof

namespace Sys2Proof.Machine

/-! ### The words that stand for no command -/

/-- R56: a word that decodes to no instruction is IllegalCommand. -/
theorem runCommand_of_undecodable {c : Command} (h : ∀ i, decode c ≠ .ok i) (s : State) :
    runCommand c s = .next (s.raise .illegalCommand) := by
  unfold runCommand
  split
  · exact absurd (by assumption) (h _)
  · rfl

/-- Settles O5: the decoder accepts no word with a reserved bit set. -/
theorem reservedBitsAreIllegal : Obligations.ReservedBitsAreIllegal := by
  intro c s hbits
  refine runCommand_of_undecodable (fun i hi => hbits ?_) s
  obtain ⟨hrsvd, -⟩ := fields_of_decode hi
  calc c.cmd.toNat / 2 ^ 20 = (rsvdField c.cmd).toNat := (rsvdField_toNat c.cmd).symm
    _ = 0 := by rw [hrsvd]; rfl

/-- R53: the thirteen opcodes. -/
theorem opcode_mem (i : Instr) : i.opcode.toNat ∈
    [0x00, 0x01, 0x02, 0x03, 0x10, 0x11, 0x18, 0x20, 0x21, 0x22, 0x23, 0x30, 0x31] := by
  cases i <;> simp [Instr.opcode]

/-- Settles O6: a decoded word has the opcode of an instruction. -/
theorem unassignedOpcodesAreIllegal : Obligations.UnassignedOpcodesAreIllegal := by
  intro c s hop
  refine runCommand_of_undecodable (fun i hi => hop ?_) s
  obtain ⟨-, hfields⟩ := fields_of_decode hi
  rw [← opField_toNat, hfields.op]
  exact opcode_mem i

/-- R49: the opcodes that name no unit. -/
theorem unit_eq_zero {i : Instr} (h : i.opcode.toNat ∈ [0x00, 0x02, 0x31]) : i.unit = 0 := by
  cases i with
  | nop | chainTick _ | resetAll => rfl
  | _ => exact absurd h (by simp [Instr.opcode])

/-- R52: the opcodes that use no SEL. -/
theorem sel_eq_zero {i : Instr} (h : i.opcode.toNat ∉ [0x20, 0x22, 0x23]) : i.sel = 0 := by
  cases i with
  | stageCoeff _ _ _ | setParams _ _ _ _ | setMode _ _ => exact absurd (by simp [Instr.opcode]) h
  | _ => rfl

/-- Settles O7: a decoded word has the UNIT and the SEL of its instruction, 0 where the opcode uses none. -/
theorem nonzeroUnusedFieldsAreIllegal : Obligations.NonzeroUnusedFieldsAreIllegal := by
  intro c s h
  refine runCommand_of_undecodable (fun i hi => ?_) s
  obtain ⟨-, hop, hunit, hsel⟩ := fields_of_decode hi
  rw [← opField_toNat, ← unitField_toNat, ← selField_toNat, hop, hunit, hsel] at h
  rcases h with ⟨hnone, hne⟩ | ⟨hnone, hne⟩
  · exact hne (by rw [unit_eq_zero hnone]; rfl)
  · exact hne (by rw [sel_eq_zero hnone]; rfl)

/-! ### The checks of the meanings -/

/-- No response of the outcome is IllegalCommand. -/
def Legal (o : Res State) : Prop := ∀ t r, o = .next t → t.resp = some r → r.status ≠ .illegalCommand

theorem legal_respond (s : State) : Legal (.next s.respond) := by
  rintro _ _ ⟨⟩ ⟨⟩
  exact nofun

theorem legal_respondSample (s : State) (v : Sample) : Legal (.next (s.respondSample v)) := by
  rintro _ _ ⟨⟩ ⟨⟩
  exact nofun

theorem legal_raise (s : State) {e : Status} (h : e ≠ .illegalCommand) : Legal (.next (s.raise e)) := by
  rintro _ _ ⟨⟩ ⟨⟩
  exact h

/-- An operation, then legal ends. -/
theorem legal_andThen {α : Type} {o : Res α} {k : α → Res State} (h : ∀ a, Legal (k a)) : Legal (andThen o k) := by
  intro t r ht
  obtain ⟨a, -, hk⟩ := andThen_eq_next.mp ht
  exact h a t r hk

/-- The outcome follows the check of a command: legal where it holds, IllegalCommand and no change where it fails. -/
inductive Checked (s : State) : Bool → Res State → Prop
  | legal {o : Res State} (h : Legal o) : Checked s true o
  | illegal : Checked s false (.next (s.raise .illegalCommand))

theorem checked_ite {s : State} {p : Prop} [Decidable p] {o : Res State} (h : Legal o) :
    Checked s (decide p) (if p then o else .next (s.raise .illegalCommand)) := by
  by_cases hp : p
  · rw [decide_eq_true hp, if_pos hp]
    exact .legal h
  · rw [decide_eq_false hp, if_neg hp]
    exact .illegal

theorem Checked.legal_of_true {s : State} {o : Res State} (h : Checked s true o) : Legal o := by
  cases h
  assumption

theorem Checked.eq_of_false {s : State} {o : Res State} (h : Checked s false o) :
    o = .next (s.raise .illegalCommand) := by
  cases h
  rfl

theorem kinds_getElem? (s : State) (n : Nat) : s.kinds[n]? = (s.units[n]?).map Slot.kind := List.getElem?_map

/-- R52: the legal SEL values of STAGE_COEFF on a BIQUAD unit are those that name a coefficient. -/
theorem stageSelLegal_biquad (c : BqCoeffs) (sel : BitVec 4) (v : Sample) :
    stageSelLegal .biquad sel = (stageBq c sel v).isSome := by
  simp only [stageSelLegal, stageBq]
  split
  case h_6 =>
    simp only [imp_false] at *
    exact decide_eq_false (by omega)
  all_goals exact decide_eq_true (by omega)

/-- R52: on an SVF unit likewise. -/
theorem stageSelLegal_svf (c : SvfCoeffs) (sel : BitVec 4) (v : Sample) :
    stageSelLegal .svf sel = (stageSvf c sel v).isSome := by
  simp only [stageSelLegal, stageSvf]
  split
  case h_3 =>
    simp only [imp_false] at *
    exact decide_eq_false (by omega)
  all_goals exact decide_eq_true (by omega)

theorem paramsSelLegal_svf (sel : BitVec 4) : paramsSelLegal .svf sel = decide (sel = 0) :=
  decide_eq_decide.mpr ⟨fun h => BitVec.eq_of_toNat_eq h, fun h => by rw [h]; rfl⟩

theorem legal_setParamsBiquad (u : BitVec 8) (kind : BitVec 4) (fc q : Word) (b : BiquadUnit) (s : State) :
    Legal (.next (setParamsBiquad u kind fc q b s)) := by
  unfold setParamsBiquad
  split
  · split
    · exact legal_respond _
    · exact legal_raise s (by decide)
  · exact legal_raise s (by decide)

theorem legal_setParamsSvf (u : BitVec 8) (fc q : Word) (v : SvfUnit) (s : State) :
    Legal (.next (setParamsSvf u fc q v s)) := by
  unfold setParamsSvf
  split
  · exact legal_respond _
  · exact legal_raise s (by decide)

theorem legal_readSlot (r : RingBuf) (off : Word) (s : State) :
    Legal (if r.cap ≤ argNat off then .next (s.raise .outOfRange)
      else andThen (readAt r (argNat off)) fun v => .next (s.respondSample v)) := by
  split
  · exact legal_raise s (by decide)
  · exact legal_andThen fun v => legal_respondSample s v

/-- R49, R52, R56: every command checks that it is well formed, by the kind of the unit it names. -/
theorem exec_checked (i : Instr) (s : State) : Checked s (i.wellFormed s.kinds) (exec i s) := by
  cases i with
  | nop => exact .legal (legal_respond s)
  | resetAll => exact .legal (legal_respond _)
  | chainTick x => exact .legal (legal_andThen fun _ => legal_respondSample _ _)
  | tick u x =>
    simp only [Instr.wellFormed, unitHasKind, kinds_getElem?, exec, execTick]
    rcases s.units[u.toNat]? with _ | (r | d | b | v)
    case none | some.ring => exact .illegal
    all_goals exact .legal (legal_andThen fun _ => legal_respondSample _ _)
  | lastOut u =>
    simp only [Instr.wellFormed, unitHasKind, kinds_getElem?, exec, execLastOut]
    rcases s.units[u.toNat]? with _ | (r | d | b | v)
    case some.delay => exact .legal (legal_respondSample _ _)
    all_goals exact .illegal
  | rbWrite u x =>
    simp only [Instr.wellFormed, unitHasKind, kinds_getElem?, exec, execRbWrite]
    rcases s.units[u.toNat]? with _ | (r | d | b | v)
    case some.ring | some.delay => exact .legal (legal_andThen fun _ => legal_respond _)
    all_goals exact .illegal
  | rbReadAt u off =>
    simp only [Instr.wellFormed, unitHasKind, kinds_getElem?, exec, execRbReadAt]
    rcases s.units[u.toNat]? with _ | (r | d | b | v)
    case some.ring => exact .legal (legal_readSlot r off s)
    case some.delay => exact .legal (legal_readSlot d.rb off s)
    all_goals exact .illegal
  | setDelay u x =>
    simp only [Instr.wellFormed, unitHasKind, kinds_getElem?, exec, execSetDelay]
    rcases s.units[u.toNat]? with _ | (r | d | b | v)
    case some.delay =>
      refine .legal ?_
      dsimp only
      split
      · exact legal_respond _
      · exact legal_raise s (by decide)
    all_goals exact .illegal
  | stageCoeff u sel x =>
    simp only [Instr.wellFormed, kinds_getElem?, exec, execStageCoeff]
    rcases s.units[u.toNat]? with _ | (r | d | b | v)
    case some.biquad =>
      change Checked s (stageSelLegal .biquad sel) _
      rw [stageSelLegal_biquad b.shadow sel (argSample s x)]
      dsimp only
      cases stageBq b.shadow sel (argSample s x) with
      | none => exact .illegal
      | some c => exact .legal (legal_respond _)
    case some.svf =>
      change Checked s (stageSelLegal .svf sel) _
      rw [stageSelLegal_svf v.shadow sel (argSample s x)]
      dsimp only
      cases stageSvf v.shadow sel (argSample s x) with
      | none => exact .illegal
      | some c => exact .legal (legal_respond _)
    all_goals exact .illegal
  | commit u =>
    simp only [Instr.wellFormed, unitHasKind, kinds_getElem?, exec, execCommit]
    rcases s.units[u.toNat]? with _ | (r | d | b | v)
    case some.biquad | some.svf => exact .legal (legal_respond _)
    all_goals exact .illegal
  | setParams u sel fc q =>
    simp only [Instr.wellFormed, kinds_getElem?, exec, execSetParams]
    rcases s.units[u.toNat]? with _ | (r | d | b | v)
    case some.biquad => exact .legal (legal_setParamsBiquad u sel _ _ b s)
    case some.svf =>
      change Checked s (paramsSelLegal .svf sel) _
      rw [paramsSelLegal_svf]
      exact checked_ite (legal_setParamsSvf u _ _ v s)
    all_goals exact .illegal
  | setMode u sel =>
    simp only [Instr.wellFormed, unitHasKind, kinds_getElem?, exec, execSetMode]
    rcases s.units[u.toNat]? with _ | (r | d | b | v)
    case some.svf => exact checked_ite (legal_respond _)
    all_goals exact .illegal
  | reset u =>
    simp only [Instr.wellFormed, unitHasKind, kinds_getElem?, exec, execReset]
    rcases s.units[u.toNat]? with _ | (r | d | b | v)
    case none => exact .illegal
    all_goals exact .legal (legal_respond _)

/-- Settles O8: where the check fails the outcome is the error. -/
theorem illFormedCommandsAreIllegal : Obligations.IllFormedCommandsAreIllegal := by
  intro i s h
  have hchecked := exec_checked i s
  rw [h] at hchecked
  exact hchecked.eq_of_false

/-- Settles O9: in a sound state every command answers, and where the check holds the answer is legal. -/
theorem wellFormedCommandsComplete : Obligations.WellFormedCommandsComplete := by
  intro i s hok h
  obtain ⟨t, r, ht, -, hr, -⟩ := exec_answers (i := i) hok
  have hchecked := exec_checked i s
  rw [h] at hchecked
  exact ⟨t, r, ht, hr, hchecked.legal_of_true t r ht hr⟩

/-! ### The pseudo-command set_coeffs (R58) -/

/-- Block `t` is block `s` but for unit `u`, which is the BIQUAD unit `b`. -/
structure BiquadAt (s : State) (u : BitVec 8) (b : BiquadUnit) (t : State) : Prop where
  sameBut : SameBut u.toNat s t
  unit : t.units[u.toNat]? = some (.biquad b)

/-- Replacing the unit and responding. -/
theorem BiquadAt.setUnit {s t : State} {u : BitVec 8} {b : BiquadUnit} (h : BiquadAt s u b t) (b' : BiquadUnit) :
    BiquadAt s u b' (t.setUnit u (.biquad b')).respond := by
  obtain ⟨⟨hsfmt, hchain, hports, htaken, htrace, hcount, hothers⟩, hunit⟩ := h
  obtain ⟨hlt, -⟩ := List.getElem?_eq_some_iff.mp hunit
  exact ⟨⟨hsfmt, hchain, hports, htaken, htrace, List.length_set.trans hcount,
    fun j hj => (List.getElem?_set_ne hj.symm).trans (hothers j hj)⟩, List.getElem?_set_self hlt⟩

/-- R74: STAGE_COEFF with a legal SEL. -/
theorem BiquadAt.stageCoeff {s t : State} {u : BitVec 8} {b : BiquadUnit} {sel : BitVec 4} {x : Word} {c : BqCoeffs}
    (h : BiquadAt s u b t) (hc : stageBq b.shadow sel (lowBits s.sfmt x) = some c) :
    ∃ t', exec (.stageCoeff u sel x) t = .next t' ∧ BiquadAt s u { b with shadow := c } t' := by
  refine ⟨_, ?_, h.setUnit { b with shadow := c }⟩
  simp only [exec, execStageCoeff, h.unit, argSample, h.sameBut.sfmt, hc]

/-- R75: COMMIT. -/
theorem BiquadAt.commit {s t : State} {u : BitVec 8} {b : BiquadUnit} (h : BiquadAt s u b t) :
    ∃ t', exec (.commit u) t = .next t' ∧ BiquadAt s u { b with active := b.shadow } t' := by
  refine ⟨_, ?_, h.setUnit { b with active := b.shadow }⟩
  simp only [exec, execCommit, h.unit]

/-- Settles O60: five staged coefficients make the whole shadow bank, and COMMIT copies it. -/
theorem setCoeffsInstallsAllFive : Obligations.SetCoeffsInstallsAllFive := by
  intro s u b b0 b1 b2 a1 a2 hs
  have h : BiquadAt s u b s := ⟨⟨rfl, rfl, rfl, rfl, rfl, rfl, fun _ _ => rfl⟩, hs⟩
  obtain ⟨s0, run0, h0⟩ := h.stageCoeff (sel := 0) (x := b0) rfl
  obtain ⟨s1, run1, h1⟩ := h0.stageCoeff (sel := 1) (x := b1) rfl
  obtain ⟨s2, run2, h2⟩ := h1.stageCoeff (sel := 2) (x := b2) rfl
  obtain ⟨s3, run3, h3⟩ := h2.stageCoeff (sel := 3) (x := a1) rfl
  obtain ⟨s4, run4, h4⟩ := h3.stageCoeff (sel := 4) (x := a2) rfl
  obtain ⟨t, run5, h5⟩ := h4.commit
  refine ⟨t, _, ?_, h5.unit, rfl, h5.sameBut⟩
  simp only [setCoeffs, List.foldl_cons, List.foldl_nil, andThen_next, run0, run1, run2, run3, run4, run5]

end Sys2Proof.Machine
end

section
/-! PROOF. The ring buffer's writes (spec/40_ring_buffer.md R59 to R64): what `WriteAdv` stores and keeps, where every
offset lies after it, and what RB_WRITE and a run of writes make of it. -/

namespace Sys2Proof.Machine

/-- R21, R23: the cursor lies below the capacity, its register holds every slot index, and the slots are in canonical form. -/
structure RingWf (r : RingBuf) : Prop where
  cap_le : r.cap ≤ 2 ^ 32
  cells : cellsWf r.cap 0 r.buf = true
  cur_lt : r.cur.toNat < r.cap

/-- R61: ring buffer `r'` is `r` with `v` stored at the cursor and the cursor one further, modulo the capacity. -/
structure Wrote (v : Sample) (r r' : RingBuf) : Prop where
  cap : r'.cap = r.cap
  cur : r'.cur.toNat = (r.cur.toNat + 1) % r.cap
  here : cellsRead r.cur.toNat r'.buf = v
  others : ∀ i, i ≠ r.cur.toNat → cellsRead i r'.buf = cellsRead i r.buf

/-- R61: a write answers, and it keeps the ring buffer well formed. -/
theorem RingWf.writeAdv {r : RingBuf} (h : RingWf r) (v : Sample) :
    ∃ r', writeAdv r v = .next r' ∧ Wrote v r r' ∧ RingWf r' := by
  obtain ⟨hcap, hcells, hcur⟩ := h
  have hadv := cursor_advance hcap hcur
  refine ⟨_, writeAdv_eq r v hcur,
    ⟨rfl, hadv, cellsRead_write_same hcells, fun i hi => cellsRead_write_other hi⟩,
    ⟨hcap, cellsWf_write hcells (Nat.zero_le _) hcur, ?_⟩⟩
  exact hadv.trans_lt (Nat.mod_lt _ (by omega))

/-- Settles O28: the unit is replaced by itself with the written ring buffer. -/
theorem rbWriteStoresAndAdvances : Obligations.RbWriteStoresAndAdvances := by
  intro s u v sl r hs hr hcap hcells hcur
  obtain ⟨r', hw, hwrote, -⟩ := RingWf.writeAdv ⟨hcap, hcells, hcur⟩ (argSample s v)
  have hexec : exec (.rbWrite u v) s = .next (s.setUnit u (sl.withRingBuf r')).respond := by
    simp only [exec, execRbWrite, hs, hr, hw, andThen_next]
  obtain ⟨hlt, -⟩ := List.getElem?_eq_some_iff.mp hs
  exact ⟨_, r', hexec, rfl, List.getElem?_set_self hlt, hwrote.cap, hwrote.cur, hwrote.here, hwrote.others,
    (unitEffect_set hs (withRingBuf_cfg hr hwrote.cap)).sameBut, rfl⟩

/-! ### Offsets after a write (R60, R64) -/

/-- R60: no offset but `C - 1` lies at the cursor. -/
theorem slotOf_ne_cur {r : RingBuf} {j : Nat} (hcur : r.cur.toNat < r.cap) (hj : j + 1 < r.cap) :
    slotOf r j ≠ r.cur.toNat := by
  rw [slotOf_eq r (by omega)]
  by_cases hwrap : r.cur.toNat + (r.cap - 1 - j) < r.cap
  · rw [Nat.mod_eq_of_lt hwrap]
    omega
  · rw [Nat.mod_eq_sub_mod (by omega), Nat.mod_eq_of_lt (by omega)]
    omega

/-- R60: after a write offset 0 lies where the cursor was. -/
theorem Wrote.slotOf_zero {v : Sample} {r r' : RingBuf} (hw : Wrote v r r') (hcur : r.cur.toNat < r.cap) :
    slotOf r' 0 = r.cur.toNat := by
  rw [slotOf_eq r' (by rw [hw.cap]; omega), hw.cur, hw.cap, Nat.mod_add_mod,
    show r.cur.toNat + 1 + (r.cap - 1 - 0) = r.cur.toNat + r.cap by omega, Nat.add_mod_right, Nat.mod_eq_of_lt hcur]

/-- R60: after a write offset `j + 1` lies where offset `j` did. -/
theorem Wrote.slotOf_succ {v : Sample} {r r' : RingBuf} (hw : Wrote v r r') {j : Nat} (hj : j + 1 < r.cap) :
    slotOf r' (j + 1) = slotOf r j := by
  rw [slotOf_eq r' (by rwa [hw.cap]), slotOf_eq r (by omega), hw.cur, hw.cap, Nat.mod_add_mod,
    show r.cur.toNat + 1 + (r.cap - 1 - (j + 1)) = r.cur.toNat + (r.cap - 1 - j) by omega]

theorem readAt_slotOf {r : RingBuf} {off : Nat} (h : off < r.cap) :
    readAt r off = .next (cellsRead (slotOf r off) r.buf) := by
  rw [readAt_eq r h, slotOf_eq r h]

/-- R64 item 1. -/
theorem Wrote.readAt_zero {v : Sample} {r r' : RingBuf} (hw : Wrote v r r') (hcur : r.cur.toNat < r.cap) :
    readAt r' 0 = .next v := by
  rw [readAt_slotOf (by rw [hw.cap]; omega), hw.slotOf_zero hcur, hw.here]

/-- R64 item 2. -/
theorem Wrote.readAt_succ {v : Sample} {r r' : RingBuf} (hw : Wrote v r r') (hcur : r.cur.toNat < r.cap) {j : Nat}
    (hj : j + 1 < r.cap) : readAt r' (j + 1) = readAt r j := by
  rw [readAt_slotOf (by rwa [hw.cap]), readAt_slotOf (by omega), hw.slotOf_succ hj, hw.others _ (slotOf_ne_cur hcur hj)]

/-- Settles O30: offset 0 lies where the cursor was, and no shifted offset does. -/
theorem writeShiftsOffsetsByOne : Obligations.WriteShiftsOffsetsByOne := by
  intro r v hcap hcells hcur
  obtain ⟨r', hw, hwrote, -⟩ := RingWf.writeAdv ⟨hcap, hcells, hcur⟩ v
  refine ⟨r', hw, hwrote.readAt_zero hcur, fun j hj hjc => ?_⟩
  obtain ⟨k, rfl⟩ := Nat.exists_eq_add_of_le' hj
  exact hwrote.readAt_succ hcur hjc

/-! ### A run of writes (R64 items 3 to 5) -/

/-- R64: ring buffer `r'` is `r` after the writes of `vs`, and the last of them are at their distance from the newest. -/
structure WroteAll (vs : List Sample) (r r' : RingBuf) : Prop where
  cap : r'.cap = r.cap
  cur : r'.cur.toNat = (r.cur.toNat + vs.length) % r.cap
  newest : ∀ j v, j < r.cap → j < vs.length → vs[vs.length - 1 - j]? = some v → readAt r' j = .next v

/-- A run ends with the write of its last sample. -/
theorem writeAll_concat (vs : List Sample) (v : Sample) (r : RingBuf) :
    writeAll (vs ++ [v]) r = andThen (writeAll vs r) fun r' => writeAdv r' v := by
  induction vs generalizing r with
  | nil =>
    show andThen (writeAdv r v) Host.Outcome.next = writeAdv r v
    cases writeAdv r v <;> rfl
  | cons w ws ih =>
    simp only [List.cons_append, writeAll]
    cases writeAdv r w with
    | next r1 => exact ih r1
    | fault e => rfl
    | refused e => rfl

/-- One more write: it is the newest sample, and each sample before it is one offset further. -/
theorem WroteAll.concat {vs : List Sample} {v : Sample} {r r1 r2 : RingBuf} (h : WroteAll vs r r1) (hr1 : RingWf r1)
    (hw : Wrote v r1 r2) : WroteAll (vs ++ [v]) r r2 := by
  obtain ⟨hcap, hcur, hnewest⟩ := h
  refine ⟨hw.cap.trans hcap, ?_, fun j w hjc hjl hget => ?_⟩
  · rw [hw.cur, hcur, hcap, Nat.mod_add_mod, List.length_append, List.length_singleton, Nat.add_assoc]
  · rw [List.length_append, List.length_singleton] at hjl hget
    cases j with
    | zero =>
      obtain rfl : v = w := by simpa using hget
      exact hw.readAt_zero hr1.cur_lt
    | succ k =>
      rw [hw.readAt_succ hr1.cur_lt (by rwa [hcap])]
      rw [show vs.length + 1 - 1 - (k + 1) = vs.length - 1 - k by omega, List.getElem?_append_left (by omega)] at hget
      exact hnewest k w (by omega) (by omega) hget

/-- R64: a run of writes answers, and it keeps the ring buffer well formed. -/
theorem RingWf.writeAll {r : RingBuf} (h : RingWf r) (vs : List Sample) :
    ∃ r', writeAll vs r = .next r' ∧ WroteAll vs r r' ∧ RingWf r' := by
  induction vs using List.reverseRecOn with
  | nil => exact ⟨r, rfl, ⟨rfl, (Nat.mod_eq_of_lt h.cur_lt).symm, fun j _ _ hj => absurd hj (Nat.not_lt_zero j)⟩, h⟩
  | append_singleton vs v ih =>
    obtain ⟨r1, hrun, hall, hr1⟩ := ih
    obtain ⟨r2, hw, hwrote, hr2⟩ := hr1.writeAdv v
    refine ⟨r2, ?_, hall.concat hr1 hwrote, hr2⟩
    rw [writeAll_concat, hrun, andThen_next, hw]

/-- Settles O31, by induction on the run at its end: one more write moves each earlier sample one offset on. -/
theorem lastWritesAreReadBack : Obligations.LastWritesAreReadBack := by
  intro vs r hcap hcells hcur
  obtain ⟨r', hrun, hall, -⟩ := RingWf.writeAll ⟨hcap, hcells, hcur⟩ vs
  exact ⟨r', hrun, hall.cap, hall.cur, hall.newest⟩

end Sys2Proof.Machine
end

section
/-! PROOF. The delay line (spec/41_delay_line.md R65 to R73): the length SET_DELAY stores, what a TICK of a DELAY unit
writes and answers, and the stream that an integer delay line replays. -/

namespace Sys2Proof.Machine

/-! ### SET_DELAY -/

section
variable {s : State} {u : BitVec 8} {x : Word} {dl : DelayUnit} (hs : s.units[u.toNat]? = some (.delay dl))
include hs

/-- R67: SET_DELAY stores both parts of a valid length. -/
theorem execSetDelay_valid (h : delayValid s.sfmt dl.rb.cap (lowBits s.sfmt x) = true) :
    exec (.setDelay u x) s =
      .next (s.setUnit u (.delay { dl with dlyInt := delayInt s.sfmt (lowBits s.sfmt x),
                                           dlyFrac := delayFrac s.sfmt (lowBits s.sfmt x) })).respond := by
  simp only [exec, execSetDelay, hs, argSample, h, if_true]

/-- R67: SET_DELAY refuses any other length. -/
theorem execSetDelay_invalid (h : ¬ delayValid s.sfmt dl.rb.cap (lowBits s.sfmt x) = true) :
    exec (.setDelay u x) s = .next (s.raise .invalidParameter) := by
  simp only [exec, execSetDelay, hs, argSample, h, Bool.false_eq_true, if_false]

end

/-- Settles O32: the domain is `delayValid`, and the parts stored are the exact integer part and fraction. -/
theorem setDelaySplitsTheLength : Obligations.SetDelaySplitsTheLength := by
  intro s u x dl hs _ hcap
  by_cases hvalid : delayValid s.sfmt dl.rb.cap (lowBits s.sfmt x) = true
  · rw [if_pos (delayValid_iff.mp hvalid)]
    obtain ⟨-, hsign, hfin, -⟩ := delayFrac_spec s.sfmt (lowBits s.sfmt x)
    obtain ⟨hlt, -⟩ := List.getElem?_eq_some_iff.mp hs
    have htaps := delayTaps_lt hcap hvalid
    simp only [← value_eq_zero_iff] at htaps
    have hexec := execSetDelay_valid hs hvalid
    exact ⟨_, _, _, hexec, rfl, List.getElem?_set_self hlt,
      delayInt_add_delayFrac hcap hvalid, hfin, hsign, value_delayFrac_lt _ _, Nat.le_sub_one_of_lt htaps,
      oneUnitCommandsTouchOneUnit _ _ _ Instr.noConfusion (fun _ => Instr.noConfusion) hexec, rfl⟩
  · rw [if_neg (mt delayValid_iff.mpr hvalid)]
    exact execSetDelay_invalid hs hvalid

/-! ### TICK on a DELAY unit (R68 to R70) -/

/-- R70: with no fraction the output is the tap itself. -/
theorem delayOutput_integer {f : Sfmt} {r : RingBuf} {k : Nat} {frac a : Sample} (n : Nat)
    (hfrac : isZero f frac = true) (ha : readAt r k = .next a) : delayOutput f n r k frac = .next a := by
  rw [delayOutput, ha, andThen_next, if_pos hfrac]

/-- R69: with a fraction the output is interpolated between two taps. -/
theorem delayOutput_fractional {f : Sfmt} {r : RingBuf} {k : Nat} {frac a b : Sample} (n : Nat)
    (hfrac : isZero f frac = false) (ha : readAt r k = .next a) (hb : readAt r (k + 1) = .next b) :
    delayOutput f n r k frac = .next (interp f n a b frac) := by
  rw [delayOutput, ha, andThen_next, if_neg (by simp [hfrac]), hb, andThen_next]

/-- R60, R64: the tap at `k` after a write is the sample written, or lies `k` slots before the slot written. -/
theorem Wrote.readAt_tap {v : Sample} {r r' : RingBuf} (hw : Wrote v r r') (hcur : r.cur.toNat < r.cap) {k : Nat}
    (hk : k < r.cap) :
    readAt r' k = .next (if k = 0 then v else cellsRead ((r.cur.toNat + (r.cap - k)) % r.cap) r.buf) := by
  cases k with
  | zero => exact hw.readAt_zero hcur
  | succ j =>
    rw [if_neg (Nat.succ_ne_zero j), hw.readAt_succ hcur hk, readAt_eq r (by omega), Nat.sub_sub, Nat.add_comm 1 j]

/-- R68: block `t` is block `s` after a TICK of its DELAY unit `d` left the ring buffer `r` and answered `y`. -/
structure DelayTicked (s : State) (u : BitVec 8) (d : DelayUnit) (r : RingBuf) (y : Sample) (t : State) : Prop where
  resp : t.resp = some { status := .ok, data := lowBits s.sfmt y }
  unit : t.units[u.toNat]? = some (.delay { d with rb := r, lastOut := y })
  sameBut : SameBut u.toNat s t

/-- R68, R91: TICK on a DELAY unit answers what is read after the write. -/
theorem execTick_delay {s : State} {u : BitVec 8} {x : Word} {d : DelayUnit} {r : RingBuf} {y : Sample}
    (hs : s.units[u.toNat]? = some (.delay d)) (hw : writeAdv d.rb (lowBits s.sfmt x) = .next r)
    (hy : delayOutput s.sfmt s.draws r d.dlyInt.toNat d.dlyFrac = .next y) :
    ∃ t, exec (.tick u x) s = .next t ∧ DelayTicked s u d r y t := by
  have htick : s.tickUnit u.toNat (argSample s x) =
      .next ({ s with units := s.units.set u.toNat (.delay { d with rb := r, lastOut := y }),
                      draws := s.draws + tickDraws (.delay d) }, y) := by
    simp only [State.tickUnit, slotTick, delayTick, argSample, hs, hw, hy, andThen_next]
  have hexec : exec (.tick u x) s =
      andThen (s.tickUnit u.toNat (argSample s x)) fun r => .next (r.1.respondSample r.2) := by
    simp only [exec, execTick, hs]
    rfl
  rw [htick, andThen_next] at hexec
  obtain ⟨hlt, -⟩ := List.getElem?_eq_some_iff.mp hs
  exact ⟨_, hexec, rfl, List.getElem?_set_self hlt,
    oneUnitCommandsTouchOneUnit _ _ _ Instr.noConfusion (fun _ => Instr.noConfusion) hexec⟩

/-- Settles O33: the one tap that is read is the output. -/
theorem integerDelayTickCopiesTheTap : Obligations.IntegerDelayTickCopiesTheTap := by
  intro s u x d hs hcap hcells hcur hfrac hk
  obtain ⟨r, hw, hwrote, -⟩ := RingWf.writeAdv ⟨hcap, hcells, hcur⟩ (lowBits s.sfmt x)
  have hy := delayOutput_integer s.draws hfrac (hwrote.readAt_tap hcur hk)
  obtain ⟨t, hexec, hticked⟩ := execTick_delay hs hw hy
  exact ⟨t, r, _, hexec, rfl, hticked.resp, hticked.unit, hw, hticked.sameBut⟩

/-- Settles O34: two taps are read, and the second is no sample of this tick. -/
theorem fractionalDelayTickInterpolates : Obligations.FractionalDelayTickInterpolates := by
  intro s u x d hs hcap hcells hcur hfrac hk
  obtain ⟨r, hw, hwrote, -⟩ := RingWf.writeAdv ⟨hcap, hcells, hcur⟩ (lowBits s.sfmt x)
  have hb := hwrote.readAt_tap hcur hk
  rw [if_neg (Nat.succ_ne_zero _)] at hb
  have hy := delayOutput_fractional s.draws hfrac (hwrote.readAt_tap hcur (Nat.lt_of_succ_lt hk)) hb
  obtain ⟨t, hexec, hticked⟩ := execTick_delay hs hw hy
  exact ⟨t, r, _, _, hexec, rfl, rfl, hticked.resp, hticked.unit, hw, hticked.sameBut⟩

/-! ### The stream of an integer delay line (R73)

The samples a line has taken so far, newest first and followed by zeros, are what its taps answer. A TICK puts one more
sample in front and answers number `DLY_INT` of the longer list. -/

/-- Unit `u` is the DELAY unit `d`, with an integer delay, and its taps answer the samples of `past`, then zeros. -/
structure IntegerLine (u : BitVec 8) (past : List Sample) (d : DelayUnit) (s : State) : Prop where
  unit : s.units[u.toNat]? = some (.delay d)
  ring : RingWf d.rb
  integer : isZero s.sfmt d.dlyFrac = true
  tap_lt : d.dlyInt.toNat < d.rb.cap
  taps : ∀ j, j < d.rb.cap → readAt d.rb j = .next (past.getD j 0)

/-- R64: one more write puts the sample in front of those the taps answered. -/
theorem Wrote.taps_cons {v : Sample} {r r' : RingBuf} {past : List Sample} (hw : Wrote v r r')
    (hcur : r.cur.toNat < r.cap) (h : ∀ j, j < r.cap → readAt r j = .next (past.getD j 0)) (j : Nat) (hj : j < r.cap) :
    readAt r' j = .next ((v :: past).getD j 0) := by
  cases j with
  | zero => exact hw.readAt_zero hcur
  | succ i => rw [hw.readAt_succ hcur hj, h i (by omega), List.getD_cons_succ]

/-- R68, R70: a TICK of an integer delay line. -/
theorem IntegerLine.tick {u : BitVec 8} {past : List Sample} {d : DelayUnit} {s : State} (h : IntegerLine u past d s)
    (x : Word) :
    ∃ r t, exec (.tick u x) s = .next t ∧
      DelayTicked s u d r ((lowBits s.sfmt x :: past).getD d.dlyInt.toNat 0) t ∧
      IntegerLine u (lowBits s.sfmt x :: past)
        { d with rb := r, lastOut := (lowBits s.sfmt x :: past).getD d.dlyInt.toNat 0 } t := by
  obtain ⟨hunit, hring, hfrac, hk, htaps⟩ := h
  obtain ⟨r, hw, hwrote, hring'⟩ := hring.writeAdv (lowBits s.sfmt x)
  have htaps' := hwrote.taps_cons hring.cur_lt htaps
  obtain ⟨t, hexec, hticked⟩ := execTick_delay hunit hw (delayOutput_integer s.draws hfrac (htaps' _ hk))
  refine ⟨r, t, hexec, hticked, hticked.unit, hring', ?_, ?_, ?_⟩
  · rwa [hticked.sameBut.sfmt]
  · rwa [hwrote.cap]
  · rwa [hwrote.cap]

/-- R73: in a run of TICKs output `n` is number `DLY_INT` of the `n + 1` inputs so far, newest first, and the past. -/
theorem IntegerLine.tickRun {u : BitVec 8} {past : List Sample} {d : DelayUnit} {s : State}
    (h : IntegerLine u past d s) (xs : List Word) :
    ∃ ys t, tickRun u xs s = .next (ys, t) ∧ ys.length = xs.length ∧
      ∀ n, n < xs.length →
        ys[n]? = some (lowBits s.sfmt
          ((((xs.take (n + 1)).map (lowBits s.sfmt)).reverse ++ past).getD d.dlyInt.toNat 0)) := by
  induction xs generalizing past d s with
  | nil => exact ⟨[], s, rfl, rfl, fun n hn => absurd hn (Nat.not_lt_zero n)⟩
  | cons x xs ih =>
    obtain ⟨r, t, hexec, hticked, hline⟩ := h.tick x
    obtain ⟨ys, w, hrun, hlen, hys⟩ := ih hline
    rw [hticked.sameBut.sfmt] at hys
    refine ⟨_ :: ys, w, by rw [Machine.tickRun, hexec, andThen_next, hrun, andThen_next], congrArg (· + 1) hlen, ?_⟩
    intro n hn
    cases n with
    | zero => simp [hticked.resp]
    | succ n => simpa using hys n (by simpa using hn)

/-- The newest-first list of the first `n + 1` inputs has no number `k` above `n`. -/
theorem getD_reverse_take_of_lt {α : Type} (xs : List α) {n k : Nat} (h : n < k) (z : α) :
    ((xs.take (n + 1)).reverse).getD k z = z := by
  have hlen : (xs.take (n + 1)).reverse.length ≤ k := by
    rw [List.length_reverse, List.length_take]
    omega
  exact List.getD_eq_default _ _ hlen

/-- Number `k` of the newest-first list of the first `n + k + 1` inputs is input `n`. -/
theorem getD_reverse_take_add {α : Type} {xs : List α} {n k : Nat} (h : n + k < xs.length) (z : α) :
    ((xs.take (n + k + 1)).reverse).getD k z = xs[n] := by
  have hlen : (xs.take (n + k + 1)).length = n + k + 1 := List.length_take_of_le h
  rw [List.getD_eq_getElem _ _ (by rw [List.length_reverse, hlen]; omega), List.getElem_reverse, List.getElem_take]
  congr 1
  omega

theorem lowBits_zero (f : Sfmt) : lowBits f 0 = 0 := by cases f <;> rfl

/-- R73: taps of an all-zero buffer answer zeros. -/
theorem readAt_of_buf_nil {r : RingBuf} (h : r.buf = []) {j : Nat} (hj : j < r.cap) :
    readAt r j = .next (([] : List Sample).getD j 0) := by
  rw [readAt_slotOf hj, h]
  rfl

/-- Settles O36: output `n` is `+0` while fewer than `DLY_INT + 1` inputs came in, then the input `DLY_INT` ticks ago. -/
theorem integerDelayReplaysItsInput : Obligations.IntegerDelayReplaysItsInput := by
  intro s u d xs hs _ hcap hbuf hcur hfrac hk
  have hring : RingWf d.rb := ⟨hcap, by rw [hbuf]; rfl, hcur⟩
  have hline : IntegerLine u [] d s := ⟨hs, hring, hfrac, hk, fun _ => readAt_of_buf_nil hbuf⟩
  obtain ⟨ys, t, hrun, hlen, hys⟩ := hline.tickRun xs
  simp only [List.append_nil, List.map_take] at hys
  refine ⟨ys, t, hrun, hlen, fun n x hx => ?_⟩
  obtain ⟨hn, rfl⟩ := List.getElem?_eq_some_iff.mp hx
  constructor
  · intro hbefore
    rw [hys n hn, getD_reverse_take_of_lt _ hbefore, lowBits_zero]
  · split
    · next hin =>
      rw [hys _ hin, getD_reverse_take_add (by rwa [List.length_map]), List.getElem_map,
        lowBits_of_fits (fits_lowBits _ _)]
    · next hout => exact List.getElem?_eq_none (by omega)

end Sys2Proof.Machine
end

section
/-! PROOF. The filters (spec/42_filters.md R74 to R87): what the coefficient commands, SET_PARAMS and SET_MODE write,
the commands that keep the state registers, and the ticks of BIQUAD and SVF units. -/

namespace Sys2Proof.Machine

/-! ### The unit a command replaces -/

/-- R15, R20: block `t` is block `s` with unit `u` replaced by `sl` and the response OK, 0. -/
structure Replaced (u : BitVec 8) (sl : Slot) (s t : State) : Prop where
  resp : t.resp = some { status := .ok, data := 0 }
  unit : t.units[u.toNat]? = some sl
  sameBut : SameBut u.toNat s t
  draws : t.draws = s.draws

theorem replaced_setUnit {s : State} {u : BitVec 8} {sl sl' : Slot} (hs : s.units[u.toNat]? = some sl)
    (hcfg : sl'.cfg = sl.cfg) : Replaced u sl' s (s.setUnit u sl').respond := by
  obtain ⟨hlt, -⟩ := List.getElem?_eq_some_iff.mp hs
  exact ⟨rfl, List.getElem?_set_self hlt, (unitEffect_set hs hcfg).sameBut, rfl⟩

/-- Replacing a unit again by the same one changes nothing more. -/
theorem setUnit_respond_twice (s : State) (u : BitVec 8) (sl : Slot) :
    ((s.setUnit u sl).respond.setUnit u sl).respond = (s.setUnit u sl).respond := by
  simp [State.setUnit, State.respond]

/-! ### STAGE_COEFF and COMMIT (R74, R75) -/

/-- R52, R74: a legal SEL replaces the coefficient of that number. -/
theorem stageBq_eq_some (c : BqCoeffs) {sel : BitVec 4} (v : Sample) (h : sel.toNat ≤ 4) :
    ∃ c', stageBq c sel v = some c' ∧ bqList c' = (bqList c).set sel.toNat v := by
  unfold stageBq
  split
  case h_6 => simp only [imp_false] at *; omega
  all_goals next hsel => exact ⟨_, rfl, by rw [hsel]; rfl⟩

/-- R52, R74: on an SVF unit likewise. -/
theorem stageSvf_eq_some (c : SvfCoeffs) {sel : BitVec 4} (v : Sample) (h : sel.toNat ≤ 1) :
    ∃ c', stageSvf c sel v = some c' ∧ svfList c' = (svfList c).set sel.toNat v := by
  unfold stageSvf
  split
  case h_3 => simp only [imp_false] at *; omega
  all_goals next hsel => exact ⟨_, rfl, by rw [hsel]; rfl⟩

/-- Settles O37: a legal SEL names a coefficient of the shadow bank. -/
theorem stageCoeffWritesTheShadowBank : Obligations.StageCoeffWritesTheShadowBank := by
  intro s u sel x
  constructor
  · intro b hs hsel
    obtain ⟨c, hc, hlist⟩ := stageBq_eq_some b.shadow (lowBits s.sfmt x) hsel
    have hexec : exec (.stageCoeff u sel x) s = .next (s.setUnit u (.biquad { b with shadow := c })).respond := by
      simp only [exec, execStageCoeff, hs, argSample, hc]
    obtain ⟨hresp, hunit, hsame, hdraws⟩ := replaced_setUnit (sl' := .biquad { b with shadow := c }) hs rfl
    exact ⟨_, c, hexec, hresp, hunit, hlist, hsame, hdraws⟩
  · intro v hs hsel
    obtain ⟨c, hc, hlist⟩ := stageSvf_eq_some v.shadow (lowBits s.sfmt x) hsel
    have hexec : exec (.stageCoeff u sel x) s = .next (s.setUnit u (.svf { v with shadow := c })).respond := by
      simp only [exec, execStageCoeff, hs, argSample, hc]
    obtain ⟨hresp, hunit, hsame, hdraws⟩ := replaced_setUnit (sl' := .svf { v with shadow := c }) hs rfl
    exact ⟨_, c, hexec, hresp, hunit, hlist, hsame, hdraws⟩

/-- Settles O38: on either kind of filter the unit is replaced by itself with the shadow bank active. -/
theorem commitCopiesTheShadowBank : Obligations.CommitCopiesTheShadowBank := by
  intro s u
  constructor
  · intro b hs
    have hexec : exec (.commit u) s = .next (s.setUnit u (.biquad { b with active := b.shadow })).respond := by
      simp only [exec, execCommit, hs]
    obtain ⟨hresp, hunit, hsame, hdraws⟩ := replaced_setUnit (sl' := .biquad { b with active := b.shadow }) hs rfl
    exact ⟨_, hexec, hresp, hunit, hsame, hdraws⟩
  · intro v hs
    have hexec : exec (.commit u) s = .next (s.setUnit u (.svf { v with active := v.shadow })).respond := by
      simp only [exec, execCommit, hs]
    obtain ⟨hresp, hunit, hsame, hdraws⟩ := replaced_setUnit (sl' := .svf { v with active := v.shadow }) hs rfl
    exact ⟨_, hexec, hresp, hunit, hsame, hdraws⟩

/-! ### SET_PARAMS (R76 to R81) -/

/-- R76: the domain of the design parameters on real values. -/
theorem paramsValid_iff {fs fc q : Word} (hfs : isFinite .binary64 fs = true) :
    paramsValid fs fc q = true ↔
      isFinite .binary64 fc = true ∧ isFinite .binary64 q = true ∧ 0 < value .binary64 fc ∧
        2 * value .binary64 fc < value .binary64 fs ∧ 0 < value .binary64 q := by
  have hpos : ∀ x, positive64 x = true ↔ isFinite .binary64 x = true ∧ 0 < value .binary64 x := fun _ => rateValid_iff
  simp only [paramsValid, Bool.and_eq_true, decide_eq_true_eq, hpos]
  constructor
  · rintro ⟨⟨⟨⟨hfc, hfc0⟩, hq, hq0⟩, -⟩, hlt⟩
    exact ⟨hfc, hq, hfc0, hlt, hq0⟩
  · rintro ⟨hfc, hq, hfc0, hlt, hq0⟩
    exact ⟨⟨⟨⟨hfc, hfc0⟩, hq, hq0⟩, hfs⟩, hlt⟩

/-- R77, R79: the BIQUAD unit with the rounded design `r` in both banks. -/
def BiquadUnit.withDesign (b : BiquadUnit) (f : Sfmt) (kind : BitVec 4) (fc q : Word) (r : BqCoeffs) : BiquadUnit :=
  { b with active := roundBq f kind fc q b.fs r, shadow := roundBq f kind fc q b.fs r }

/-- R78, R79: the SVF unit with the rounded design in both banks. -/
def SvfUnit.withDesign (v : SvfUnit) (f : Sfmt) (fc q : Word) : SvfUnit :=
  { v with active := roundSvf f fc q v.fs (Config.designSvf fc q v.fs),
           shadow := roundSvf f fc q v.fs (Config.designSvf fc q v.fs) }

section
variable {s : State} {u : BitVec 8} {kind : BitVec 4} {fc q : Word} {b : BiquadUnit}
  (hs : s.units[u.toNat]? = some (.biquad b))
include hs

/-- R77: SET_PARAMS installs a supported design of valid parameters. -/
theorem execSetParams_biquad {r : BqCoeffs} (hvalid : paramsValid b.fs fc q = true)
    (hr : Config.designBq kind fc q b.fs = some r) :
    exec (.setParams u kind fc q) s = .next (s.setUnit u (.biquad (b.withDesign s.sfmt kind fc q r))).respond := by
  simp only [exec, execSetParams, hs, argDouble, setParamsBiquad, hvalid, if_true, hr, BiquadUnit.withDesign]

/-- R77: SET_PARAMS refuses invalid parameters. -/
theorem execSetParams_biquad_invalid (hvalid : ¬ paramsValid b.fs fc q = true) :
    exec (.setParams u kind fc q) s = .next (s.raise .invalidParameter) := by
  simp only [exec, execSetParams, hs, argDouble, setParamsBiquad, hvalid, Bool.false_eq_true, if_false]

/-- R77: SET_PARAMS refuses a kind without a design. -/
theorem execSetParams_biquad_unsupported (hr : Config.designBq kind fc q b.fs = none) :
    exec (.setParams u kind fc q) s = .next (s.raise .invalidParameter) := by
  simp only [exec, execSetParams, hs, argDouble, setParamsBiquad, hr, ite_self]

end

section
variable {s : State} {u : BitVec 8} {fc q : Word} {v : SvfUnit} (hs : s.units[u.toNat]? = some (.svf v))
include hs

/-- R78: SET_PARAMS installs the design of valid parameters. -/
theorem execSetParams_svf (hvalid : paramsValid v.fs fc q = true) :
    exec (.setParams u 0 fc q) s = .next (s.setUnit u (.svf (v.withDesign s.sfmt fc q))).respond := by
  simp only [exec, execSetParams, hs, argDouble, setParamsSvf, hvalid, if_true, SvfUnit.withDesign]

/-- R78: SET_PARAMS refuses invalid parameters. -/
theorem execSetParams_svf_invalid (hvalid : ¬ paramsValid v.fs fc q = true) :
    exec (.setParams u 0 fc q) s = .next (s.raise .invalidParameter) := by
  simp only [exec, execSetParams, hs, argDouble, setParamsSvf, hvalid, if_true, Bool.false_eq_true, if_false]

end

/-- Settles O39: the domain is `paramsValid`, and inside it the design function decides. -/
theorem setParamsInstallsTheBiquadDesign : Obligations.SetParamsInstallsTheBiquadDesign := by
  intro s u kind fc q b hs hfs
  by_cases hvalid : paramsValid b.fs fc q = true
  · rw [if_pos ((paramsValid_iff hfs).mp hvalid)]
    cases hr : Config.designBq kind fc q b.fs with
    | none => exact execSetParams_biquad_unsupported hs hr
    | some r =>
      obtain ⟨hresp, hunit, hsame, hdraws⟩ :=
        replaced_setUnit (sl' := .biquad (b.withDesign s.sfmt kind fc q r)) hs rfl
      exact ⟨_, _, execSetParams_biquad hs hvalid hr, hresp, hunit, rfl, hsame, hdraws⟩
  · rw [if_neg (mt (paramsValid_iff hfs).mpr hvalid)]
    exact execSetParams_biquad_invalid hs hvalid

/-- Settles O40: the domain is `paramsValid`. -/
theorem setParamsInstallsTheSvfDesign : Obligations.SetParamsInstallsTheSvfDesign := by
  intro s u fc q v hs hfs
  by_cases hvalid : paramsValid v.fs fc q = true
  · rw [if_pos ((paramsValid_iff hfs).mp hvalid)]
    obtain ⟨hresp, hunit, hsame, hdraws⟩ := replaced_setUnit (sl' := .svf (v.withDesign s.sfmt fc q)) hs rfl
    exact ⟨_, _, execSetParams_svf hs hvalid, hresp, hunit, rfl, hsame, hdraws⟩
  · rw [if_neg (mt (paramsValid_iff hfs).mpr hvalid)]
    exact execSetParams_svf_invalid hs hvalid

/-- What SET_PARAMS can do: raise an error, or install the design of a BIQUAD or an SVF unit. -/
theorem execSetParams_cases (u : BitVec 8) (sel : BitVec 4) (fc q : Word) (s : State) :
    (∃ e, exec (.setParams u sel fc q) s = .next (s.raise e)) ∨
    (∃ b r, s.units[u.toNat]? = some (.biquad b) ∧ paramsValid b.fs fc q = true ∧
      Config.designBq sel fc q b.fs = some r) ∨
    ∃ v, s.units[u.toNat]? = some (.svf v) ∧ sel = 0 ∧ paramsValid v.fs fc q = true := by
  by_cases hwf : (Instr.setParams u sel fc q).wellFormed s.kinds = true
  case neg => exact .inl ⟨_, illFormedCommandsAreIllegal _ s (Bool.eq_false_iff.mpr hwf)⟩
  simp only [Instr.wellFormed, kinds_getElem?] at hwf
  rcases hs : s.units[u.toNat]? with _ | (r | d | b | v) <;> rw [hs] at hwf
  case none | some.ring | some.delay => cases hwf
  case some.biquad =>
    by_cases hvalid : paramsValid b.fs fc q = true
    · cases hr : Config.designBq sel fc q b.fs with
      | none => exact .inl ⟨_, execSetParams_biquad_unsupported hs hr⟩
      | some r => exact .inr (.inl ⟨b, r, rfl, hvalid, hr⟩)
    · exact .inl ⟨_, execSetParams_biquad_invalid hs hvalid⟩
  case some.svf =>
    obtain rfl : sel = 0 := of_decide_eq_true ((paramsSelLegal_svf sel).symm.trans hwf)
    by_cases hvalid : paramsValid v.fs fc q = true
    · exact .inr (.inr ⟨v, rfl, rfl, hvalid⟩)
    · exact .inl ⟨_, execSetParams_svf_invalid hs hvalid⟩

/-- R17: SET_PARAMS does not read the response of an earlier command. -/
theorem execSetParams_raise (u : BitVec 8) (sel : BitVec 4) (fc q : Word) (s : State) (e : Status) :
    exec (.setParams u sel fc q) (s.raise e) = exec (.setParams u sel fc q) s := rfl

/-- Settles O41: an error leaves what SET_PARAMS reads, and a design installed again is the same one, because it reads
the rate and no coefficient. -/
theorem setParamsTwiceIsOnce : Obligations.SetParamsTwiceIsOnce := by
  intro s t u sel fc q h
  rcases execSetParams_cases u sel fc q s with ⟨e, he⟩ | ⟨b, r, hs, hvalid, hr⟩ | ⟨v, hs, rfl, hvalid⟩
  · cases he.symm.trans h
    rw [execSetParams_raise, he]
  · cases (execSetParams_biquad hs hvalid hr).symm.trans h
    have hunit := (replaced_setUnit (sl' := .biquad (b.withDesign s.sfmt sel fc q r)) hs rfl).unit
    exact (execSetParams_biquad hunit hvalid hr).trans (congrArg _ (setUnit_respond_twice _ _ _))
  · cases (execSetParams_svf hs hvalid).symm.trans h
    have hunit := (replaced_setUnit (sl' := .svf (v.withDesign s.sfmt fc q)) hs rfl).unit
    exact (execSetParams_svf hunit hvalid).trans (congrArg _ (setUnit_respond_twice _ _ _))

/-! ### SET_MODE (R83) -/

/-- Settles O42: a legal SEL fits the two bits of MODE. -/
theorem setModeWritesMode : Obligations.SetModeWritesMode := by
  intro s u sel v hs
  split
  · next hsel =>
    have hexec : exec (.setMode u sel) s =
        .next (s.setUnit u (.svf { v with mode := BitVec.ofNat 2 sel.toNat })).respond := by
      simp only [exec, execSetMode, hs, hsel, if_true]
    have hmode : (BitVec.ofNat 2 sel.toNat).toNat = sel.toNat := by
      rw [BitVec.toNat_ofNat]
      omega
    obtain ⟨hresp, hunit, hsame, hdraws⟩ :=
      replaced_setUnit (sl' := .svf { v with mode := BitVec.ofNat 2 sel.toNat }) hs rfl
    exact ⟨_, _, hexec, hresp, hunit, hmode, hsame, hdraws⟩
  · next hsel =>
    simp only [exec, execSetMode, hs, hsel, if_false]
    rfl

/-! ### The state registers (R82) -/

/-- R82: no unit's filter state registers change where the outcome is a next state. -/
def KeepsRegisters (s : State) (o : Res State) : Prop :=
  ∀ (t : State) (j : Nat) (sl sl' : Slot),
    o = .next t → s.units[j]? = some sl → t.units[j]? = some sl' → sameRegisters sl sl'

theorem sameRegisters_refl (sl : Slot) : sameRegisters sl sl := by
  cases sl with
  | ring r => trivial
  | delay d => trivial
  | biquad b => exact ⟨rfl, rfl, rfl, rfl⟩
  | svf v => exact ⟨rfl, rfl⟩

/-- The ring buffer of a unit is none of its filter state registers. -/
theorem sameRegisters_withRingBuf (sl : Slot) (r : RingBuf) : sameRegisters sl (sl.withRingBuf r) := by
  cases sl with
  | ring r' => trivial
  | delay d => trivial
  | biquad b => exact sameRegisters_refl (.biquad b)
  | svf v => exact sameRegisters_refl (.svf v)

/-- A command that leaves every unit as it was. -/
theorem keepsRegisters_of_units {s t : State} (h : t.units = s.units) : KeepsRegisters s (.next t) := by
  rintro _ j sl sl' ⟨⟩ hsl hsl'
  rw [h, hsl] at hsl'
  cases hsl'
  exact sameRegisters_refl sl

theorem keepsRegisters_raise (s : State) (e : Status) : KeepsRegisters s (.next (s.raise e)) :=
  keepsRegisters_of_units rfl

theorem keepsRegisters_respondSample (s : State) (v : Sample) : KeepsRegisters s (.next (s.respondSample v)) :=
  keepsRegisters_of_units rfl

/-- A command that replaces a unit by one with the same state registers. -/
theorem keepsRegisters_setUnit {s : State} {u : BitVec 8} {w w' : Slot} (hw : s.units[u.toNat]? = some w)
    (h : sameRegisters w w') : KeepsRegisters s (.next (s.setUnit u w').respond) := by
  rintro _ j sl sl' ⟨⟩ hsl hsl'
  change (s.units.set u.toNat w')[j]? = some sl' at hsl'
  by_cases hj : u.toNat = j
  · subst hj
    obtain ⟨hlt, -⟩ := List.getElem?_eq_some_iff.mp hw
    rw [List.getElem?_set_self hlt] at hsl'
    cases hw.symm.trans hsl
    cases hsl'
    exact h
  · rw [List.getElem?_set_ne hj, hsl] at hsl'
    cases hsl'
    exact sameRegisters_refl sl

/-- An operation, then ends that keep the state registers. -/
theorem keepsRegisters_andThen {α : Type} {s : State} {o : Res α} {k : α → Res State}
    (h : ∀ a, KeepsRegisters s (k a)) : KeepsRegisters s (andThen o k) := by
  intro t j sl sl' ht
  obtain ⟨a, -, hk⟩ := andThen_eq_next.mp ht
  exact h a t j sl sl' hk

theorem keepsRegisters_execRbWrite (u : BitVec 8) (v : Word) (s : State) : KeepsRegisters s (execRbWrite u v s) := by
  unfold execRbWrite
  split
  · next sl hs =>
    split
    · exact keepsRegisters_andThen fun r => keepsRegisters_setUnit hs (sameRegisters_withRingBuf sl r)
    · exact keepsRegisters_raise _ _
  · exact keepsRegisters_raise _ _

theorem keepsRegisters_execRbReadAt (u : BitVec 8) (off : Word) (s : State) :
    KeepsRegisters s (execRbReadAt u off s) := by
  unfold execRbReadAt
  split
  · split
    · split
      · exact keepsRegisters_raise _ _
      · exact keepsRegisters_andThen fun v => keepsRegisters_respondSample s v
    · exact keepsRegisters_raise _ _
  · exact keepsRegisters_raise _ _

theorem keepsRegisters_execSetDelay (u : BitVec 8) (d : Word) (s : State) :
    KeepsRegisters s (execSetDelay u d s) := by
  unfold execSetDelay
  split
  · next hs =>
    split
    · exact keepsRegisters_setUnit hs trivial
    · exact keepsRegisters_raise _ _
  all_goals exact keepsRegisters_raise _ _

theorem keepsRegisters_execLastOut (u : BitVec 8) (s : State) : KeepsRegisters s (execLastOut u s) := by
  unfold execLastOut
  split
  · exact keepsRegisters_respondSample _ _
  all_goals exact keepsRegisters_raise _ _

theorem keepsRegisters_execStageCoeff (u : BitVec 8) (sel : BitVec 4) (v : Word) (s : State) :
    KeepsRegisters s (execStageCoeff u sel v s) := by
  unfold execStageCoeff
  split
  · next hs =>
    split
    · exact keepsRegisters_setUnit hs ⟨rfl, rfl, rfl, rfl⟩
    · exact keepsRegisters_raise _ _
  · next hs =>
    split
    · exact keepsRegisters_setUnit hs ⟨rfl, rfl⟩
    · exact keepsRegisters_raise _ _
  all_goals exact keepsRegisters_raise _ _

theorem keepsRegisters_execCommit (u : BitVec 8) (s : State) : KeepsRegisters s (execCommit u s) := by
  unfold execCommit
  split
  · next hs => exact keepsRegisters_setUnit hs ⟨rfl, rfl, rfl, rfl⟩
  · next hs => exact keepsRegisters_setUnit hs ⟨rfl, rfl⟩
  all_goals exact keepsRegisters_raise _ _

theorem keepsRegisters_setParams (u : BitVec 8) (sel : BitVec 4) (fc q : Word) (s : State) :
    KeepsRegisters s (exec (.setParams u sel fc q) s) := by
  rcases execSetParams_cases u sel fc q s with ⟨e, he⟩ | ⟨b, r, hs, hvalid, hr⟩ | ⟨v, hs, rfl, hvalid⟩
  · rw [he]
    exact keepsRegisters_raise s e
  · rw [execSetParams_biquad hs hvalid hr]
    exact keepsRegisters_setUnit hs ⟨rfl, rfl, rfl, rfl⟩
  · rw [execSetParams_svf hs hvalid]
    exact keepsRegisters_setUnit hs ⟨rfl, rfl⟩

theorem keepsRegisters_execSetMode (u : BitVec 8) (sel : BitVec 4) (s : State) :
    KeepsRegisters s (execSetMode u sel s) := by
  unfold execSetMode
  split
  · next hs =>
    split
    · exact keepsRegisters_setUnit hs ⟨rfl, rfl⟩
    · exact keepsRegisters_raise _ _
  all_goals exact keepsRegisters_raise _ _

/-- Settles O43, by the command: each replaces at most one unit, by one with the same state registers. -/
theorem onlyTicksAndResetsWriteStateRegisters : Obligations.OnlyTicksAndResetsWriteStateRegisters := by
  intro i s t j sl sl' htick hchain hreset hresetAll
  suffices h : KeepsRegisters s (exec i s) from h t j sl sl'
  cases i with
  | tick u x => exact absurd rfl (htick u x)
  | chainTick x => exact absurd rfl (hchain x)
  | reset u => exact absurd rfl (hreset u)
  | resetAll => exact absurd rfl hresetAll
  | nop => exact keepsRegisters_of_units rfl
  | lastOut u => exact keepsRegisters_execLastOut u s
  | rbWrite u v => exact keepsRegisters_execRbWrite u v s
  | rbReadAt u off => exact keepsRegisters_execRbReadAt u off s
  | setDelay u d => exact keepsRegisters_execSetDelay u d s
  | stageCoeff u sel v => exact keepsRegisters_execStageCoeff u sel v s
  | commit u => exact keepsRegisters_execCommit u s
  | setParams u sel fc q => exact keepsRegisters_setParams u sel fc q s
  | setMode u sel => exact keepsRegisters_execSetMode u sel s

/-! ### TICK on a filter (R84 to R87) -/

/-- R91: block `t` is block `s` after a TICK of unit `u`, which left it as `sl` and answered `y`. -/
structure Ticked (u : BitVec 8) (sl : Slot) (y : Sample) (s t : State) : Prop where
  resp : t.resp = some { status := .ok, data := lowBits s.sfmt y }
  unit : t.units[u.toNat]? = some sl
  sameBut : SameBut u.toNat s t

/-- R91: TICK answers what the tick of its unit answers. -/
theorem exec_tick_of_slotTick {s : State} {u : BitVec 8} {x : Word} {sl sl' : Slot} {y : Sample}
    (hs : s.units[u.toNat]? = some sl) (hkind : tickable sl.kind = true)
    (htick : slotTick s.sfmt s.draws sl (lowBits s.sfmt x) = .next (sl', y)) :
    ∃ t, exec (.tick u x) s = .next t ∧ Ticked u sl' y s t := by
  have hexec : exec (.tick u x) s =
      .next (State.respondSample
        { s with units := s.units.set u.toNat sl', draws := s.draws + tickDraws sl } y) := by
    simp only [exec, execTick_eq, hs, Option.map_some, Option.any_some, hkind, if_true, State.tickUnit, argSample,
      htick, andThen_next]
  obtain ⟨hlt, -⟩ := List.getElem?_eq_some_iff.mp hs
  exact ⟨_, hexec, rfl, List.getElem?_set_self hlt,
    oneUnitCommandsTouchOneUnit _ _ _ Instr.noConfusion (fun _ => Instr.noConfusion) hexec⟩

/-- R84, R91: TICK on a BIQUAD unit. -/
theorem exec_tick_biquad {s : State} {u : BitVec 8} {b : BiquadUnit} (hs : s.units[u.toNat]? = some (.biquad b))
    (x : Word) :
    ∃ t, exec (.tick u x) s = .next t ∧
      Ticked u (.biquad (biquadTick s.sfmt s.draws b (lowBits s.sfmt x)).1)
        (bqEval s.sfmt s.draws b (lowBits s.sfmt x)) s t :=
  exec_tick_of_slotTick hs rfl rfl

/-- R86, R91: TICK on an SVF unit. -/
theorem exec_tick_svf {s : State} {u : BitVec 8} {v : SvfUnit} (hs : s.units[u.toNat]? = some (.svf v)) (x : Word) :
    ∃ t, exec (.tick u x) s = .next t ∧
      Ticked u (.svf (svfTick s.sfmt s.draws v (lowBits s.sfmt x)).1)
        (svfSelect v.mode (svfEval s.sfmt s.draws v (lowBits s.sfmt x))) s t :=
  exec_tick_of_slotTick hs rfl rfl

/-- Settles O44: `BqEval` is the difference equation in the order of R85. -/
theorem biquadTickEvaluatesTheEquation : Obligations.BiquadTickEvaluatesTheEquation := by
  intro s u x b hs
  obtain ⟨t, hexec, hresp, hunit, hsame⟩ := exec_tick_biquad hs x
  exact ⟨t, _, _, _, _, _, hexec, rfl, rfl, rfl, rfl, rfl, hresp, hunit, hsame⟩

/-- Settles O45: the signals of `SvfTick` are computed in the order of R86, and each MODE selects one. -/
theorem svfTickPerformsTheStep : Obligations.SvfTickPerformsTheStep := by
  intro s u x v hs
  obtain ⟨t, hexec, hresp, hunit, hsame⟩ := exec_tick_svf hs x
  have hselect : ∀ m, v.mode = m → svfSelect v.mode (svfEval s.sfmt s.draws v (lowBits s.sfmt x)) =
      svfSelect m (svfEval s.sfmt s.draws v (lowBits s.sfmt x)) := fun m hm => by rw [hm]
  exact ⟨t, _, _, _, _, _, hexec, rfl, rfl, rfl, rfl, hselect 0, hselect 1, hselect 2, hselect 3, hresp, hunit, hsame⟩

/-- Settles O46: `SvfTick` reads MODE for its output only. -/
theorem svfStateIgnoresMode : Obligations.SvfStateIgnoresMode := by
  intro s s' t u x v m hsfmt hdraws hs hs' ht
  obtain ⟨t1, hexec, -, hunit, -⟩ := exec_tick_svf hs x
  obtain ⟨t', hexec', -, hunit', -⟩ := exec_tick_svf hs' x
  cases hexec.symm.trans ht
  rw [hsfmt, hdraws] at hunit'
  exact ⟨t', _, hexec', hunit, hunit'⟩

end Sys2Proof.Machine
end

section
/-! PROOF. The tick contract, the chain and reset (spec/43_pipeline.md R89 to R95): a sound block goes on (R90, R99), NOP,
the settings a unit keeps, RESET and RESET_ALL, and TICK and CHAIN_TICK, which never fail. -/

namespace Sys2Proof.Machine

/-! ### A sound block goes on -/

/-- Settles O19, by what a step of a valid build can do: it idles, or it serves a port, and serving answers. -/
theorem soundStatesNeverStop : Obligations.SoundStatesNeverStop := by
  rintro s ⟨hok, -⟩
  rcases step_cases hok.1 with ⟨-, hidle⟩ | ⟨p, q, c, rest, -, -, hserve, -⟩
  · exact ⟨s, hidle⟩
  · obtain ⟨t, ht⟩ := serve_answers hok p c
    exact ⟨t, hserve.trans ht⟩

/-! ### NOP (R89) -/

/-- R53: NOP alone has the opcode 0. -/
theorem eq_nop_of_opcode {i : Instr} (h : i.opcode.toNat = 0) : i = .nop := by
  cases i with
  | nop => rfl
  | _ => exact absurd h (by simp [Instr.opcode])

/-- R89: of the words with opcode 0 the decoder accepts one, whose other fields are 0 too. -/
theorem cmd_eq_zero_of_decode {c : Command} {i : Instr} (hop : c.cmd.toNat % 256 = 0) (h : decode c = .ok i) :
    c.cmd = 0 := by
  obtain ⟨-, hfields⟩ := fields_of_decode h
  have hnop : i = .nop := eq_nop_of_opcode (by rw [← hfields.op, opField_toNat, hop])
  calc c.cmd = (encode i).cmd := (encodeOfDecodeKeepsCommandWord c i h).symm
    _ = 0 := by rw [hnop]; rfl

/-- Settles O48: the word 0 decodes to NOP, and no other word with opcode 0 decodes. -/
theorem nopDoesNothing : Obligations.NopDoesNothing := by
  refine ⟨fun s => rfl, fun c s hop => ?_⟩
  by_cases hcmd : c.cmd = 0
  · have hdecode : decode c = .ok .nop := by rw [decode, decodeOp, hcmd]; rfl
    rw [runCommand_of_decode hdecode, if_pos hcmd]
    rfl
  · rw [runCommand_of_undecodable (fun i hi => hcmd (cmd_eq_zero_of_decode hop hi)), if_neg hcmd]
    rfl

/-! ### The settings of a unit (R27, R90, R93)

RESET clears the running state of a unit and nothing else, so two units have the same settings exactly when RESET makes
them the same. -/

theorem sameSettings_iff {sl sl' : Slot} : sameSettings sl sl' ↔ resetSlot sl = resetSlot sl' := by
  -- slots of different kinds have different settings, and RESET keeps the kind
  cases sl <;> cases sl' <;> simp only [sameSettings, resetSlot, reduceCtorEq]
  all_goals simp [RingBuf.clear, eq_comm]

theorem resetSlot_idem (sl : Slot) : resetSlot (resetSlot sl) = resetSlot sl := by cases sl <;> rfl

/-- R27, R90: each unit has the same settings in two blocks. -/
theorem forall₂_sameSettings_iff {us us' : List Slot} :
    List.Forall₂ sameSettings us us' ↔ us.map resetSlot = us'.map resetSlot := by
  have hsame : sameSettings = fun sl sl' => resetSlot sl = resetSlot sl' := funext₂ fun _ _ => propext sameSettings_iff
  rw [hsame, ← List.forall₂_eq_eq_eq, List.forall₂_map_left_iff, List.forall₂_map_right_iff]

/-- Replacing a unit by one with the same settings keeps every unit's. -/
theorem map_resetSlot_set {us : List Slot} {u : Nat} {sl sl' : Slot} (h : us[u]? = some sl)
    (hsame : sameSettings sl sl') : us.map resetSlot = (us.set u sl').map resetSlot := by
  obtain ⟨hlt, rfl⟩ := List.getElem?_eq_some_iff.mp h
  rw [List.map_set, ← sameSettings_iff.mp hsame, ← List.map_set, List.set_getElem_self]

/-! ### RESET and RESET_ALL (R93, R94) -/

theorem exec_reset {s : State} {u : BitVec 8} {sl : Slot} (hs : s.units[u.toNat]? = some sl) :
    exec (.reset u) s = .next (s.setUnit u (resetSlot sl)).respond := by
  simp only [exec, execReset, hs]

/-- R93: the ring buffer of a reset unit is empty. -/
theorem ringBuf_resetSlot {sl : Slot} {r : RingBuf} (h : (resetSlot sl).ringBuf = some r) :
    ∃ r0 : RingBuf, r = r0.clear := by
  cases sl <;> cases h <;> exact ⟨_, rfl⟩

/-- Settles O52: the unit is replaced by itself with the running state cleared, and so it is by a second RESET. -/
theorem resetClearsTheUnit : Obligations.ResetClearsTheUnit := by
  intro s u sl hs
  obtain ⟨hresp, hunit, hsame, hdraws⟩ := replaced_setUnit hs (resetSlot_cfg sl)
  refine ⟨_, _, exec_reset hs, hresp, hunit, sameSettings_iff.mpr (resetSlot_idem sl).symm, ?_, ?_, hsame, hdraws, ?_⟩
  · intro r hr
    obtain ⟨r0, rfl⟩ := ringBuf_resetSlot hr
    exact ⟨rfl, fun _ => rfl⟩
  · cases sl with
    | ring r => trivial
    | delay d => rfl
    | biquad b => exact ⟨rfl, rfl, rfl, rfl⟩
    | svf v => exact ⟨rfl, rfl⟩
  · rw [exec_reset hunit, resetSlot_idem, setUnit_respond_twice]

/-- Settles O53: RESET replaces the unit by what RESET_ALL makes of it. -/
theorem resetAllResetsEveryUnit : Obligations.ResetAllResetsEveryUnit := by
  intro s
  refine ⟨_, rfl, rfl, rfl, List.length_map _, fun u hu => ⟨_, exec_reset (List.getElem?_eq_getElem hu), ?_⟩⟩
  calc (s.units.map resetSlot)[u.toNat]? = some (resetSlot s.units[u.toNat]) := by
        rw [List.getElem?_map, List.getElem?_eq_getElem hu, Option.map_some]
    _ = (s.units.set u.toNat (resetSlot s.units[u.toNat]))[u.toNat]? := (List.getElem?_set_self hu).symm

/-- R93, R111: where the settings are those of power-on, the cleared unit is the unit at power-on. -/
theorem resetSlot_of_settingsFresh {f : Sfmt} {sl : Slot} (h : settingsFresh f sl) :
    resetSlot sl = powerOnSlot f sl.cfg := by
  cases sl with
  | ring r => rfl
  | delay d =>
    obtain ⟨hint, hfrac⟩ := h
    simp only [resetSlot, powerOnSlot, Slot.cfg, RingBuf.clear, RingBuf.powerOn, hint, hfrac]
  | biquad b =>
    obtain ⟨hactive, hshadow⟩ := h
    simp only [resetSlot, powerOnSlot, Slot.cfg, hactive, hshadow]
  | svf v =>
    obtain ⟨hactive, hshadow, hmode⟩ := h
    simp only [resetSlot, powerOnSlot, Slot.cfg, hactive, hshadow, hmode]

/-- Settles O54: RESET clears the running state, and the settings are those of power-on. -/
theorem resetEqualsPowerOn : Obligations.ResetEqualsPowerOn := by
  intro s u sl hs hfresh
  have hunit := (replaced_setUnit hs (resetSlot_cfg sl)).unit
  exact ⟨_, exec_reset hs, hunit.trans (congrArg some (resetSlot_of_settingsFresh hfresh))⟩

/-! ### TICK (R90, R91) -/

/-- R8: every kind of unit but RING has a tick. -/
theorem tickable_iff {k : Kind} : tickable k = true ↔ k ≠ .ring := by cases k <;> decide

/-- Settles O49: the tick of a sound unit answers, and it keeps the settings. -/
theorem tickIsInfallible : Obligations.TickIsInfallible := by
  intro s u x sl hok hs hkind
  have hsl : slotOk s.sfmt sl = true := UnitsOk.get hok.2.1 hs
  obtain ⟨sl', y, htick, -, -, hsettings, -⟩ := slotTick_ok (n := s.draws) hsl hkind (fits_lowBits s.sfmt x)
  obtain ⟨t, hexec, hresp, hunit, hsame⟩ := exec_tick_of_slotTick hs (tickable_iff.mpr hkind) htick
  exact ⟨t, _, sl', hexec, hresp, hunit, hsettings, hsame⟩

/-! ### CHAIN_TICK (R90, R92) -/

/-- R90: a tick writes no setting, in every state. -/
theorem slotTick_sameSettings {f : Sfmt} {n : Nat} {sl sl' : Slot} {x y : Sample}
    (h : slotTick f n sl x = .next (sl', y)) : sameSettings sl sl' := by
  cases sl with
  | ring r => cases h
  | delay d =>
    obtain ⟨p, hp, he⟩ := andThen_eq_next.mp h
    obtain ⟨r, hwrite, hp⟩ := andThen_eq_next.mp hp
    obtain ⟨z, -, hp⟩ := andThen_eq_next.mp hp
    cases hp
    cases he
    exact ⟨writeAdv_cap hwrite, rfl, rfl, rfl⟩
  | biquad b =>
    cases h
    exact ⟨rfl, rfl, rfl, rfl⟩
  | svf v =>
    cases h
    exact ⟨rfl, rfl, rfl, rfl, rfl, rfl⟩

/-- R92: the stages of a chain keep every unit's settings, and touch no unit outside the chain. -/
theorem chainTicks_keeps {cs : List Nat} {s t : State} {x y : Sample} (h : chainTicks cs s x = .next (t, y)) :
    s.units.map resetSlot = t.units.map resetSlot ∧ ∀ j, j ∉ cs → t.units[j]? = s.units[j]? := by
  induction cs generalizing s x with
  | nil =>
    cases h
    exact ⟨rfl, fun _ _ => rfl⟩
  | cons c cs ih =>
    obtain ⟨⟨s1, x1⟩, hstage, hrest⟩ := andThen_eq_next.mp h
    obtain ⟨hsettings, hothers⟩ := ih hrest
    obtain ⟨sl, sl', hsl, htick, -, rfl⟩ := tickUnit_cases hstage
    refine ⟨(map_resetSlot_set hsl (slotTick_sameSettings htick)).trans hsettings, fun j hj => ?_⟩
    obtain ⟨hjc, hjcs⟩ := not_or.mp (mt List.mem_cons.mpr hj)
    exact (hothers j hjcs).trans (List.getElem?_set_ne (Ne.symm hjc))

/-- Settles O50: in a sound state the chain's ticks answer, and what they keep they keep in every state. -/
theorem chainTickIsInfallible : Obligations.ChainTickIsInfallible := by
  intro s x hok
  obtain ⟨t, y, hticks, -, -, -⟩ := chainTicks_ok hok.2.1 (chain_tickable hok.1) (fits_lowBits s.sfmt x)
  have hexec : exec (.chainTick x) s = .next (t.respondSample y) := by
    simp only [exec, execChainTick, argSample, hticks, andThen_next]
  obtain ⟨hsfmt, hchain, hports, htaken, htrace, -⟩ := chainTicks_frame hticks
  obtain ⟨hsettings, hothers⟩ := chainTicks_keeps hticks
  exact ⟨_, _, hexec, rfl, hsfmt, hchain, hports, htaken, htrace, forall₂_sameSettings_iff.mpr hsettings, hothers⟩

/-! ### The chain as single TICKs (R95)

A TICK answers its output `y` as DATA and leaves the block as `respondSample y` of the state the stage leaves. The TICK
after it reads `y` back from the DATA, bit for bit, and reads nothing of the response, so it is the chain's next stage. -/

/-- The units are sound, as many as UNIT can name (R4), and `cs` names units that have a tick. -/
structure ChainReady (cs : List Nat) (s : State) : Prop where
  units : UnitsOk s
  count : s.units.length ≤ 256
  stages : ∀ c ∈ cs, ((s.units.map Slot.kind)[c]?).any tickable = true

/-- R8, R11: the chain of a sound block. -/
theorem chainReady_of_ok {s : State} (h : s.Ok) : ChainReady s.chain s := by
  obtain ⟨⟨-, hcount⟩, -⟩ := buildValid_parts h.1
  exact ⟨h.2.1, hcount, chain_tickable h.1⟩

/-- R91: a ready stage answers, and the stages after it are ready. -/
theorem ChainReady.tickUnit {c : Nat} {cs : List Nat} {s : State} {x : Sample} (h : ChainReady (c :: cs) s)
    (hx : fits s.sfmt x = true) :
    ∃ s1 y, s.tickUnit c x = .next (s1, y) ∧ fits s1.sfmt y = true ∧ ChainReady cs s1 := by
  obtain ⟨hunits, hcount, hstages⟩ := h
  have hstage := hstages c List.mem_cons_self
  rw [List.getElem?_map, Option.any_map, Option.any_eq_true] at hstage
  obtain ⟨sl, hsl, hkind⟩ := hstage
  obtain ⟨sl', y, htick, hok, hy, -, hcfg⟩ := tickUnit_ok hunits hsl (tickable_iff.mp hkind) hx
  refine ⟨_, y, htick, hy, all_set hunits hok, List.length_set.trans_le hcount, fun c' hc' => ?_⟩
  rw [kind_of_cfg (map_cfg_set hsl hcfg)]
  exact hstages c' (List.mem_cons_of_mem c hc')

/-- R91: TICK of a ready stage answers the output of its unit. -/
theorem ChainReady.exec_tick {c : Nat} {cs : List Nat} {s s1 : State} {x : Word} {y : Sample}
    (h : ChainReady (c :: cs) s) (htick : s.tickUnit c (lowBits s.sfmt x) = .next (s1, y)) :
    exec (.tick (BitVec.ofNat 8 c) x) s = .next (s1.respondSample y) := by
  have hkind := h.stages c List.mem_cons_self
  rw [List.getElem?_map] at hkind
  obtain ⟨sl, -, hsl, -, -, -⟩ := tickUnit_cases htick
  obtain ⟨hlt, -⟩ := List.getElem?_eq_some_iff.mp hsl
  have hunit : (BitVec.ofNat 8 c).toNat = c := Nat.mod_eq_of_lt (hlt.trans_le h.count)
  rw [exec, execTick_eq, hunit, if_pos hkind, argSample, htick, andThen_next]

/-- R17: a tick does not read the response of an earlier command. -/
theorem tickUnit_respondSample {s s1 : State} {u : Nat} {x y : Sample} (v : Sample)
    (h : s.tickUnit u x = .next (s1, y)) :
    ∃ s2, (s.respondSample v).tickUnit u x = .next (s2, y) ∧ s2.respondSample y = s1.respondSample y := by
  obtain ⟨sl, sl', hsl, htick, -, rfl⟩ := tickUnit_cases h
  refine ⟨{ s.respondSample v with units := s.units.set u sl', draws := s.draws + tickDraws sl }, ?_, rfl⟩
  simp only [State.tickUnit, State.respondSample_units, State.respondSample_sfmt, State.respondSample_draws, hsl, htick,
    andThen_next]

/-- R95: the TICKs after the first, each on the DATA of the one before it. -/
theorem tickEach_cons {c : Nat} {x : Word} {s s1 : State} {y : Sample} (cs : List Nat)
    (h : exec (.tick (BitVec.ofNat 8 c) x) s = .next (s1.respondSample y)) :
    tickEach (c :: cs) x s = tickEach cs (lowBits s1.sfmt y) (s1.respondSample y) := by
  rw [tickEach, h, andThen_next]
  rfl

/-- R95: TICKs of ready stages, the first on the DATA of a response `v`, are the chain's stages, the first on `v`. -/
theorem ChainReady.tickEach_eq {cs : List Nat} {s : State} {v : Sample} (h : ChainReady cs s) (hv : fits s.sfmt v = true) :
    tickEach cs (lowBits s.sfmt v) (s.respondSample v) =
      andThen (chainTicks cs s v) fun r => .next (r.1.respondSample r.2) := by
  induction cs generalizing s v with
  | nil => rfl
  | cons c cs ih =>
    obtain ⟨s1, y, htick, hy, hready⟩ := h.tickUnit hv
    have hresponded : ChainReady (c :: cs) (s.respondSample v) := ⟨h.units, h.count, h.stages⟩
    have hdata : lowBits s.sfmt (lowBits s.sfmt v) = v := by rw [lowBits_of_fits hv, lowBits_of_fits hv]
    obtain ⟨s2, htick2, hsame⟩ := tickUnit_respondSample v htick
    have hexec : exec (.tick (BitVec.ofNat 8 c) (lowBits s.sfmt v)) (s.respondSample v) = .next (s2.respondSample y) :=
      hresponded.exec_tick (by rw [State.respondSample_sfmt, hdata, htick2])
    rw [hsame] at hexec
    rw [tickEach_cons cs hexec, ih hready hy, chainTicks, htick, andThen_next]

/-- Settles O51: the first TICK is the chain's first stage, and the TICKs after it are its other stages. -/
theorem chainTickIsItsTicksInTurn : Obligations.ChainTickIsItsTicksInTurn := by
  intro s x hok
  have hx : fits s.sfmt (lowBits s.sfmt x) = true := fits_lowBits s.sfmt x
  have hchainTick : exec (.chainTick x) s =
      andThen (chainTicks s.chain s (lowBits s.sfmt x)) fun r => .next (r.1.respondSample r.2) := rfl
  split
  · next hempty =>
    calc exec (.chainTick x) s = .next (s.respondSample (lowBits s.sfmt x)) := by rw [hchainTick, hempty]; rfl
      _ = _ := by rw [State.respondSample, lowBits_of_fits hx]
  · next hne =>
    obtain ⟨c, cs, hchain⟩ := List.exists_cons_of_ne_nil hne
    have hready := chainReady_of_ok hok
    rw [hchain] at hready ⊢
    obtain ⟨s1, y, htick, hy, hrest⟩ := hready.tickUnit hx
    rw [hchainTick, hchain, chainTicks, htick, andThen_next, tickEach_cons cs (hready.exec_tick htick),
      hrest.tickEach_eq hy]

end Sys2Proof.Machine
end

section
/-! PROOF. Errors and idleness (spec/60_exceptions.md R98, R99, R108): a block with no command pending keeps its state, and
a failed command changes nothing and fails again. -/

namespace Sys2Proof.Machine

/-! ### Idleness (R108, R119) -/

/-- Settles O12, by what a step of a valid build can do: with no command pending it serves no port. -/
theorem quiescentBlockIdles : Obligations.QuiescentBlockIdles := by
  intro s hb hquiet
  rcases step_cases hb with ⟨-, hidle⟩ | ⟨p, q, c, rest, hp, hq, -, -⟩
  · exact hidle
  · cases hq.symm.trans (hquiet q (List.mem_of_getElem? hp))

/-! ### How a command ends (R15, R98, R99) -/

/-- Every response of the outcome has status OK. -/
def Succeeds (o : Res State) : Prop := ∀ t r, o = .next t → t.resp = some r → r.status = .ok

theorem succeeds_respond (s : State) : Succeeds (.next s.respond) := by
  rintro _ _ ⟨⟩ ⟨⟩
  rfl

theorem succeeds_respondSample (s : State) (v : Sample) : Succeeds (.next (s.respondSample v)) := by
  rintro _ _ ⟨⟩ ⟨⟩
  rfl

/-- An operation, then ends with status OK. -/
theorem succeeds_andThen {α : Type} {o : Res α} {k : α → Res State} (h : ∀ a, Succeeds (k a)) :
    Succeeds (andThen o k) := by
  intro t r ht
  obtain ⟨a, -, hk⟩ := andThen_eq_next.mp ht
  exact h a t r hk

theorem succeeds_resetAll (s : State) : Succeeds (exec .resetAll s) := succeeds_respond _

theorem succeeds_chainTick (x : Word) (s : State) : Succeeds (exec (.chainTick x) s) :=
  succeeds_andThen fun _ => succeeds_respondSample _ _

/-- R15: the two ways a command ends in the state `s`: it succeeds, or it takes its error by `raise` in `s` itself. -/
inductive Ends (s : State) : Res State → Prop
  | succeeds {o : Res State} (h : Succeeds o) : Ends s o
  | raises (e : Status) : Ends s (.next (s.raise e))

theorem ends_respond (s t : State) : Ends s (.next t.respond) := .succeeds (succeeds_respond t)

theorem ends_respondSample (s t : State) (v : Sample) : Ends s (.next (t.respondSample v)) :=
  .succeeds (succeeds_respondSample t v)

/-- R98: a command that fails leaves the state with its error raised. -/
theorem Ends.eq_raise {s t : State} {r : Response} {o : Res State} (h : Ends s o) (ht : o = .next t)
    (hr : t.resp = some r) (hfail : r.status ≠ .ok) : t = s.raise r.status := by
  cases h with
  | succeeds h => exact absurd (h t r ht hr) hfail
  | raises e =>
    cases ht
    cases hr
    rfl

/-- R98: every command ends in one of the two ways, whatever the state. -/
theorem exec_ends (i : Instr) (s : State) : Ends s (exec i s) := by
  cases i with
  | nop => exact ends_respond s s
  | resetAll => exact .succeeds (succeeds_resetAll s)
  | chainTick x => exact .succeeds (succeeds_chainTick x s)
  | tick u x =>
    simp only [exec, execTick_eq]
    split
    · exact .succeeds (succeeds_andThen fun _ => succeeds_respondSample _ _)
    · exact .raises _
  | lastOut u =>
    simp only [exec, execLastOut]
    split
    · exact ends_respondSample _ _ _
    all_goals exact .raises _
  | rbWrite u v =>
    simp only [exec, execRbWrite]
    split
    · split
      · exact .succeeds (succeeds_andThen fun _ => succeeds_respond _)
      · exact .raises _
    · exact .raises _
  | rbReadAt u off =>
    simp only [exec, execRbReadAt]
    split
    · split
      · split
        · exact .raises _
        · exact .succeeds (succeeds_andThen fun _ => succeeds_respondSample _ _)
      · exact .raises _
    · exact .raises _
  | setDelay u d =>
    simp only [exec, execSetDelay]
    split
    · split
      · exact ends_respond _ _
      · exact .raises _
    all_goals exact .raises _
  | stageCoeff u sel v =>
    simp only [exec, execStageCoeff]
    split
    · split
      · exact ends_respond _ _
      · exact .raises _
    · split
      · exact ends_respond _ _
      · exact .raises _
    all_goals exact .raises _
  | commit u =>
    simp only [exec, execCommit]
    split
    · exact ends_respond _ _
    · exact ends_respond _ _
    all_goals exact .raises _
  | setParams u sel fc q =>
    rcases execSetParams_cases u sel fc q s with ⟨e, he⟩ | ⟨b, r, hs, hvalid, hr⟩ | ⟨v, hs, rfl, hvalid⟩
    · rw [he]
      exact .raises e
    · rw [execSetParams_biquad hs hvalid hr]
      exact ends_respond _ _
    · rw [execSetParams_svf hs hvalid]
      exact ends_respond _ _
  | setMode u sel =>
    simp only [exec, execSetMode]
    split
    · split
      · exact ends_respond _ _
      · exact .raises _
    all_goals exact .raises _
  | reset u =>
    simp only [exec, execReset]
    split
    · exact ends_respond _ _
    · exact .raises _

/-! ### The retry of a failed command (R98) -/

/-- R98: the retry of a failed instruction reads what the first attempt read, so it fails alike. -/
theorem exec_raise_of_failed {i : Instr} {s : State} {e : Status} (he : e ≠ .ok)
    (h : exec i s = .next (s.raise e)) : exec i (s.raise e) = .next (s.raise e) := by
  have hreset : i ≠ .resetAll := by
    rintro rfl
    exact he (succeeds_resetAll s _ _ h rfl)
  have hchain : ∀ x, i ≠ .chainTick x := by
    rintro x rfl
    exact he (succeeds_chainTick x s _ _ h rfl)
  have hsame : SameUnit i.unit.toNat s (s.raise e) := ⟨rfl, rfl, rfl⟩
  obtain ⟨t, ht, hresp, -, -⟩ := exec_answerAlike hreset hchain hsame _ h
  have hagain : t = (s.raise e).raise e :=
    (exec_ends i _).eq_raise (r := { status := e, data := 0 }) ht hresp he
  rw [ht, hagain]
  rfl

/-- Settles O23: a failed command ends by `raise` in the state it ran in, and its retry reads the same registers. -/
theorem failedCommandChangesNothing : Obligations.FailedCommandChangesNothing := by
  intro c s t r h hr hfail
  cases hd : decode c with
  | error e =>
    have hillegal : ∀ s, runCommand c s = .next (s.raise .illegalCommand) :=
      runCommand_of_undecodable fun i hi => nomatch hd.symm.trans hi
    cases (hillegal s).symm.trans h
    cases hr
    exact ⟨rfl, rfl, hillegal _⟩
  | ok i =>
    have hrun : ∀ s, runCommand c s = exec i s := fun s => by rw [runCommand, hd]
    rw [hrun] at h
    obtain ⟨e, d⟩ := r
    obtain rfl : t = s.raise e := (exec_ends i s).eq_raise h hr hfail
    cases hr
    exact ⟨rfl, rfl, (hrun _).trans (exec_raise_of_failed hfail h)⟩

end Sys2Proof.Machine
end
